-- ==== Sys2Proof/Word.lean ====
section
/-! DEFINITION. Word.lean: the widths of the block's values (00_scope.md R11, R12): bits and bytes. -/

namespace Sys2Proof

/-- A bit: `false` is 0 (low), `true` is 1 (high) (00_scope.md R12, R14). -/
abbrev Bit := Bool

/-- `u8`: bytes on the wire, glyph bytes, characters, rows, columns, sizes and the level (R11). -/
abbrev Byte := BitVec 8

/-- The 16-bit two's-complement argument of `setLevel` (R11); its value is `BitVec.toInt`. -/
abbrev I16 := BitVec 16

end Sys2Proof
end

