-- ==== Sys2Proof/Syntax.lean ====
section
/-! DEFINITION. Syntax.lean: the instructions of the block, one constructor per row of
spec/opcode_table.json: requests, reserved opcodes, wire words, the edge event and the sleep
sequence. -/

namespace Sys2Proof

/-- One row of the opcode table each (30_encoding.md R64, R67, R69, R71). -/
inductive Instr where
  /-- TXB, `transmitByte(v)` (R76). -/
  | txb (v : Byte)
  /-- CMD, `sendCommand(b)` (R81). -/
  | cmd (b : Byte)
  /-- DAT, `sendData(b)` (R82). -/
  | dat (b : Byte)
  /-- SETCUR, `setCursor(row, col)` (R83). -/
  | setcur (row col : Byte)
  /-- CLRALL, `clearAll()` (R84). -/
  | clrall
  /-- CLRROW, `clearRow(row)` (R85). -/
  | clrrow (row : Byte)
  /-- INIT, `init()` (R87). -/
  | init
  /-- CHAR, `renderChar(row, col, ch, size)` (R97). -/
  | char (row col ch size : Byte)
  /-- STR, `renderString(row, col, text, size)` (R100); `text` is the whole supplied sequence, its
  0x00 included (20_memory.md R41, R44). -/
  | str (row col size : Byte) (text : List Byte)
  /-- SETLVL, `setLevel(value)` (R103). -/
  | setlvl (value : I16)
  /-- TICK, `tick()` (R104). -/
  | tick
  /-- LOOP, the free-running loop (R140). -/
  | loop
  /-- RESERVED_00: opcode 0x00 (R71). -/
  | reserved00
  /-- RESERVED_0D_0D: opcode 0x0D (R71). -/
  | reserved0D
  /-- RESERVED_0E_0F: opcodes 0x0E and 0x0F (R71). -/
  | reserved0E0F (low : BitVec 1)
  /-- RESERVED_10_1F (R71). -/
  | reserved101F (low : BitVec 4)
  /-- RESERVED_20_3F (R71). -/
  | reserved203F (low : BitVec 5)
  /-- RESERVED_40_7F (R71). -/
  | reserved407F (low : BitVec 6)
  /-- RESERVED_80_FF (R71). -/
  | reserved80FF (low : BitVec 7)
  /-- SET_X: wire command `0x80 | x` (R64). -/
  | setX (x : BitVec 7)
  /-- SET_Y: wire command `0x40 | y` (R64). -/
  | setY (y : BitVec 3)
  /-- FSET_EXT: wire command 0x21 (R64, R90). -/
  | fsetExt
  /-- FSET_NORM: wire command 0x20 (R64, R90). -/
  | fsetNorm
  /-- DISP_NORMAL: wire command 0x0C (R64, R90). -/
  | dispNormal
  /-- CONTRAST_BIAS: any other wire command byte (R64, R90). -/
  | contrastBias (b : Byte)
  /-- DATA: wire data byte, bit 0 the top pixel (R64, R82). -/
  | data (p : Byte)
  /-- EV_EDGE: a qualifying button edge is delivered (R108, R109). -/
  | evEdge
  /-- SLEEPSEQ: the sleep sequence of the handler's off path (R112). -/
  | sleepseq
  deriving DecidableEq, Repr

end Sys2Proof
end

