-- ==== Sys2Proof/WellFormed.lean ====
section
/-! DEFINITION. WellFormed.lean: which terms of `Instr` stand for an instruction the encodings of
30_encoding.md can express. -/

namespace Sys2Proof

/-- `SIZES` = 1 and 2 (00_scope.md R10, 43_text_renderer.md R95). -/
def sizeOk (size : Byte) : Bool := size == 1 || size == 2

/-- The text of a decoded STR ends at its first 0x00 and includes it (R67, R70). -/
def textOk : List Byte → Bool
  | [] => false
  | [b] => b == 0
  | b :: c :: rest => b != 0 && textOk (c :: rest)

/-- No other row of the table names the wire command `b`: CONTRAST_BIAS's pattern covers every
command byte, and the more particular rows win (R64, log 15). -/
def contrastBiasOk (b : Byte) : Bool :=
  !(b.getLsbD 7) && !(b.extractLsb' 3 5 == 8#5) && b != 0x21 && b != 0x20 && b != 0x0C

/-- Every field at a value its encoding admits, and every word under its own row's name. -/
def Instr.wf : Instr → Bool
  | .char _ _ _ size => sizeOk size
  | .str _ _ size text => sizeOk size && textOk text
  | .contrastBias b => contrastBiasOk b
  | .txb _ | .cmd _ | .dat _ | .setcur _ _ | .clrall | .clrrow _ | .init | .setlvl _ | .tick
  | .loop | .reserved00 | .reserved0D | .reserved0E0F _ | .reserved101F _ | .reserved203F _
  | .reserved407F _ | .reserved80FF _ | .setX _ | .setY _ | .fsetExt | .fsetNorm
  | .dispNormal | .data _ | .evEdge | .sleepseq => true

/-- The twelve requests: what a request stream can start (30_encoding.md R67, R69). -/
def Instr.isRequest : Instr → Bool
  | .txb _ | .cmd _ | .dat _ | .setcur _ _ | .clrall | .clrrow _ | .init | .char _ _ _ _
  | .str _ _ _ _ | .setlvl _ | .tick | .loop => true
  | .reserved00 | .reserved0D | .reserved0E0F _ | .reserved101F _ | .reserved203F _
  | .reserved407F _ | .reserved80FF _ | .setX _ | .setY _ | .fsetExt | .fsetNorm
  | .dispNormal | .contrastBias _ | .data _ | .evEdge | .sleepseq => false

/-- The requests refused or faulted before the display is READY (30_encoding.md R72). -/
def Instr.needsReady : Instr → Bool
  | .txb _ | .cmd _ | .dat _ | .setcur _ _ | .clrall | .clrrow _ | .char _ _ _ _
  | .str _ _ _ _ => true
  | .init | .setlvl _ | .tick | .loop
  | .reserved00 | .reserved0D | .reserved0E0F _ | .reserved101F _ | .reserved203F _
  | .reserved407F _ | .reserved80FF _ | .setX _ | .setY _ | .fsetExt | .fsetNorm
  | .dispNormal | .contrastBias _ | .data _ | .evEdge | .sleepseq => false

/-- The reserved opcodes (30_encoding.md R71). -/
def Instr.isReserved : Instr → Bool
  | .reserved00 | .reserved0D | .reserved0E0F _ | .reserved101F _ | .reserved203F _
  | .reserved407F _ | .reserved80FF _ => true
  | .txb _ | .cmd _ | .dat _ | .setcur _ _ | .clrall | .clrrow _ | .init | .char _ _ _ _
  | .str _ _ _ _ | .setlvl _ | .tick | .loop | .setX _ | .setY _ | .fsetExt | .fsetNorm
  | .dispNormal | .contrastBias _ | .data _ | .evEdge | .sleepseq => false

/-- The words on the wire (30_encoding.md R64). -/
def Instr.isWireWord : Instr → Bool
  | .setX _ | .setY _ | .fsetExt | .fsetNorm | .dispNormal | .contrastBias _ | .data _ => true
  | .txb _ | .cmd _ | .dat _ | .setcur _ _ | .clrall | .clrrow _ | .init | .char _ _ _ _
  | .str _ _ _ _ | .setlvl _ | .tick | .loop
  | .reserved00 | .reserved0D | .reserved0E0F _ | .reserved101F _ | .reserved203F _
  | .reserved407F _ | .reserved80FF _ | .evEdge | .sleepseq => false

/-- What STARTUP_REQUESTS may hold (70_reset_and_hazards.md R139): CLRALL, CLRROW, SETCUR, CMD,
DAT, CHAR and STR, as requests a decoder would accept. -/
def Instr.isStartup : Instr → Bool
  | .clrall | .clrrow _ | .setcur _ _ | .cmd _ | .dat _ => true
  | .char _ _ _ size => sizeOk size
  | .str _ _ size text => sizeOk size && textOk text
  | .txb _ | .init | .setlvl _ | .tick | .loop
  | .reserved00 | .reserved0D | .reserved0E0F _ | .reserved101F _ | .reserved203F _
  | .reserved407F _ | .reserved80FF _ | .setX _ | .setY _ | .fsetExt | .fsetNorm
  | .dispNormal | .contrastBias _ | .data _ | .evEdge | .sleepseq => false

end Sys2Proof
end

