-- ==== Sys2Proof/Decode.lean ====
section
/-! DEFINITION. Decode.lean: the request decoder and the wire-word decoder (30_encoding.md), their
encoders, and the host's view of one row of the opcode table. -/

namespace Sys2Proof

/-- The decoder's refusals (30_encoding.md R70): REFUSE_OPCODE, REFUSE_TRUNCATED, REFUSE_SIZE. -/
inductive Reject where
  | opcode (b : Byte)
  | truncated
  | size (v : Byte)
  deriving DecidableEq, Repr

/-- What the decoder answers: a request, or a refusal, each with the bytes it has not consumed. A
refused request's bytes are consumed up to the point of refusal (R70; where that is, log 26). -/
inductive Decoded where
  | ok (i : Instr) (rest : List Byte)
  | refuse (r : Reject) (rest : List Byte)
  deriving DecidableEq, Repr

/-! ### Requests -/

/-- The operands of a request that has none. -/
def operands0 (i : Instr) (bs : List Byte) : Decoded := .ok i bs

/-- One operand byte. -/
def operands1 (f : Byte → Instr) : List Byte → Decoded
  | v :: rest => .ok (f v) rest
  | [] => .refuse .truncated []

/-- Two operand bytes, in the order listed (R67). -/
def operands2 (f : Byte → Byte → Instr) : List Byte → Decoded
  | a :: b :: rest => .ok (f a b) rest
  | _ => .refuse .truncated []

/-- `value = {hi, lo}`, low byte first (R68). -/
def i16OfBytes (lo hi : Byte) : I16 := hi ++ lo

/-- CHAR's operands, then its size check (R70 step 3). -/
def operandsChar : List Byte → Decoded
  | row :: col :: ch :: size :: rest =>
    if sizeOk size then .ok (.char row col ch size) rest else .refuse (.size size) rest
  | _ => .refuse .truncated []

/-- The bytes up to and including the first 0x00, and the bytes after it (R66, R74). -/
def takeText : List Byte → Option (List Byte × List Byte)
  | [] => none
  | b :: bs =>
    if b = 0 then some ([b], bs)
    else (takeText bs).map fun (text, rest) => (b :: text, rest)

/-- STR's operands: a missing terminator is a truncation, and comes before the size (R70). -/
def operandsStr : List Byte → Decoded
  | row :: col :: size :: bs =>
    match takeText bs with
    | none => .refuse .truncated []
    | some (text, rest) =>
      if sizeOk size then .ok (.str row col size text) rest else .refuse (.size size) rest
  | _ => .refuse .truncated []

/-- The opcode map (R67); opcodes 0x00 and 0x0D to 0xFF are reserved (R71). -/
def decodeOp (op : Byte) (bs : List Byte) : Decoded :=
  match op with
  | 0x01#8 => operands1 .txb bs
  | 0x02#8 => operands1 .cmd bs
  | 0x03#8 => operands1 .dat bs
  | 0x04#8 => operands2 .setcur bs
  | 0x05#8 => operands0 .clrall bs
  | 0x06#8 => operands1 .clrrow bs
  | 0x07#8 => operands0 .init bs
  | 0x08#8 => operandsChar bs
  | 0x09#8 => operandsStr bs
  | 0x0A#8 => operands2 (fun lo hi => .setlvl (i16OfBytes lo hi)) bs
  | 0x0B#8 => operands0 .tick bs
  | 0x0C#8 => operands0 .loop bs
  | _ => .refuse (.opcode op) bs

/-- The request decoder, total on any bytes (R70). The spec does not say what it answers on no byte
at all, where there is no opcode to read; REFUSE_TRUNCATED is the model's choice (DESIGN CHOICE, log
27), and no step asks for it (`Machine.requestMove`). -/
def decode : List Byte → Decoded
  | [] => .refuse .truncated []
  | op :: bs => decodeOp op bs

/-! ### Wire words -/

/-- The row that names the wire command byte `b`: the particular rows before CONTRAST_BIAS, whose
pattern covers them all (R64, log 15). -/
def decodeCommand (b : Byte) : Instr :=
  if b.getLsbD 7 then .setX (b.setWidth 7)
  else if b.extractLsb' 3 5 = 8#5 then .setY (b.setWidth 3)
  else if b = 0x21 then .fsetExt
  else if b = 0x20 then .fsetNorm
  else if b = 0x0C then .dispNormal
  else .contrastBias b

/-- The wire word `w = {d, b}`: `d = 0` is a command, `d = 1` is data (R64). -/
def decodeWire (w : BitVec 9) : Instr :=
  if w.getLsbD 8 then .data (w.setWidth 8) else decodeCommand (w.setWidth 8)

/-! ### Encoders, from the same tables -/

/-- The wire command byte of a command row (R64, R65); none for the other rows. -/
def commandByte : Instr → Option Byte
  | .setX x => some (0x80 ||| x.setWidth 8)
  | .setY y => some (0x40 ||| y.setWidth 8)
  | .fsetExt => some 0x21
  | .fsetNorm => some 0x20
  | .dispNormal => some 0x0C
  | .contrastBias b => some b
  | .txb _ | .cmd _ | .dat _ | .setcur _ _ | .clrall | .clrrow _ | .init | .char _ _ _ _
  | .str _ _ _ _ | .setlvl _ | .tick | .loop
  | .reserved00 | .reserved0D | .reserved0E0F _ | .reserved101F _ | .reserved203F _
  | .reserved407F _ | .reserved80FF _ | .data _ | .evEdge | .sleepseq => none

/-- The 9-bit word `{d, b}` of a wire row (R64); none for the other rows. -/
def encodeWire (i : Instr) : Option (BitVec 9) :=
  match i with
  | .data p => some ((1#1 ++ p : BitVec 9))
  | _ => (commandByte i).map fun b => (0#1 ++ b : BitVec 9)

/-- The opcode byte of a reserved row (R71); 0 for the other rows. -/
def reservedByte : Instr → Byte
  | .reserved0D => 0x0D
  | .reserved0E0F low => (0b0000111#7 ++ low : BitVec 8)
  | .reserved101F low => (0b0001#4 ++ low : BitVec 8)
  | .reserved203F low => (0b001#3 ++ low : BitVec 8)
  | .reserved407F low => (0b01#2 ++ low : BitVec 8)
  | .reserved80FF low => (0b1#1 ++ low : BitVec 8)
  | .reserved00
  | .txb _ | .cmd _ | .dat _ | .setcur _ _ | .clrall | .clrrow _ | .init | .char _ _ _ _
  | .str _ _ _ _ | .setlvl _ | .tick | .loop | .setX _ | .setY _ | .fsetExt | .fsetNorm
  | .dispNormal | .contrastBias _ | .data _ | .evEdge | .sleepseq => 0x00

/-- The bytes of an instruction: a request's bytes (R67), a reserved opcode, a wire word as its low
byte and then its select bit; EV_EDGE and SLEEPSEQ have no encoding (R69). -/
def encode (i : Instr) : List Byte :=
  match i with
  | .txb v => [0x01, v]
  | .cmd b => [0x02, b]
  | .dat b => [0x03, b]
  | .setcur row col => [0x04, row, col]
  | .clrall => [0x05]
  | .clrrow row => [0x06, row]
  | .init => [0x07]
  | .char row col ch size => [0x08, row, col, ch, size]
  | .str row col size text => 0x09 :: row :: col :: size :: text
  | .setlvl value => [0x0A, value.setWidth 8, value.extractLsb' 8 8]
  | .tick => [0x0B]
  | .loop => [0x0C]
  | .reserved00 | .reserved0D | .reserved0E0F _ | .reserved101F _ | .reserved203F _
  | .reserved407F _ | .reserved80FF _ => [reservedByte i]
  | .setX _ | .setY _ | .fsetExt | .fsetNorm | .dispNormal | .contrastBias _ | .data _ =>
    match encodeWire i with
    | some w => [w.setWidth 8, (w.extractLsb' 8 1).setWidth 8]
    | none => []
  | .evEdge | .sleepseq => []

/-! ### One row of the opcode table -/

/-- The `n` low bytes of `w`, the least significant first. -/
def lowBytes : Nat → Nat → List Byte
  | 0, _ => []
  | n + 1, w => BitVec.ofNat 8 w :: lowBytes n (w / 256)

/-- How many bytes a request of this opcode has (R67, R74), STR with the empty text. -/
def requestLength (op : Byte) : Nat :=
  match op with
  | 0x01#8 | 0x02#8 | 0x03#8 | 0x06#8 => 2
  | 0x04#8 | 0x0A#8 => 3
  | 0x08#8 | 0x09#8 => 5
  | _ => 1

/-- The request bytes the table's word `w` of `nbits` bits stands for: its bytes, then zeros up to
the request's length (log 22). -/
def requestOfTableWord (nbits w : Nat) : List Byte :=
  let bytes := lowBytes ((nbits + 7) / 8) w
  let len := match bytes with
    | [] => 0
    | op :: _ => requestLength op
  bytes ++ List.replicate (len - bytes.length) 0

/-- Whether the table's word of `nbits` bits is a wire word: the WIRE9 rows have nine bits, in whole
bytes sixteen; the REQ rows give only the opcode byte (log 22). -/
def isWireTableWord (nbits : Nat) : Bool := Nat.ble 9 nbits && Nat.ble nbits 16

/-- The instruction the decoders read from a word of the opcode table (log 22). -/
def decodeTableWord (nbits w : Nat) : Option Instr :=
  if isWireTableWord nbits then
    if w < 512 then some (decodeWire (BitVec.ofNat 9 w)) else none
  else
    match decode (requestOfTableWord nbits w) with
    | .ok i _ => some i
    | .refuse _ _ => none

end Sys2Proof
end

