-- ==== Sys2Proof/Machine/Types.lean ====
section
/-! DEFINITION. Machine/Types.lean: the plain data the state is made of: pins, actions, events,
the receiver's registers. -/

namespace Sys2Proof.Machine

/-- The output pins `OPINS` (10_state.md R22). -/
inductive OPin where
  | sclk | sdin | dc | rst | led
  deriving DecidableEq, Repr, Inhabited

/-- `cfg[p]` of an output pin (R22). -/
inductive PinMode where
  | unconf | out
  deriving DecidableEq, Repr, Inhabited

/-- `cfg[BTN]` (R25). -/
inductive BtnMode where
  | unconf | inPullup
  deriving DecidableEq, Repr, Inhabited

/-- An output pin: `cfg[p]` and `out[p]` (R22). -/
structure PinState where
  mode : PinMode
  out : Bit
  deriving DecidableEq, Repr, Inhabited

/-- The five output pins (R22). -/
structure Pins where
  sclk : PinState
  sdin : PinState
  dc : PinState
  rst : PinState
  led : PinState
  deriving DecidableEq, Repr, Inhabited

/-- `sleep_mode` (R28). -/
inductive SleepMode where
  | idle | powerDown
  deriving DecidableEq, Repr, Inhabited

/-- `disp_state` (R33). -/
inductive DispState where
  | uninit | pinsConfigured | reset | ready
  deriving DecidableEq, Repr, Inhabited

/-- The kinds of busy-wait: RESET (R89), PULSE and DWELL (R104), HOLD_ON (R110), HOLD_OFF (R111). -/
inductive WaitKind where
  | reset | pulse | dwell | holdOn | holdOff
  deriving DecidableEq, Repr, Inhabited

/-- `EDGE_QUALIFIER` (R10, R107). -/
inductive EdgeQualifier where
  | falling | rising | any
  deriving DecidableEq, Repr, Inhabited

/-- One action of init's step 1 on a control line (R88). -/
inductive LineSetup where
  | config (p : OPin)
  | driveLow (p : OPin)
  deriving DecidableEq, Repr, Inhabited

/-- The primitive actions, each indivisible (00_scope.md R15). `PinCfg` has two forms, since an
output pin is only ever configured to OUT and the button only to IN_PULLUP (R22, R25). -/
inductive Action where
  | pinCfg (p : OPin)
  | btnCfg
  | pinWrite (p : OPin) (v : Bit)
  | delay (k : WaitKind) (d : Nat)
  | ieWrite (b : Bool)
  | smWrite (m : SleepMode)
  | seWrite (b : Bool)
  | sleepCpu
  | levelWrite (v : Byte)
  | dispWrite (d : DispState)
  | pcieWrite (b : Bool)
  | setLevel (value : I16)
  | ret
  deriving DecidableEq, Repr, Inhabited

/-- The events of the trace (00_scope.md R14): `Cfg(p, OUT)`, `Cfg(BTN, IN_PULLUP)`, `Set`,
`Wait`, `Sleep`, `Wake`. -/
inductive Event where
  | cfg (p : OPin)
  | cfgBtn
  | set (p : OPin) (v : Bit)
  | wait (k : WaitKind) (d : Nat)
  | sleep
  | wake
  deriving DecidableEq, Repr, Inhabited

/-- An entry of the boot list (70_reset_and_hazards.md R139): an action, or an operation that
computes its own actions when it starts (10_state.md R34). -/
inductive Job where
  | act (a : Action)
  | op (i : Instr)
  deriving DecidableEq, Repr, Inhabited

/-- An activation frame: the actions a handler activation has still to run (10_state.md R35). -/
structure Frame where
  seq : List Action
  deriving DecidableEq, Repr, Inhabited

/-- A turn of the schedule (log 1): the device runs, or the environment drives the button pin
(45_power_interrupt.md R107). -/
inductive Turn where
  | device
  | button (b : Bit)
  deriving DecidableEq, Repr, Inhabited

/-- `rx_mode` (20_memory.md R57). -/
inductive RxMode where
  | blank | normal | allOn | inverse
  deriving DecidableEq, Repr, Inhabited

/-- The receiver's registers (20_memory.md R57): shift, count, cursor, H, V, PD, mode, vop, bias,
tc. -/
structure RxRegs where
  shift : Byte
  count : Fin 8
  x : Fin 84
  y : Fin 6
  extended : Bit
  vertical : Bit
  powerDown : Bit
  mode : RxMode
  vop : BitVec 7
  bias : BitVec 3
  tc : BitVec 2
  deriving DecidableEq, Repr, Inhabited

/-- The power states (10_state.md R38). -/
inductive PowerState where
  | asleep | dimTransition | bright | dark
  deriving DecidableEq, Repr, Inhabited

end Sys2Proof.Machine
end

