-- ==== Sys2Proof/Config.lean ====
section
/-! DEFINITION. Config.lean: the configuration of 00_scope.md R10 and the free values. A parameter
the spec marks OPEN is an opaque constant: no proof can see its value. -/

namespace Sys2Proof

/-- The configuration (00_scope.md R10, R39). Durations are in microseconds (log 21). `ROWS`,
`COLS`, `GLYPH_W`, the character range, `SUBST_CHAR` and `LEVEL_MAX` are fixed by the source and
stand as numbers in the rules that use them. -/
structure Params where
  /-- `FONT`: 96 × 5 bytes (R42). -/
  font : Vector Byte 480
  /-- `SPACING_COPIES(1)` and `SPACING_COPIES(2)` (R99). -/
  spacing1 : Nat
  spacing2 : Nat
  /-- `DC_CMD_LEVEL` (R80). -/
  dcCmdLevel : Bit
  /-- `INIT_CONTRAST_BIAS` (R90). -/
  contrastBias : List Byte
  /-- `T_RST` and `T_RST_MIN` (R89, R144). -/
  tRst : Nat
  tRstMin : Nat
  /-- `T_HOLD_ON`, `T_HOLD_OFF` (R110, R111). -/
  tHoldOn : Nat
  tHoldOff : Nat
  /-- `T_PULSE`, `T_UNIT` (R104). -/
  tPulse : Nat
  tUnit : Nat
  /-- `BTN_PRESSED_LEVEL`, `EDGE_QUALIFIER`, `EDGE_LATCH` (R107, R108). -/
  btnPressedLevel : Bit
  edgeQualifier : Machine.EdgeQualifier
  edgeLatch : Bool
  /-- `NEST_LIMIT` (R125). -/
  nestLimit : Nat
  /-- `STARTUP_REQUESTS` (R139). -/
  startup : List Instr
  /-- The order of the eight actions of init's step 1 (R88, log 20). -/
  initOrder : List Machine.LineSetup
  deriving DecidableEq, Repr

/-- OPEN (R10): the font's bytes. -/
opaque Config.font : Vector Byte 480
/-- OPEN (D7): the first and the other bytes of the nonempty `INIT_CONTRAST_BIAS`. -/
opaque Config.contrastBiasFirst : Byte
opaque Config.contrastBiasRest : List Byte
/-- OPEN (D8): the reset settle time and the receiver's minimum. -/
opaque Config.tRst : Nat
opaque Config.tRstMin : Nat
/-- OPEN (D39): the pulse width. -/
opaque Config.tPulse : Nat
/-- OPEN (D35): how far `NEST_LIMIT` lies above its least value 2. -/
opaque Config.nestLimitAboveTwo : Nat
/-- OPEN (D41): the static text's requests. -/
opaque Config.startup : List Instr

/-- Free value (R58, R61, R122, log 4): the receiver's registers after the n-th event that leaves
its state unknown. -/
opaque Config.freeReceiver : Nat → Machine.RxRegs

/-- The canonical order of init's step 1 (R88). -/
def Config.canonicalInitOrder : List Machine.LineSetup :=
  [.config .sclk, .driveLow .sclk, .config .sdin, .driveLow .sdin,
   .config .dc, .driveLow .dc, .config .rst, .driveLow .rst]

/-- The configuration after reset: the spec's values where R10 gives or decides one, the opaque
constants where it says OPEN (log 3). -/
def Config.device : Params where
  font := Config.font
  spacing1 := 1
  spacing2 := 2
  dcCmdLevel := false
  contrastBias := Config.contrastBiasFirst :: Config.contrastBiasRest
  tRst := Config.tRst
  tRstMin := Config.tRstMin
  tHoldOn := 100000
  tHoldOff := 300000
  tPulse := Config.tPulse
  tUnit := 1
  btnPressedLevel := false
  edgeQualifier := .falling
  edgeLatch := false
  nestLimit := 2 + Config.nestLimitAboveTwo
  startup := Config.startup
  initOrder := Config.canonicalInitOrder

/-- The limits R10 sets on the configuration: a nonempty contrast list and `NEST_LIMIT ≥ 2`. -/
def Params.ok (p : Params) : Bool := p.contrastBias != [] && Nat.ble 2 p.nestLimit

end Sys2Proof
end

