-- ==== Sys2Proof/Machine/Boot.lean ====
section
/-! DEFINITION. Machine/Boot.lean: the boot list (70_reset_and_hazards.md R139) and the values the
receiver's registers are held at while RST is low (20_memory.md R58). -/

namespace Sys2Proof.Machine

/-- The boot list: LED set-up, INIT, the static text's display requests, the button, the pin-change
source, interrupts, LOOP (R139). -/
def bootList (p : Params) : List Job :=
  [.act (.pinCfg .led), .act (.pinWrite .led false), .op .init] ++
  (p.startup.filter Instr.isStartup).map .op ++
  [.act .btnCfg, .act (.pcieWrite true), .act (.ieWrite true), .op .loop]

/-- What RST low does to the receiver's registers; `rx_shift` is not named (R58). -/
def heldRegs (r : RxRegs) : RxRegs :=
  { r with
    count := 0, x := 0, y := 0, extended := false, vertical := false, powerDown := true,
    mode := .blank, vop := 0, bias := 0, tc := 0 }

/-- The receiver's registers at power-on (R58); `rx_shift` is 0 (DESIGN CHOICE, log 8). -/
def powerOnRegs : RxRegs :=
  { shift := 0, count := 0, x := 0, y := 0, extended := false, vertical := false,
    powerDown := true, mode := .blank, vop := 0, bias := 0, tc := 0 }

end Sys2Proof.Machine
end

