-- ==== Sys2Proof/Machine/State.lean ====
section
/-! DEFINITION. Machine/State.lean: the state of the block (10_state.md) and of the display receiver
(20_memory.md R57), the reasons a step can stop, and the state after reset. -/

namespace Sys2Proof.Machine

/-- The display RAM: the cells that hold a known byte, by address `y * 84 + x` (20_memory.md R41,
R57). An unlisted cell is unknown, never 0 (R58, log 5). -/
abbrev Memory := List Host.Cell

/-- The canonical form: addresses strictly rising and inside the 6 × 84 cells. -/
def Memory.wf : Memory → Bool
  | [] => true
  | [(a, _)] => Nat.blt a 504
  | (a, _) :: (b, v) :: rest => Nat.blt a b && Memory.wf ((b, v) :: rest)

/-- The display receiver (20_memory.md R57): registers, display RAM, and the model's own count of the
free register states taken so far (log 4). -/
structure Receiver where
  regs : RxRegs
  ram : Memory
  draws : Nat
  deriving DecidableEq, Repr

/-- The state of the machine. -/
structure State where
  /-- The configuration (00_scope.md R10, R39); no step changes it (log 3). -/
  params : Params
  /-- `level` (R21). -/
  level : Byte
  /-- `cfg[p]` and `out[p]` of the output pins (R22). -/
  pins : Pins
  /-- `cfg[BTN]`, `btn_in`, `btn_prev` (R25). -/
  btnMode : BtnMode
  btnIn : Bit
  btnPrev : Bit
  /-- `ie` (R26). -/
  ie : Bool
  /-- `pcint_en` (R27). -/
  pcintEn : Bool
  /-- `sleep_mode` (R28). -/
  sleepMode : SleepMode
  /-- `se` (R29). -/
  se : Bool
  /-- `asleep` (R30). -/
  asleep : Bool
  /-- `pending` (R31). -/
  pending : Bool
  /-- `disp_state` (R33). -/
  dispState : DispState
  /-- The main context: the actions left of its operation (R34), the entries of the boot list not
  yet started (R139, log 11), the request bytes not yet decoded (R66, R142). -/
  mainSeq : List Action
  mainJobs : List Job
  requests : List Byte
  /-- `frames`, innermost first (R35). -/
  frames : List Frame
  /-- `trace` (R37), newest event first; `State.trace` is the list in the spec's order. -/
  traceRev : List Event
  /-- The display receiver (20_memory.md R57). -/
  rx : Receiver
  /-- The turns still to come; when none is left the device runs (log 1). -/
  sched : List Turn
  deriving DecidableEq, Repr

/-- `trace`: the events in the order they happened (R14, R37). -/
def State.trace (s : State) : List Event := s.traceRev.reverse

/-- The points where the model gives no meaning (60_exceptions.md R119). Each is safe: the run stops,
so nothing can be proved through it. -/
inductive Fault where
  /-- F_NOT_READY: raised by TXB, CMD, DAT, SETCUR, CLRALL, CLRROW, CHAR and STR when they start with
  `disp_state` not READY (R72). Records the request. Safe. -/
  | notReady (request : Instr)
  /-- F_REINIT: raised by INIT when it starts with `disp_state` not UNINIT (R87). Records the
  request. Safe. -/
  | reinit (request : Instr)
  /-- F_PIN_UNCONF: raised by a pin write (or SetLevel's) while `cfg[p]` is not OUT (R24). Records
  the pin and the action. Safe. -/
  | pinUnconf (pin : OPin) (action : Action)
  /-- F_TEXT_BOUNDS: raised by STR when it reads past the end of a text with no terminator (R44).
  Records the index. Safe. -/
  | textBounds (index : Nat)
  /-- F_NEST_LIMIT: raised by activation entry when `depth + 1` exceeds NEST_LIMIT (R125). Records the
  depth, and the state it leaves: entry may have woken the device before it (V43, log 13). Safe. -/
  | nestLimit (depth : Nat) (left : State)
  /-- F_SLEEP_MODE: raised by SleepCpu when armed in another mode than POWER_DOWN (R113). Records the
  mode. Safe. -/
  | sleepMode (mode : SleepMode)
  deriving DecidableEq, Repr

/-- The refusals (60_exceptions.md R121). Each is safe: the run stops, with no action performed. Each
keeps the state it leaves, with the refused request's bytes consumed up to the point of refusal
(30_encoding.md R70, log 26); a direct call consumes none. -/
inductive Refusal where
  /-- An instruction with no meaning yet; no arm of `exec` raises it. Safe. -/
  | notModelled (mnemonic : String)
  /-- REFUSE_OPCODE: a reserved opcode, from the decoder or a reserved row (R70, R71). Safe. -/
  | opcode (b : Byte) (left : State)
  /-- REFUSE_TRUNCATED: the request bytes end too early, from the decoder (R70). Safe. -/
  | truncated (left : State)
  /-- REFUSE_SIZE: a size other than 1 and 2, from the decoder or from CHAR and STR called directly
  (R95, R121). Safe. -/
  | size (v : Byte) (left : State)
  deriving DecidableEq, Repr

/-- A pin after reset: UNCONF, driven level 0 (R40). -/
def PinState.reset : PinState := { mode := .unconf, out := false }

/-- The machine right after power-on reset (10_state.md R40, 20_memory.md R58, 70 R138). The button
levels are DESIGN CHOICES (log 6, log 7). -/
def State.reset : State where
  params := Config.device
  level := 0
  pins := ⟨.reset, .reset, .reset, .reset, .reset⟩
  btnMode := .unconf
  btnIn := true
  btnPrev := true
  ie := false
  pcintEn := false
  sleepMode := .idle
  se := false
  asleep := false
  pending := false
  dispState := .uninit
  mainSeq := []
  mainJobs := bootList Config.device
  requests := []
  frames := []
  traceRev := []
  rx := { regs := powerOnRegs, ram := [], draws := 0 }
  sched := []

end Sys2Proof.Machine
end

