-- ==== Sys2Proof/Machine/Flags.lean ====
section
/-! DEFINITION. Machine/Flags.lean: the predicates computed from the state. The block has no
condition codes; these are the edge detector's test, the derived power states, the button and the
displayed pixel. -/

namespace Sys2Proof.Machine

/-- Whether the change from `old` to `new` on BTN qualifies (45_power_interrupt.md R107). -/
def edgeQualifies (q : EdgeQualifier) (old new : Bit) : Bool :=
  match q with
  | .falling => old && !new
  | .rising => !old && new
  | .any => old != new

/-- The button is pressed: `btn_in = BTN_PRESSED_LEVEL` (10_state.md R25). -/
def State.pressed (s : State) : Bool := s.btnIn == s.params.btnPressedLevel

/-- `depth` (10_state.md R35). -/
def State.depth (s : State) : Nat := s.frames.length

/-- A frame on the off path after its `setLevel(0)` and before its `SleepCpu` has run (R38): its
remaining actions still hold SleepCpu and no longer SetLevel. -/
def Frame.inDimTransition (f : Frame) : Bool :=
  f.seq.contains .sleepCpu && !f.seq.contains (.setLevel 0)

/-- The derived power state (R38). -/
def State.powerState (s : State) : PowerState :=
  if s.asleep then .asleep
  else if s.frames.any Frame.inDimTransition then .dimTransition
  else if s.level = 255 then .bright
  else .dark

/-- The time RST has been low, by the RESET waits the trace (newest first) records since it was last
driven (20_memory.md R58, 70 R144, log 10). -/
def resetLowTime : List Event → Nat
  | [] => 0
  | .set .rst _ :: _ => 0
  | .wait .reset d :: es => d + resetLowTime es
  | .set .sclk _ :: es | .set .sdin _ :: es | .set .dc _ :: es | .set .led _ :: es
  | .wait .pulse _ :: es | .wait .dwell _ :: es | .wait .holdOn _ :: es | .wait .holdOff _ :: es
  | .cfg _ :: es | .cfgBtn :: es | .sleep :: es | .wake :: es => resetLowTime es

end Sys2Proof.Machine
end

