-- ==== Sys2Proof/Machine/Operands.lean ====
section
/-! DEFINITION. Machine/Operands.lean: the operand forms: wire bytes, glyph lookup, the size-2
transform, strides, the clamp. -/

namespace Sys2Proof.Machine

/-- SET_X's byte, `0x80 | column`, the column neither checked nor masked (30_encoding.md R65). -/
def setXByte (col : Byte) : Byte := 0x80 ||| col

/-- SET_Y's byte, `0x40 | (row mod 6)` (R65). -/
def setYByte (row : Byte) : Byte := 0x40 ||| (row % 6)

/-- Character substitution (43_text_renderer.md R92). -/
def subst (ch : Byte) : Byte := if 0x20 ≤ ch ∧ ch ≤ 0x7F then ch else 0x3F

theorem subst_bounds (ch : Byte) : 0x20 ≤ (subst ch).toNat ∧ (subst ch).toNat ≤ 0x7F := by
  unfold subst
  split
  · rename_i h
    simpa [BitVec.le_def] using h
  · decide

/-- The FONT address of glyph byte `j` of `ch`: `(subst(ch) - 0x20) × 5 + j` (20_memory.md R42,
R93). -/
def glyphAddr (ch : Byte) (j : Fin 5) : Fin 480 :=
  ⟨((subst ch).toNat - 0x20) * 5 + j, by have := subst_bounds ch; omega⟩

/-- `MemRead(FONT, a, 1)` of that address (R42, R93). -/
def glyphByte (p : Params) (ch : Byte) (j : Fin 5) : Byte := p.font.get (glyphAddr ch j)

/-- The five glyph bytes, leftmost column first (R42, R43). -/
def glyph (p : Params) (ch : Byte) : List Byte :=
  [glyphByte p ch 0, glyphByte p ch 1, glyphByte p ch 2, glyphByte p ch 3, glyphByte p ch 4]

/-- The size-2 transform: `out[k] = b[4 * r + (k >> 1)]` (R94). -/
def scale2 (b : Byte) (r : Nat) : Byte :=
  let out := fun k : Nat => b.getLsbD (4 * r + k >>> 1)
  BitVec.ofBoolListLE [out 0, out 1, out 2, out 3, out 4, out 5, out 6, out 7]

/-- The column stride of a character, `(GLYPH_W + 1) × size` (R96). -/
def stride (size : Byte) : Nat := (5 + 1) * size.toNat

/-- `SPACING_COPIES(size)` (R99). -/
def spacingCopies (p : Params) (size : Byte) : Nat :=
  if size = 2 then p.spacing2 else p.spacing1

/-- The bytes of repetition `r` of a character, before the column test: each glyph byte `size` times,
at size 2 through `scale2`, then the spacing bytes (R97, R99). -/
def bandBytes (p : Params) (ch size : Byte) (r : Nat) : List Byte :=
  (glyph p ch).flatMap (fun g =>
    List.replicate size.toNat (if size = 2 then scale2 g r else g)) ++
  List.replicate (spacingCopies p size) 0

/-- `setLevel`'s clamp to [0, 255] (44_brightness.md R102). -/
def clamp (value : I16) : Byte :=
  if value.toInt < 0 then 0
  else if 255 < value.toInt then 255
  else value.setWidth 8

end Sys2Proof.Machine
end

