-- ==== Sys2Proof/Machine/Ops.lean ====
section
/-! DEFINITION. Machine/Ops.lean: the named operations over memory, pins, trace and receiver, the
primitive actions of 00_scope.md R15, activation entry and return. -/

namespace Sys2Proof.Machine

/-- What an operation of the machine answers. -/
abbrev Result := Host.Outcome State Fault Refusal

/-! ### Display RAM -/

/-- The byte a cell is known to hold; `none` is unknown (20_memory.md R58). -/
def Memory.read (m : Memory) (a : Nat) : Option Byte :=
  match m with
  | [] => none
  | (b, v) :: rest => if a = b then some v else Memory.read rest a

/-- Write one cell, keeping the addresses rising. -/
def Memory.write (m : Memory) (a : Nat) (v : Byte) : Memory :=
  match m with
  | [] => [(a, v)]
  | (b, w) :: rest =>
    if a < b then (a, v) :: (b, w) :: rest
    else if a = b then (a, v) :: rest
    else (b, w) :: Memory.write rest a v

/-- The address of `rx_ram[y][x]` (R41). -/
def cellAddr (y : Fin 6) (x : Fin 84) : Nat := y.val * 84 + x.val

/-! ### Output pins and trace -/

/-- The fields of an output pin (10_state.md R22). -/
def Pins.get (ps : Pins) : OPin → PinState
  | .sclk => ps.sclk
  | .sdin => ps.sdin
  | .dc => ps.dc
  | .rst => ps.rst
  | .led => ps.led

/-- Replace the fields of one output pin. -/
def Pins.set (ps : Pins) (p : OPin) (v : PinState) : Pins :=
  match p with
  | .sclk => { ps with sclk := v }
  | .sdin => { ps with sdin := v }
  | .dc => { ps with dc := v }
  | .rst => { ps with rst := v }
  | .led => { ps with led := v }

/-- `out[p] <- v`. -/
def Pins.drive (ps : Pins) (p : OPin) (v : Bit) : Pins := ps.set p { ps.get p with out := v }

/-- `cfg[p] <- OUT`. -/
def Pins.configure (ps : Pins) (p : OPin) : Pins := ps.set p { ps.get p with mode := .out }

/-- Append an event to the trace (R37). -/
def State.emit (e : Event) (s : State) : State := { s with traceRev := e :: s.traceRev }

/-! ### The display receiver (20_memory.md section 5) -/

/-- The receiver's state becomes unknown: free register values, every cell unknown (R58, R61, R122,
log 4). -/
def Receiver.unknown (rx : Receiver) : Receiver :=
  { regs := Config.freeReceiver rx.draws, ram := [], draws := rx.draws + 1 }

/-- One column on, and whether it wrapped (R60). -/
def nextX (x : Fin 84) : Fin 84 := if h : x.val + 1 < 84 then ⟨x.val + 1, h⟩ else 0

/-- One row on (R60). -/
def nextY (y : Fin 6) : Fin 6 := if h : y.val + 1 < 6 then ⟨y.val + 1, h⟩ else 0

/-- The cursor after a data byte (R60): horizontal addressing, or vertical. -/
def advanceCursor (r : RxRegs) : RxRegs :=
  if r.vertical then
    if r.y.val + 1 = 6 then { r with y := 0, x := nextX r.x } else { r with y := nextY r.y }
  else
    if r.x.val + 1 = 84 then { r with x := 0, y := nextY r.y } else { r with x := nextX r.x }

/-- The receiver takes the data byte `b` (R60). -/
def Receiver.data (b : Byte) (rx : Receiver) : Receiver :=
  { rx with
    ram := rx.ram.write (cellAddr rx.regs.y rx.regs.x) b
    regs := advanceCursor rx.regs }

/-- The display mode of the bits D and E (R61). -/
def modeOfBits (d e : Bit) : RxMode :=
  match d, e with
  | false, false => .blank
  | false, true => .allOn
  | true, false => .normal
  | true, true => .inverse

/-- `rx_y <- YYY`; 6 and 7 are reserved (R61). -/
def Receiver.setY (v : BitVec 3) (rx : Receiver) : Receiver :=
  if h : v.toNat < 6 then { rx with regs := { rx.regs with y := ⟨v.toNat, h⟩ } } else rx.unknown

/-- `rx_x <- XXXXXXX`; 84 to 127 are reserved (R61). -/
def Receiver.setX (v : BitVec 7) (rx : Receiver) : Receiver :=
  if h : v.toNat < 84 then { rx with regs := { rx.regs with x := ⟨v.toNat, h⟩ } } else rx.unknown

/-- Commands of the normal instruction set, `rx_H = 0` (R61). -/
def Receiver.normalCommand (b : Byte) (rx : Receiver) : Receiver :=
  if b &&& 0xFA = 0x08 then
    { rx with regs := { rx.regs with mode := modeOfBits (b.getLsbD 2) (b.getLsbD 0) } }
  else if b.extractLsb' 3 5 = 0b01000#5 then rx.setY (b.setWidth 3)
  else if b.getLsbD 7 then rx.setX (b.setWidth 7)
  else rx.unknown

/-- Commands of the extended instruction set, `rx_H = 1` (R61). -/
def Receiver.extendedCommand (b : Byte) (rx : Receiver) : Receiver :=
  if b.extractLsb' 2 6 = 0b000001#6 then { rx with regs := { rx.regs with tc := b.setWidth 2 } }
  else if b.extractLsb' 3 5 = 0b00010#5 then
    { rx with regs := { rx.regs with bias := b.setWidth 3 } }
  else if b.getLsbD 7 then { rx with regs := { rx.regs with vop := b.setWidth 7 } }
  else rx.unknown

/-- The receiver takes the command byte `b` (R61). -/
def Receiver.command (b : Byte) (rx : Receiver) : Receiver :=
  if b = 0x00 then rx
  else if b.extractLsb' 3 5 = 0b00100#5 then
    { rx with
      regs := { rx.regs with
        powerDown := b.getLsbD 2, vertical := b.getLsbD 1, extended := b.getLsbD 0 } }
  else if rx.regs.extended then rx.extendedCommand b
  else rx.normalCommand b

/-- The receiver takes a whole byte as a command or as data (R59). -/
def Receiver.take (isCommand : Bool) (b : Byte) (rx : Receiver) : Receiver :=
  if isCommand then rx.command b else rx.data b

/-- One sampled bit: shift it in; the eighth completes a byte (R59). -/
def Receiver.sample (isCommand : Bool) (bit : Bit) (rx : Receiver) : Receiver :=
  let b : Byte := rx.regs.shift.extractLsb' 0 7 ++ BitVec.ofBool bit
  if h : rx.regs.count.val + 1 < 8 then
    { rx with regs := { rx.regs with shift := b, count := ⟨rx.regs.count.val + 1, h⟩ } }
  else
    Receiver.take isCommand b { rx with regs := { rx.regs with shift := b, count := 0 } }

/-- Whether the select line marks a command: `out[DC] = DC_CMD_LEVEL` (R59, R64). -/
def State.selectsCommand (s : State) : Bool := s.pins.dc.out == s.params.dcCmdLevel

/-- What a pin write does to the receiver (R49, R58, R59): a rising SCLK edge with RST high samples
SDIN; RST going low resets it, RST going high too early leaves it unknown. -/
def State.rxAfterWrite (p : OPin) (v : Bit) (s : State) : Receiver :=
  match p with
  | .sclk =>
    if v && !s.pins.sclk.out && s.pins.rst.out then
      s.rx.sample s.selectsCommand s.pins.sdin.out
    else s.rx
  | .rst =>
    if v == s.pins.rst.out then s.rx
    else if v then
      if resetLowTime s.traceRev < s.params.tRstMin then s.rx.unknown else s.rx
    else { s.rx with regs := heldRegs s.rx.regs }
  | .sdin | .dc | .led => s.rx

/-! ### Primitive actions (00_scope.md R15) -/

/-- A pin write that is allowed: level, event, and what the receiver sees. -/
def State.drive (p : OPin) (v : Bit) (s : State) : State :=
  { s with
    pins := s.pins.drive p v
    traceRev := .set p v :: s.traceRev
    rx := s.rxAfterWrite p v }

/-- `PinWrite(p, v)` as part of the action `a`; an unconfigured pin faults (10_state.md R24). -/
def pinWrite (p : OPin) (v : Bit) (a : Action) (s : State) : Result :=
  if (s.pins.get p).mode = .out then .next (s.drive p v) else .fault (.pinUnconf p a)

/-- `PinCfg(p, OUT)`. -/
def pinConfigure (p : OPin) (s : State) : State :=
  { s with pins := s.pins.configure p, traceRev := .cfg p :: s.traceRev }

/-- `PinCfg(BTN, IN_PULLUP)`, which loads `btn_prev` (R25). -/
def buttonConfigure (s : State) : State :=
  { s with btnMode := .inPullup, btnPrev := s.btnIn, traceRev := .cfgBtn :: s.traceRev }

/-- `SetLevel(value)`, one action: the level, and at 0 the LED forced low (44_brightness.md R103). -/
def setLevelNow (value : I16) (s : State) : Result :=
  if clamp value = 0 then
    pinWrite .led false (.setLevel value) { s with level := 0 }
  else .next { s with level := clamp value }

/-- `SleepCpu`, one action (45_power_interrupt.md R113). -/
def sleepNow (s : State) : Result :=
  if s.se then
    if s.sleepMode = .powerDown then
      .next { s with ie := true, asleep := true, traceRev := .sleep :: s.traceRev }
    else .fault (.sleepMode s.sleepMode)
  else .next { s with ie := true }

/-- `Ret`: pop the head frame and set `ie` (60_exceptions.md R127). -/
def returnFromActivation (s : State) : State :=
  { s with frames := s.frames.tail, ie := true }

/-- One action of the running context (R15). -/
def perform (a : Action) (s : State) : Result :=
  match a with
  | .pinCfg p => .next (pinConfigure p s)
  | .btnCfg => .next (buttonConfigure s)
  | .pinWrite p v => pinWrite p v (.pinWrite p v) s
  | .delay k d => .next (s.emit (.wait k d))
  | .ieWrite b => .next { s with ie := b }
  | .smWrite m => .next { s with sleepMode := m }
  | .seWrite b => .next { s with se := b }
  | .sleepCpu => sleepNow s
  | .levelWrite v => .next { s with level := v }
  | .dispWrite d => .next { s with dispState := d }
  | .pcieWrite b => .next { s with pcintEn := b }
  | .setLevel value => setLevelNow value s
  | .ret => .next (returnFromActivation s)

/-! ### The handler, its entry and the delivery of an edge -/

/-- The sleep sequence's actions (45_power_interrupt.md R112). -/
def sleepActions : List Action :=
  [.ieWrite false, .smWrite .powerDown, .seWrite true, .sleepCpu, .seWrite false, .ieWrite false]

/-- The on path (R110). -/
def onPath (p : Params) : List Action :=
  [.setLevel 255, .ieWrite false, .delay .holdOn p.tHoldOn, .ret]

/-- The off path (R111), the sleep sequence expanded in place. -/
def offPath (p : Params) : List Action :=
  [.setLevel 0, .ieWrite false, .delay .holdOff p.tHoldOff, .ieWrite true] ++ sleepActions ++
  [.ret]

/-- The button handler's actions, by the level it reads when it starts (R109). -/
def handlerActions (p : Params) (level : Byte) : List Action :=
  if level < 255 then onPath p else offPath p

/-- The wake that comes first when the device sleeps (R114 step 1, 60_exceptions.md R125). -/
def State.woken (s : State) : State :=
  if s.asleep then { s with asleep := false, traceRev := .wake :: s.traceRev } else s

/-- Activation entry, the one exception entry of the block (60_exceptions.md R125). -/
def enterActivation (s : State) : Result :=
  let w := s.woken
  if w.params.nestLimit < w.depth + 1 then .fault (.nestLimit w.depth w)
  else
    .next { w with
      ie := false
      pending := false
      frames := ⟨handlerActions w.params w.level⟩ :: w.frames }

/-- Delivery of a qualifying edge (45_power_interrupt.md R108, 60_exceptions.md R126). -/
def deliverEdge (s : State) : Result :=
  if !s.pcintEn then .next s
  else if s.ie then enterActivation s
  else if s.params.edgeLatch then .next { s with pending := true }
  else .next s

/-- The edge detector's fields after the environment drives BTN to `b` (R107). -/
def buttonLevel (b : Bit) (s : State) : State :=
  if s.btnMode = .inPullup then { s with btnIn := b, btnPrev := b } else { s with btnIn := b }

/-- Whether driving BTN to `b` is a qualifying edge now (R107). -/
def buttonQualifies (b : Bit) (s : State) : Bool :=
  decide (s.btnMode = .inPullup) && edgeQualifies s.params.edgeQualifier s.btnPrev b

/-! ### Starting an operation -/

/-- The main context starts an operation: its actions come before any it has left (10_state.md R34,
log 16). -/
def startMain (acts : List Action) (s : State) : State := { s with mainSeq := acts ++ s.mainSeq }

/-- A display request starts: it needs `disp_state` READY (30_encoding.md R72). -/
def startDisplay (request : Instr) (acts : List Action) (s : State) : Result :=
  if s.dispState = .ready then .next (startMain acts s) else .fault (.notReady request)

/-- The running context calls a routine: its actions expand in place, before the context's own
(00_scope.md R15, 10_state.md R36, log 17). -/
def callInPlace (acts : List Action) (s : State) : State :=
  match s.frames with
  | f :: below => { s with frames := ⟨acts ++ f.seq⟩ :: below }
  | [] => startMain acts s

/-- A wire word reaches the receiver; while RST is low it is held in reset and takes nothing
(20_memory.md R58, R59, log 15). -/
def receiveWord (isCommand : Bool) (b : Byte) (s : State) : State :=
  if s.pins.rst.out then { s with rx := s.rx.take isCommand b } else s

end Sys2Proof.Machine
end

