-- ==== Sys2Proof/Machine/Brightness.lean ====
section
/-! DEFINITION. Machine/Brightness.lean: the brightness state machine (44_brightness.md) and the
free-running loop (70_reset_and_hazards.md R140): SETLVL, TICK, LOOP. -/

namespace Sys2Proof.Machine

/-- `tick()` at the level read when it starts (R104). -/
def tickActions (p : Params) (level : Byte) : List Action :=
  if level = 0 then []
  else
    [.pinWrite .led true, .delay .pulse p.tPulse, .pinWrite .led false,
     .delay .dwell ((255 - level.toNat) * p.tUnit)]

/-- SETLVL: one action (R103). -/
def execSetlvl (value : I16) (s : State) : Result := .next (startMain [.setLevel value] s)

/-- TICK (R104). -/
def execTick (s : State) : Result := .next (startMain (tickActions s.params s.level) s)

/-- LOOP: one tick, then LOOP again, for ever (R140). -/
def execLoop (s : State) : Result :=
  .next (startMain (tickActions s.params s.level) { s with mainJobs := .op .loop :: s.mainJobs })

end Sys2Proof.Machine
end

