-- ==== Sys2Proof/Machine/Transmit.lean ====
section
/-! DEFINITION. Machine/Transmit.lean: the serial bit transmitter (40_serial_transmitter.md): TXB. -/

namespace Sys2Proof.Machine

/-- One bit: data, clock high, clock low (R76). -/
def bitActions (b : Bit) : List Action :=
  [.pinWrite .sdin b, .pinWrite .sclk true, .pinWrite .sclk false]

/-- The bits of a byte, bit 7 first (R45, R76). -/
def msbFirst (v : Byte) : List Bit :=
  [v.getLsbD 7, v.getLsbD 6, v.getLsbD 5, v.getLsbD 4, v.getLsbD 3, v.getLsbD 2, v.getLsbD 1,
   v.getLsbD 0]

/-- `transmitByte(value)`, 24 actions (R76). -/
def transmitByte (v : Byte) : List Action := (msbFirst v).flatMap bitActions

/-- TXB (R76). -/
def execTxb (v : Byte) (s : State) : Result := startDisplay (.txb v) (transmitByte v) s

end Sys2Proof.Machine
end

