-- ==== Sys2Proof/Machine/Channel.lean ====
section
/-! DEFINITION. Machine/Channel.lean: the display command/data channel (41_display_channel.md): CMD,
DAT, SETCUR, CLRALL, CLRROW. -/

namespace Sys2Proof.Machine

/-- `sendCommand(byte)` (R81). -/
def sendCommand (p : Params) (b : Byte) : List Action :=
  .pinWrite .dc p.dcCmdLevel :: transmitByte b

/-- `sendData(byte)` (R82). -/
def sendData (p : Params) (b : Byte) : List Action :=
  .pinWrite .dc (!p.dcCmdLevel) :: transmitByte b

/-- `setCursor(row, column)`: column first, then row mod 6 (R83). -/
def setCursor (p : Params) (row col : Byte) : List Action :=
  sendCommand p (setXByte col) ++ sendCommand p (setYByte row)

/-- `n` zero data bytes. -/
def zeroData (p : Params) (n : Nat) : List Action :=
  (List.replicate n (0 : Byte)).flatMap (sendData p)

/-- `clearAll()`: 84 × 6 zero bytes after the cursor (0, 0) (R84). -/
def clearAll (p : Params) : List Action := setCursor p 0 0 ++ zeroData p (84 * 6)

/-- `clearRow(row)`: 84 zero bytes (R85). -/
def clearRow (p : Params) (row : Byte) : List Action := setCursor p row 0 ++ zeroData p 84

/-- CMD (R81). -/
def execCmd (b : Byte) (s : State) : Result := startDisplay (.cmd b) (sendCommand s.params b) s

/-- DAT (R82). -/
def execDat (b : Byte) (s : State) : Result := startDisplay (.dat b) (sendData s.params b) s

/-- SETCUR (R83). -/
def execSetcur (row col : Byte) (s : State) : Result :=
  startDisplay (.setcur row col) (setCursor s.params row col) s

/-- CLRALL (R84). -/
def execClrall (s : State) : Result := startDisplay .clrall (clearAll s.params) s

/-- CLRROW (R85). -/
def execClrrow (row : Byte) (s : State) : Result :=
  startDisplay (.clrrow row) (clearRow s.params row) s

end Sys2Proof.Machine
end

