-- ==== Sys2Proof/Machine/Init.lean ====
section
/-! DEFINITION. Machine/Init.lean: display controller initialisation (42_display_init.md): INIT. -/

namespace Sys2Proof.Machine

/-- The four control lines (R88). -/
def controlLines : List OPin := [.sclk, .sdin, .dc, .rst]

/-- An order of step 1's eight actions in which each line's configuration comes before its write
(R88). -/
def initOrderOk (order : List LineSetup) : Bool :=
  order.length == 8 &&
  controlLines.all fun p =>
    order.contains (.config p) && order.contains (.driveLow p) &&
    Nat.blt (order.idxOf (.config p)) (order.idxOf (.driveLow p))

/-- The configured order where R88 admits it, else the canonical one (log 20). -/
def initOrderOf (p : Params) : List LineSetup :=
  if initOrderOk p.initOrder then p.initOrder else Config.canonicalInitOrder

/-- The action of one entry of step 1. -/
def lineSetupAction : LineSetup → Action
  | .config p => .pinCfg p
  | .driveLow p => .pinWrite p false

/-- Step 1 (R88). -/
def initPins (p : Params) : List Action :=
  (initOrderOf p).map lineSetupAction ++ [.dispWrite .pinsConfigured]

/-- Step 2 (R89). -/
def initReset (p : Params) : List Action :=
  [.pinWrite .rst false, .delay .reset p.tRst, .pinWrite .rst true, .dispWrite .reset]

/-- The command bytes of step 3 (R90). -/
def initCommands (p : Params) : List Byte := [0x21] ++ p.contrastBias ++ [0x20, 0x0C]

/-- Step 3 (R90). -/
def initDisplay (p : Params) : List Action :=
  (initCommands p).flatMap (sendCommand p) ++ [.dispWrite .ready]

/-- `init()` (R87). -/
def initActions (p : Params) : List Action := initPins p ++ initReset p ++ initDisplay p

/-- INIT: allowed only before the first `init` (R87). -/
def execInit (s : State) : Result :=
  if s.dispState = .uninit then .next (startMain (initActions s.params) s)
  else .fault (.reinit .init)

end Sys2Proof.Machine
end

