-- ==== Sys2Proof/Machine/Power.lean ====
section
/-! DEFINITION. Machine/Power.lean: the edge event and the sleep sequence (45_power_interrupt.md):
EV_EDGE, SLEEPSEQ. -/

namespace Sys2Proof.Machine

/-- EV_EDGE: a qualifying edge is delivered; with `pcint_en` and `ie` it starts the handler (R108,
R109, 60_exceptions.md R125). -/
def execEvEdge (s : State) : Result := deliverEdge s

/-- SLEEPSEQ: the running context calls the sleep sequence (R112). -/
def execSleepseq (s : State) : Result := .next (callInPlace sleepActions s)

/-- The environment drives BTN; a qualifying edge is the event EV_EDGE (45_power_interrupt.md
R107–R109). -/
def buttonTurn (b : Bit) (s : State) : Result :=
  if buttonQualifies b s then execEvEdge (buttonLevel b s) else .next (buttonLevel b s)

end Sys2Proof.Machine
end

