-- ==== Sys2Proof/Machine/Reserved.lean ====
section
/-! DEFINITION. Machine/Reserved.lean: the reserved request opcodes, refused with REFUSE_OPCODE
(30_encoding.md R70, R71). -/

namespace Sys2Proof.Machine

/-- A refused request performs no action (R70, 60_exceptions.md R121). -/
def refuseReserved (i : Instr) (s : State) : Result := .refused (.opcode (reservedByte i) s)

/-- RESERVED_00. -/
def execReserved00 (s : State) : Result := refuseReserved .reserved00 s

/-- RESERVED_0D_0D. -/
def execReserved0D (s : State) : Result := refuseReserved .reserved0D s

/-- RESERVED_0E_0F. -/
def execReserved0E0F (low : BitVec 1) (s : State) : Result := refuseReserved (.reserved0E0F low) s

/-- RESERVED_10_1F. -/
def execReserved101F (low : BitVec 4) (s : State) : Result := refuseReserved (.reserved101F low) s

/-- RESERVED_20_3F. -/
def execReserved203F (low : BitVec 5) (s : State) : Result := refuseReserved (.reserved203F low) s

/-- RESERVED_40_7F. -/
def execReserved407F (low : BitVec 6) (s : State) : Result := refuseReserved (.reserved407F low) s

/-- RESERVED_80_FF. -/
def execReserved80FF (low : BitVec 7) (s : State) : Result := refuseReserved (.reserved80FF low) s

end Sys2Proof.Machine
end

