-- ==== Sys2Proof/Machine/Text.lean ====
section
/-! DEFINITION. Machine/Text.lean: the text renderer (43_text_renderer.md): CHAR, STR. -/

namespace Sys2Proof.Machine

/-- Emit bytes from column `x` on: each is sent only if its column is below 84, and the column
tracker advances either way (R97, R98). -/
def emitColumns (p : Params) (x : Nat) : List Byte → List Action
  | [] => []
  | b :: bs => (if x < 84 then sendData p b else []) ++ emitColumns p (x + 1) bs

/-- Repetition `r` of a character: cursor, then its columns (R97). -/
def renderBand (p : Params) (row col ch size : Byte) (r : Nat) : List Action :=
  setCursor p (row + BitVec.ofNat 8 r) col ++ emitColumns p col.toNat (bandBytes p ch size r)

/-- `renderChar(row, column, character, size)` (R97). -/
def renderChar (p : Params) (row col ch size : Byte) : List Action :=
  if 6 ≤ row.toNat ∨ 84 ≤ col.toNat then []
  else (List.range size.toNat).flatMap (renderBand p row col ch size)

/-- `renderString` from column `x` and index `i` on: the column test, then the read, then the
character (R100); a read past the end of the text is `.error` with its index (R44). -/
def renderText (p : Params) (row size : Byte) (x i : Nat) : List Byte → Except Nat (List Action)
  | [] => if 84 ≤ x then .ok [] else .error i
  | ch :: rest =>
    if 84 ≤ x then .ok []
    else if ch = 0 then .ok []
    else
      match renderText p row size (x + stride size) (i + 1) rest with
      | .ok acts => .ok (renderChar p row (BitVec.ofNat 8 x) ch size ++ acts)
      | .error e => .error e

/-- CHAR (R97); a size other than 1 and 2 is refused first (R95, R121, R130). -/
def execChar (row col ch size : Byte) (s : State) : Result :=
  if sizeOk size then
    startDisplay (.char row col ch size) (renderChar s.params row col ch size) s
  else .refused (.size size s)

/-- STR (R100); a size other than 1 and 2 is refused first (R95, R121, R130). A text that is read
past its end faults when the request starts, after the READY check (R34, R44, log 9). -/
def execStr (row col size : Byte) (text : List Byte) (s : State) : Result :=
  if sizeOk size then
    match renderText s.params row size col.toNat 0 text with
    | .ok acts => startDisplay (.str row col size text) acts s
    | .error i =>
      if s.dispState = .ready then .fault (.textBounds i)
      else .fault (.notReady (.str row col size text))
  else .refused (.size size s)

end Sys2Proof.Machine
end

