-- ==== Sys2Proof/Machine/Wire.lean ====
section
/-! DEFINITION. Machine/Wire.lean: the wire words (30_encoding.md R64), with the effect the display
receiver gives each (20_memory.md R60, R61, log 15): SET_X, SET_Y, FSET_EXT, FSET_NORM,
DISP_NORMAL, CONTRAST_BIAS, DATA. -/

namespace Sys2Proof.Machine

/-- SET_X: the command byte `0x80 | x`. -/
def execSetX (x : BitVec 7) (s : State) : Result :=
  .next (receiveWord true (0x80 ||| x.setWidth 8) s)

/-- SET_Y: the command byte `0x40 | y`. -/
def execSetY (y : BitVec 3) (s : State) : Result :=
  .next (receiveWord true (0x40 ||| y.setWidth 8) s)

/-- FSET_EXT: the command byte 0x21. -/
def execFsetExt (s : State) : Result := .next (receiveWord true 0x21 s)

/-- FSET_NORM: the command byte 0x20. -/
def execFsetNorm (s : State) : Result := .next (receiveWord true 0x20 s)

/-- DISP_NORMAL: the command byte 0x0C. -/
def execDispNormal (s : State) : Result := .next (receiveWord true 0x0C s)

/-- CONTRAST_BIAS: a command byte of `INIT_CONTRAST_BIAS`. -/
def execContrastBias (b : Byte) (s : State) : Result := .next (receiveWord true b s)

/-- DATA: a pixel column byte. -/
def execData (p : Byte) (s : State) : Result := .next (receiveWord false p s)

end Sys2Proof.Machine
end

