-- ==== Sys2Proof/Machine/Dispatch.lean ====
section
/-! DEFINITION. Machine/Dispatch.lean: one arm per instruction. -/

namespace Sys2Proof.Machine

def exec (i : Instr) (s : State) : Host.Outcome State Fault Refusal :=
  match i with
  | .txb v => Sys2Proof.Machine.execTxb v s
  | .cmd b => Sys2Proof.Machine.execCmd b s
  | .dat b => Sys2Proof.Machine.execDat b s
  | .setcur row col => Sys2Proof.Machine.execSetcur row col s
  | .clrall => Sys2Proof.Machine.execClrall s
  | .clrrow row => Sys2Proof.Machine.execClrrow row s
  | .init => Sys2Proof.Machine.execInit s
  | .char row col ch size => Sys2Proof.Machine.execChar row col ch size s
  | .str row col size text => Sys2Proof.Machine.execStr row col size text s
  | .setlvl value => Sys2Proof.Machine.execSetlvl value s
  | .tick => Sys2Proof.Machine.execTick s
  | .loop => Sys2Proof.Machine.execLoop s
  | .reserved00 => Sys2Proof.Machine.execReserved00 s
  | .reserved0D => Sys2Proof.Machine.execReserved0D s
  | .reserved0E0F low => Sys2Proof.Machine.execReserved0E0F low s
  | .reserved101F low => Sys2Proof.Machine.execReserved101F low s
  | .reserved203F low => Sys2Proof.Machine.execReserved203F low s
  | .reserved407F low => Sys2Proof.Machine.execReserved407F low s
  | .reserved80FF low => Sys2Proof.Machine.execReserved80FF low s
  | .setX x => Sys2Proof.Machine.execSetX x s
  | .setY y => Sys2Proof.Machine.execSetY y s
  | .fsetExt => Sys2Proof.Machine.execFsetExt s
  | .fsetNorm => Sys2Proof.Machine.execFsetNorm s
  | .dispNormal => Sys2Proof.Machine.execDispNormal s
  | .contrastBias b => Sys2Proof.Machine.execContrastBias b s
  | .data p => Sys2Proof.Machine.execData p s
  | .evEdge => Sys2Proof.Machine.execEvEdge s
  | .sleepseq => Sys2Proof.Machine.execSleepseq s

end Sys2Proof.Machine
end

