-- ==== Sys2Proof/Machine/Fetch.lean ====
section
/-! DEFINITION. Machine/Fetch.lean: what moves next, and how a program or a wire word is placed. -/

namespace Sys2Proof.Machine

/-- The next move of the machine, with the state it acts on. -/
inductive Move where
  /-- A latched edge starts its activation (60_exceptions.md R126). -/
  | activate (s : State)
  /-- The environment drives BTN (45_power_interrupt.md R107). -/
  | button (b : Bit) (s : State)
  /-- The running context performs an action (10_state.md R34, R36). -/
  | act (a : Action) (s : State)
  /-- The main context starts an operation (R34). -/
  | op (i : Instr) (s : State)
  /-- The decoder refuses the request bytes (30_encoding.md R70). -/
  | refuse (r : Refusal)
  /-- No context has anything to run: asleep, at the end of the run, or an exhausted frame (R30,
  70_reset_and_hazards.md R141, log 12). -/
  | rest (s : State)
  deriving DecidableEq, Repr

/-- The decoder's refusal as the machine's, with the state it leaves (R70, R121). -/
def refusalOf (r : Reject) (left : State) : Refusal :=
  match r with
  | .opcode b => .opcode b left
  | .truncated => .truncated left
  | .size v => .size v left

/-- The main context decodes its next request (R66, R70); with no byte left the program has ended
(70_reset_and_hazards.md R141), so the decoder is not asked (log 27). -/
def requestMove (s : State) : Move :=
  match s.requests with
  | [] => .rest s
  | b :: bs =>
    match decode (b :: bs) with
    | .ok i rest => .op i { s with requests := rest }
    | .refuse r rest => .refuse (refusalOf r { s with requests := rest })

/-- The main context: its actions first, then the boot list, then the requests (R34, R139). -/
def mainMove (s : State) : Move :=
  match s.mainSeq with
  | a :: more => .act a { s with mainSeq := more }
  | [] =>
    match s.mainJobs with
    | .act a :: more => .act a { s with mainJobs := more }
    | .op i :: more => .op i { s with mainJobs := more }
    | [] => requestMove s

/-- The running context (R36): none asleep, else the head frame, else the main context. -/
def contextMove (s : State) : Move :=
  if s.asleep then .rest s
  else
    match s.frames with
    | ⟨a :: more⟩ :: below => .act a { s with frames := ⟨more⟩ :: below }
    | ⟨[]⟩ :: _ => .rest s
    | [] => mainMove s

/-- What moves next: a latched edge that can be taken, else the schedule's turn, else the device
(log 1, log 18). -/
def nextMove (s : State) : Move :=
  if s.pending && s.ie then .activate s
  else
    match s.sched with
    | [] => contextMove s
    | .device :: more => contextMove { s with sched := more }
    | .button b :: more => .button b { s with sched := more }

/-! ### Placing what the next step runs (log 22) -/

/-- No other move comes before the main context's, and no sequence before its requests. -/
def State.quiet (s : State) : State :=
  { s with
    pending := false, sched := [], asleep := false, frames := [], mainSeq := [], mainJobs := [] }

/-- The main context's next request is these bytes (70_reset_and_hazards.md R142). -/
def placeRequest (bytes : List Byte) (s : State) : State := { s.quiet with requests := bytes }

/-- The wire word `{d, b}` is on the pins and in the receiver's shift register, all but the rising
clock edge of its last bit, which is the main context's next action (20_memory.md R59). -/
def placeWireWord (d : Bit) (b : Byte) (s : State) : State :=
  { s.quiet with
    mainSeq := [.pinWrite .sclk true]
    pins := { s.pins with
      sclk := ⟨.out, false⟩, sdin := ⟨.out, b.getLsbD 0⟩, rst := ⟨.out, true⟩,
      dc := ⟨.out, if d then !s.params.dcCmdLevel else s.params.dcCmdLevel⟩ }
    rx := { s.rx with regs := { s.rx.regs with shift := b >>> 1, count := 7 } } }

/-- Place the instruction that a word of the opcode table stands for (log 22). -/
def placeTableWord (nbits w : Nat) (s : State) : State :=
  if isWireTableWord nbits then
    placeWireWord (w.testBit 8) (BitVec.ofNat 8 w) s
  else placeRequest (requestOfTableWord nbits w) s

end Sys2Proof.Machine
end

