-- ==== Sys2Proof/Machine/Step.lean ====
section
/-! DEFINITION. Machine/Step.lean: one step of the machine: one move (10_state.md R34, R36). -/

namespace Sys2Proof.Machine

/-- One step. -/
def step (s : State) : Host.Outcome State Fault Refusal :=
  match nextMove s with
  | .activate s' => enterActivation s'
  | .button b s' => buttonTurn b s'
  | .act a s' => perform a s'
  | .op i s' => exec i s'
  | .refuse r => .refused r
  | .rest s' => .next s'

/-- `s` with the table's word placed where the next step fetches (log 22). -/
def State.withFetchWord (s : State) (nbits w : Nat) : State := placeTableWord nbits w s

end Sys2Proof.Machine
end

