-- ==== Sys2Proof/Machine/Projection.lean ====
section
/-! DEFINITION. Machine/Projection.lean: how a trace and a state are observed: wire words as pin
events (30_encoding.md R63), the wire projection (40_serial_transmitter.md R78), the displayed
pixel (20_memory.md R62). -/

namespace Sys2Proof.Machine

/-- A wire word `{d, b}`: the level of DC and the byte (R64). -/
abbrev WireWord := Bit × Byte

/-- The 24 events of one transmitted byte (R76). -/
def byteEvents (b : Byte) : List Event :=
  (msbFirst b).flatMap fun v => [.set .sdin v, .set .sclk true, .set .sclk false]

/-- The 25 events of one wire word (R63). -/
def wordEvents (w : WireWord) : List Event := .set .dc w.1 :: byteEvents w.2

/-- The levels (SDIN, DC) at each rising SCLK edge of a trace, from the levels before it (R78). -/
def samples (sclk sdin dc : Bit) : List Event → List (Bit × Bit)
  | [] => []
  | .set .sclk v :: es =>
    if v && !sclk then (sdin, dc) :: samples v sdin dc es else samples v sdin dc es
  | .set .sdin v :: es => samples sclk v dc es
  | .set .dc v :: es => samples sclk sdin v es
  | .set .rst _ :: es | .set .led _ :: es | .cfg _ :: es | .cfgBtn :: es | .wait _ _ :: es
  | .sleep :: es | .wake :: es => samples sclk sdin dc es

/-- Eight bits, the first the most significant. -/
def byteOfBits (b7 b6 b5 b4 b3 b2 b1 b0 : Bit) : Byte :=
  BitVec.ofBoolListBE [b7, b6, b5, b4, b3, b2, b1, b0]

/-- Samples grouped in eights: each byte with DC at its 8th edge (R78). -/
def groupWords : List (Bit × Bit) → List WireWord
  | (b7, _) :: (b6, _) :: (b5, _) :: (b4, _) :: (b3, _) :: (b2, _) :: (b1, _) :: (b0, d) :: rest =>
    (d, byteOfBits b7 b6 b5 b4 b3 b2 b1 b0) :: groupWords rest
  | _ => []

/-- The wire projection of a trace that starts with SCLK low (R75, R78). -/
def wireWords (sdin dc : Bit) (es : List Event) : List WireWord :=
  groupWords (samples false sdin dc es)

/-- The receiver clocks in one byte, bit 7 first, under one select level (20_memory.md R59). -/
def Receiver.receiveByte (isCommand : Bool) (b : Byte) (rx : Receiver) : Receiver :=
  (msbFirst b).foldl (fun r bit => r.sample isCommand bit) rx

/-- What pixel `(px, py)` shows: lit, unlit, or unknown (20_memory.md R62). -/
def State.pixel (s : State) (px : Fin 84) (py : Fin 48) : Option Bit :=
  let stored :=
    (s.rx.ram.read (py.val / 8 * 84 + px.val)).map fun b => b.getLsbD (py.val % 8)
  match s.rx.regs.mode with
  | .blank => some false
  | .allOn => some true
  | .normal => stored
  | .inverse => stored.map not

end Sys2Proof.Machine
end

