-- ==== Sys2Proof/Machine/Start.lean ====
section
/-! DEFINITION. Machine/Start.lean: the two start states of request programs
(70_reset_and_hazards.md R142). -/

namespace Sys2Proof.Machine

/-- `S_RESET`: the reset state, with the program in place of the boot list (R142). -/
def sReset (p : Params) (program : List Byte) : State :=
  { State.reset with params := p, mainJobs := [], requests := program }

/-- Power-on with the boot list, for a given configuration (R138, R139). -/
def powerOn (p : Params) : State := { State.reset with params := p, mainJobs := bootList p }

/-- The receiver at power-on (20_memory.md R58). -/
def powerOnReceiver : Receiver := { regs := powerOnRegs, ram := [], draws := 0 }

/-- The receiver after init: the reset pulse, then the command bytes of step 3
(42_display_init.md R89, R90, 70 R144). -/
def initReceiver (p : Params) (rx : Receiver) : Receiver :=
  (initCommands p).foldl (fun r b => r.receiveByte true b)
    (if p.tRst < p.tRstMin then rx.unknown else rx)

/-- `S_BOOTED`: after boot steps 1 to 6 with no startup request, the program in place of step 7 and
the trace counted from it (R142). -/
def sBooted (p : Params) (program : List Byte) : State :=
  { State.reset with
    params := p
    pins :=
      { sclk := ⟨.out, false⟩, sdin := ⟨.out, false⟩, dc := ⟨.out, p.dcCmdLevel⟩,
        rst := ⟨.out, true⟩, led := ⟨.out, false⟩ }
    btnMode := .inPullup
    ie := true
    pcintEn := true
    dispState := .ready
    mainJobs := []
    requests := program
    rx := initReceiver p powerOnReceiver }

end Sys2Proof.Machine
end

