-- ==== Sys2Proof/Safety.lean ====
section
/-! DEFINITION. Safety.lean: the terms the claims are stated in: runs, the normal end of a run, the
state an operation is started from, the results of transmissions, the invariant of the machine. -/

namespace Sys2Proof.Machine

/-- `n` steps of the machine, stopping at a fault or a refusal. -/
def runs (n : Nat) (s : State) : Host.Outcome State Fault Refusal := Host.Core.run Sys2Proof.core n s

/-- The run of a request program has ended normally (70_reset_and_hazards.md R141). A run that stopped
with a fault or a refusal has not: the outcome itself is their mark, and the state a refusal keeps
is not a state of the run. -/
def State.normalEnd (s : State) : Bool :=
  s.requests.isEmpty && s.mainJobs.isEmpty && s.mainSeq.isEmpty && s.frames.isEmpty && !s.asleep

/-- The device runs with no edge in sight: no turn is scheduled, no latched edge can start, and it
is awake. -/
structure State.Undisturbed (s : State) : Prop where
  noTurn : s.sched = []
  noLatched : (s.pending && s.ie) = false
  awake : s.asleep = false

/-- The main context runs undisturbed and has no action left of an operation: where a request
starts (30_encoding.md R66). -/
structure State.AtRequest (s : State) : Prop extends s.Undisturbed where
  noFrame : s.frames = []
  noAction : s.mainSeq = []

/-- The bus as `init` leaves it: the display READY, its lines outputs, the clock at its idle level
(40_serial_transmitter.md R75). -/
structure State.BusReady (s : State) : Prop where
  ready : s.dispState = .ready
  sclk : s.pins.sclk = ⟨.out, false⟩
  sdin : s.pins.sdin.mode = .out
  dc : s.pins.dc.mode = .out

/-- The state after the 24 actions of one byte: the two bus pins, the 24 events, and the receiver's
eight samples unless RST holds it (R76, 20_memory.md R59). Everything else is as before. -/
def State.afterByte (b : Byte) (s : State) : State :=
  { s with
    pins := { s.pins with
      sclk := { s.pins.sclk with out := false }
      sdin := { s.pins.sdin with out := b.getLsbD 0 } }
    traceRev := (byteEvents b).reverse ++ s.traceRev
    rx := if s.pins.rst.out then s.rx.receiveByte s.selectsCommand b else s.rx }

/-- The state after DC is driven to `d`. -/
def State.afterSelect (d : Bit) (s : State) : State :=
  { s with
    pins := { s.pins with dc := { s.pins.dc with out := d } }
    traceRev := .set .dc d :: s.traceRev }

/-- The state after one wire word (R63, R81, R82). -/
def State.afterWord (s : State) (w : WireWord) : State := (s.afterSelect w.1).afterByte w.2

/-- The state after wire words in turn. -/
def State.afterWords (ws : List WireWord) (s : State) : State := ws.foldl State.afterWord s

/-- A command byte and a data byte as wire words (R64, R80). -/
def commandWord (p : Params) (b : Byte) : WireWord := (p.dcCmdLevel, b)
def dataWord (p : Params) (b : Byte) : WireWord := (!p.dcCmdLevel, b)

/-- The two words of a cursor set: `0x80 | column`, then `0x40 | (row mod 6)` (R83). -/
def cursorWords (p : Params) (row col : Byte) : List WireWord :=
  [commandWord p (0x80 ||| col), commandWord p (0x40 ||| BitVec.ofNat 8 (row.toNat % 6))]

/-- The words of one band of a character: its cursor, then the bytes whose column is below 84
(R97). -/
def bandWords (p : Params) (row col : Byte) (bytes : List Byte) : List WireWord :=
  cursorWords p row col ++ (bytes.take (84 - col.toNat)).map (dataWord p)

/-- The bytes of a band: at size 1 the glyph and one spacing column group, at size 2 each transformed
byte twice and the spacing (R97, R99). -/
def cellBytes (p : Params) (ch size : Byte) (r : Nat) : List Byte :=
  if size = 2 then
    let t := fun j => scale2 (glyphByte p ch j) r
    [t 0, t 0, t 1, t 1, t 2, t 2, t 3, t 3, t 4, t 4] ++ List.replicate p.spacing2 0
  else
    [glyphByte p ch 0, glyphByte p ch 1, glyphByte p ch 2, glyphByte p ch 3, glyphByte p ch 4] ++
      List.replicate p.spacing1 0

/-- The words of a character inside the grid: one band at size 1, two at size 2, the second on the
next row (R97). -/
def charWords (p : Params) (row col ch size : Byte) : List WireWord :=
  if 6 ≤ row.toNat ∨ 84 ≤ col.toNat then []
  else if size = 2 then
    bandWords p row col (cellBytes p ch size 0) ++ bandWords p (row + 1) col (cellBytes p ch size 1)
  else bandWords p row col (cellBytes p ch size 0)

/-- The characters of a text before its terminator, each with its column, those that start inside
the display (R100). -/
def textCells (col size : Byte) (text : List Byte) : List (Byte × Nat) :=
  ((text.takeWhile (· != 0)).zipIdx.map fun (ch, k) => (ch, col.toNat + k * stride size)).filter
    fun c => c.2 < 84

/-- The words of a string (R100). -/
def textWords (p : Params) (row col size : Byte) (text : List Byte) : List WireWord :=
  (textCells col size text).flatMap fun c => charWords p row (BitVec.ofNat 8 c.2) c.1 size

/-! ### Initialisation -/

/-- The event of one entry of init's step 1 (R88). -/
def lineSetupEvent : LineSetup → Event
  | .config p => .cfg p
  | .driveLow p => .set p false

/-- The state after init's step 1 (R88): four outputs driven low; driving RST from high to low resets
the receiver (20_memory.md R58). -/
def State.afterInitPins (s : State) : State :=
  { s with
    pins := { s.pins with
      sclk := ⟨.out, false⟩, sdin := ⟨.out, false⟩, dc := ⟨.out, false⟩, rst := ⟨.out, false⟩ }
    traceRev := ((initOrderOf s.params).map lineSetupEvent).reverse ++ s.traceRev
    rx := if s.pins.rst.out then { s.rx with regs := heldRegs s.rx.regs } else s.rx
    dispState := .pinsConfigured }

/-- The state after init's step 2 (R89, 70 R144). -/
def State.afterInitReset (s : State) : State :=
  { s with
    pins := { s.pins with rst := { s.pins.rst with out := true } }
    traceRev := [.set .rst true, .wait .reset s.params.tRst, .set .rst false] ++ s.traceRev
    rx := if s.params.tRst < s.params.tRstMin then s.rx.unknown else s.rx
    dispState := .reset }

/-- The state after init (R87 to R90). -/
def State.afterInit (s : State) : State :=
  { s.afterInitPins.afterInitReset.afterWords
      (([0x21] ++ s.params.contrastBias ++ [0x20, 0x0C]).map (commandWord s.params)) with
    dispState := .ready }

/-! ### The bus as the trace shows it -/

/-- The bus lines (10_state.md R23, 60_exceptions.md R135). -/
def OPin.isBus : OPin → Bool
  | .sclk | .sdin | .dc => true
  | .rst | .led => false

/-- The events on the bus lines, in order. -/
def busEvents (es : List Event) : List Event :=
  es.filter fun
    | .set p _ => p.isBus
    | .cfg _ | .cfgBtn | .wait _ _ | .sleep | .wake => false

/-- The bus events a list of actions has still to make. -/
def busEventsToCome (acts : List Action) : List Event :=
  busEvents (acts.filterMap fun
    | .pinWrite p v => some (.set p v)
    | .pinCfg _ | .btnCfg | .delay _ _ | .ieWrite _ | .smWrite _ | .seWrite _ | .sleepCpu
    | .levelWrite _ | .dispWrite _ | .pcieWrite _ | .setLevel _ | .ret => none)

/-! ### The invariant -/

/-- The receiver's registers while RST is low (20_memory.md R58). -/
def RxRegs.Held (r : RxRegs) : Prop :=
  r.count = 0 ∧ r.x = 0 ∧ r.y = 0 ∧ r.extended = false ∧ r.vertical = false ∧
  r.powerDown = true ∧ r.mode = .blank ∧ r.vop = 0 ∧ r.bias = 0 ∧ r.tc = 0

/-- What is left of a sleeping frame after its SleepCpu (45_power_interrupt.md R112, R114). -/
def afterSleep : List Action := [.seWrite false, .ieWrite false, .ret]

/-- The points of a handler activation at which `ie` may be set: the off path's window before the
sleep sequence (R117), and after SleepCpu until the frame masks again (R113, R114, log 14). -/
def openPoints : List (List Action) := [sleepActions ++ [.ret], afterSleep, afterSleep.tail]

/-- What a handler activation may have left to run: a nonempty tail of the on path or the off path
(R110, R111). -/
def HandlerTail (p : Params) (acts : List Action) : Prop :=
  acts ≠ [] ∧ (acts <:+ onPath p ∨ acts <:+ offPath p)

/-- Actions the main context may run: all but the handler's return and sleep (R110–R113). -/
def Action.isMain : Action → Bool
  | .sleepCpu | .ret => false
  | .pinCfg _ | .btnCfg | .pinWrite _ _ | .delay _ _ | .ieWrite _ | .smWrite _ | .seWrite _
  | .levelWrite _ | .dispWrite _ | .pcieWrite _ | .setLevel _ => true

/-- Entries the boot list may hold (70_reset_and_hazards.md R139). -/
def Job.isMain : Job → Bool
  | .act a => a.isMain
  | .op i => i.isRequest

/-- The invariant every step keeps. -/
structure State.Inv (s : State) : Prop where
  /-- The display RAM is in its canonical form. -/
  ram : s.rx.ram.wf = true
  /-- While RST is low the receiver is held in reset (20_memory.md R58). -/
  held : s.pins.rst.out = false → s.rx.regs.Held
  /-- Without the latch nothing is pending (10_state.md R31). -/
  latch : s.params.edgeLatch = false → s.pending = false
  /-- Every frame holds a tail of the handler (R109). -/
  tails : ∀ f ∈ s.frames, HandlerTail s.params f.seq
  /-- Every frame below the head is suspended where `ie` was set (60_exceptions.md R128). -/
  suspended : ∀ f ∈ s.frames.tail, f.seq ∈ openPoints
  /-- A running activation is masked but at those points (R128). -/
  masked : s.ie = true → ∀ f ∈ s.frames.head?, f.seq ∈ openPoints
  /-- The device sleeps only inside an activation, just after its SleepCpu, with `ie` set (R113,
  R137). -/
  sleeping : s.asleep = true → s.ie = true ∧ ∃ below, s.frames = ⟨afterSleep⟩ :: below
  /-- Activations nest at most NEST_LIMIT deep (R125). -/
  nesting : s.frames.length ≤ s.params.nestLimit
  /-- The main context holds no handler action and starts requests only (R66, R69). -/
  mainActions : ∀ a ∈ s.mainSeq, a.isMain = true
  mainJobs : ∀ j ∈ s.mainJobs, j.isMain = true

end Sys2Proof.Machine
end

