-- ==== Sys2Proof/Certificates/Slice0/Obligations.lean ====
section
/-! DEFINITION. Certificates/Slice0/Obligations.lean: the statements for the provers. Where a
statement speaks of a run, `exec` starts the operation (10_state.md R34) and `runs n` takes its
actions, one step each. -/

open Sys2Proof Sys2Proof.Machine

/-! ### Reset and the invariant -/

/-- 10_state.md R40: every state element after power-on. The boot list of the main `seq` stands in
`mainJobs` (log 11); `btn_prev` is undefined there and not stated. -/
def Obligations.ResetStateIsTheTable : Prop :=
  State.reset.level = 0 ∧
  (∀ p, State.reset.pins.get p = ⟨.unconf, false⟩) ∧
  State.reset.btnMode = .unconf ∧ State.reset.ie = false ∧ State.reset.pcintEn = false ∧
  State.reset.sleepMode = .idle ∧ State.reset.se = false ∧ State.reset.asleep = false ∧
  State.reset.pending = false ∧ State.reset.dispState = .uninit ∧
  State.reset.frames = [] ∧ State.reset.trace = [] ∧
  State.reset.mainSeq = [] ∧
  (∃ text : List Instr, (∀ i ∈ text, i.isStartup = true) ∧
    State.reset.mainJobs =
      [.act (.pinCfg .led), .act (.pinWrite .led false), .op .init] ++ text.map .op ++
      [.act .btnCfg, .act (.pcieWrite true), .act (.ieWrite true), .op .loop]) ∧
  State.reset.rx.regs.Held ∧ (∀ a, State.reset.rx.ram.read a = none)

/-- The reset state meets the invariant. -/
def Obligations.ResetMeetsTheInvariant : Prop := State.reset.Inv

/-- Every step keeps the invariant: display RAM canonical, the receiver held while RST is low,
nothing pending without the latch, every frame a tail of the handler, a running activation masked but
at the open points (60_exceptions.md R128, and log 14: after SleepCpu the point lasts until the
frame masks again), sleep only after SleepCpu, nesting within NEST_LIMIT, main context without
handler actions. -/
def Obligations.EveryStepKeepsTheInvariant : Prop :=
  ∀ s t : State, s.Inv → step s = .next t → t.Inv

/-- 70_reset_and_hazards.md R139, R142: with no start-up request, the boot list takes the machine
from power-on to S_BOOTED, and LOOP is what is left, for every configuration and every order of
init's step 1. The trace is not compared (R142 counts it from the program). The button levels at
power-on are the model's choice (log 6, log 7); so are the count of steps, in which a request's
start is a step (log 2), and that LOOP stands in `mainJobs` (log 11). -/
def Obligations.BootListReachesBooted : Prop :=
  ∀ p : Params, p.startup.filter Instr.isStartup = [] →
    ∃ u : State, runs (95 + 25 * p.contrastBias.length) (powerOn p) = .next u ∧
      u.mainJobs = [.op .loop] ∧ { u with traceRev := [], mainJobs := [] } = sBooted p []

/-! ### Encoding -/

/-- A well-formed request decodes from its encoding, whatever bytes follow (30_encoding.md R66,
R67). -/
def Obligations.DecodeReadsEveryEncodedRequest : Prop :=
  ∀ (i : Instr) (rest : List Byte), i.isRequest = true → i.wf = true →
    decode (encode i ++ rest) = .ok i rest

/-- Whatever the decoder accepts is the encoding of a well-formed request (R67, R70). -/
def Obligations.AcceptedBytesAreTheEncoding : Prop :=
  ∀ (bytes rest : List Byte) (i : Instr), decode bytes = .ok i rest →
    bytes = encode i ++ rest ∧ i.isRequest = true ∧ i.wf = true

/-- Wire words: every 9-bit word is one row's, and every well-formed row's word is its own (R64; which
row names a command byte that two patterns cover is the model's choice, log 15). -/
def Obligations.WireWordsRoundTrip : Prop :=
  (∀ w : BitVec 9, encodeWire (decodeWire w) = some w ∧ (decodeWire w).isWireWord = true ∧
    (decodeWire w).wf = true) ∧
  ∀ i : Instr, i.isWireWord = true → i.wf = true →
    ∃ w, encodeWire i = some w ∧ decodeWire w = i

/-- Words written out from the spec (R64, R67, R73, 95_test_vectors.md V45). -/
def Obligations.SampleWordsDecode : Prop :=
  decode [0x01, 0xA5] = .ok (.txb 0xA5) [] ∧
  decode [0x04, 0x02, 0x0A] = .ok (.setcur 2 10) [] ∧
  decode [0x08, 0x01, 0x0A, 0x41, 0x01] = .ok (.char 1 10 0x41 1) [] ∧
  decode [0x09, 0x00, 0x50, 0x01, 0x41, 0x42, 0x00] = .ok (.str 0 80 1 [0x41, 0x42, 0]) [] ∧
  decode [0x0A, 0xFB, 0xFF] = .ok (.setlvl (-5)) [] ∧
  decode [0x0B, 0x0B] = .ok .tick [0x0B] ∧
  decodeWire 0b010001010 = .setX 10 ∧ decodeWire 0b001000010 = .setY 2 ∧
  decodeWire 0b000100001 = .fsetExt ∧ decodeWire 0b101111110 = .data 0x7E

/-- 30_encoding.md R70: the steps of the decoder that refuse, in order, each with the bytes it
leaves unconsumed (where the point of refusal is, log 26; that the empty sequence is truncated, log
27). A refused request stops the step with that refusal and the bytes consumed, and nothing else
changed. -/
def Obligations.DecoderRefusesByName : Prop :=
  (∀ (op : Byte) (bs : List Byte), op = 0 ∨ 0x0D ≤ op.toNat →
    decode (op :: bs) = .refuse (.opcode op) bs) ∧
  (∀ (i : Instr) (n : Nat), i.isRequest = true → i.wf = true → n < (encode i).length →
    decode ((encode i).take n) = .refuse .truncated []) ∧
  (∀ (row col ch size : Byte) (rest : List Byte), size ≠ 1 → size ≠ 2 →
    decode (0x08 :: row :: col :: ch :: size :: rest) = .refuse (.size size) rest) ∧
  (∀ (row col size : Byte) (text rest : List Byte), size ≠ 1 → size ≠ 2 → textOk text = true →
    decode (0x09 :: row :: col :: size :: text ++ rest) = .refuse (.size size) rest) ∧
  (∀ (bytes rest : List Byte) (r : Reject), decode bytes = .refuse r rest → rest <:+ bytes) ∧
  (∀ (s : State) (r : Reject) (rest : List Byte), s.AtRequest → s.mainJobs = [] →
    s.requests ≠ [] → decode s.requests = .refuse r rest →
    step s = .refused
      (match r with
      | .opcode b => .opcode b { s with requests := rest }
      | .truncated => .truncated { s with requests := rest }
      | .size v => .size v { s with requests := rest }))

/-- 30_encoding.md R68: SETLVL's operand bytes, low byte first, as a signed 16-bit value. -/
def Obligations.SetlvlOperandIsSignedLittleEndian : Prop :=
  ∀ (lo hi : Byte) (rest : List Byte), ∃ value : I16,
    decode (0x0A :: lo :: hi :: rest) = .ok (.setlvl value) rest ∧
    value.toNat = 256 * hi.toNat + lo.toNat ∧
    value.toInt =
      if hi.toNat < 128 then (256 * hi.toNat + lo.toNat : Int)
      else 256 * hi.toNat + lo.toNat - 65536

/-- Reserved opcodes called as instructions stop with REFUSE_OPCODE and their own byte, and leave
the state as it was (R71, R121). -/
def Obligations.ReservedOpcodesStop : Prop :=
  ∀ s : State,
    exec .reserved00 s = .refused (.opcode 0x00 s) ∧
    exec .reserved0D s = .refused (.opcode 0x0D s) ∧
    (∀ low : BitVec 1, exec (.reserved0E0F low) s = .refused (.opcode (0x0E ||| low.setWidth 8) s)) ∧
    (∀ low : BitVec 4, exec (.reserved101F low) s = .refused (.opcode (0x10 ||| low.setWidth 8) s)) ∧
    (∀ low : BitVec 5, exec (.reserved203F low) s = .refused (.opcode (0x20 ||| low.setWidth 8) s)) ∧
    (∀ low : BitVec 6, exec (.reserved407F low) s = .refused (.opcode (0x40 ||| low.setWidth 8) s)) ∧
    (∀ low : BitVec 7, exec (.reserved80FF low) s = .refused (.opcode (0x80 ||| low.setWidth 8) s))

/-! ### A step runs the decoded instruction -/

/-- Where a request starts, a step is `exec` of the decoded request, past its bytes (R34, R66). -/
def Obligations.StepRunsTheDecodedRequest : Prop :=
  ∀ (s : State) (i : Instr) (rest : List Byte), s.AtRequest → s.mainJobs = [] →
    s.requests ≠ [] → decode s.requests = .ok i rest →
    step s = exec i { s with requests := rest }

/-- On the boot list, a step is `exec` of the next entry, or its action (R139, log 11). -/
def Obligations.StepRunsTheBootList : Prop :=
  ∀ (s : State) (more : List Job), s.AtRequest →
    (∀ i, s.mainJobs = .op i :: more → step s = exec i { s with mainJobs := more }) ∧
    (∀ a, s.mainJobs = .act a :: more → step s = perform a { s with mainJobs := more })

/-- The eighth rising clock edge of a byte is `exec` of the wire word on the lines, after the pin
write, its event and the shift (20_memory.md R59; the receiver is the spec's reference model, D24, and
the wire words' meaning the model's, log 15). -/
def Obligations.EighthClockEdgeRunsTheWireWord : Prop :=
  ∀ (s : State) (more : List Action), s.Undisturbed → s.frames = [] →
    s.mainSeq = .pinWrite .sclk true :: more →
    s.pins.sclk = ⟨.out, false⟩ → s.pins.rst.out = true → s.rx.regs.count = 7 →
    let b : Byte := s.rx.regs.shift.extractLsb' 0 7 ++ BitVec.ofBool s.pins.sdin.out
    let d : BitVec 1 := if s.pins.dc.out = s.params.dcCmdLevel then 0 else 1
    step s = exec (decodeWire (d ++ b)) { s with
      mainSeq := more
      pins := { s.pins with sclk := ⟨.out, true⟩ }
      traceRev := .set .sclk true :: s.traceRev
      rx := { s.rx with regs := { s.rx.regs with shift := b, count := 0 } } }

/-- 45_power_interrupt.md R107: what the environment's change of BTN does; a qualifying edge is the
event EV_EDGE. -/
def Obligations.QualifyingEdgeIsTheEdgeEvent : Prop :=
  ∀ (s : State) (b : Bit) (more : List Turn), (s.pending && s.ie) = false →
    s.sched = .button b :: more →
    (s.btnMode = .unconf → step s = .next { s with sched := more, btnIn := b }) ∧
    (s.btnMode = .inPullup →
      let t := { s with sched := more, btnIn := b, btnPrev := b }
      let qualifies : Prop :=
        match s.params.edgeQualifier with
        | .falling => s.btnPrev = true ∧ b = false
        | .rising => s.btnPrev = false ∧ b = true
        | .any => s.btnPrev ≠ b
      (qualifies → step s = exec .evEdge t) ∧ (¬qualifies → step s = .next t))

/-! ### The serial transmitter and the display channel -/

/-- 40_serial_transmitter.md R76: TXB needs READY; it makes 24 events and changes SDIN, SCLK, the
trace and, through the samples, the receiver, and nothing else. -/
def Obligations.TxbTransmitsTheByte : Prop :=
  ∀ (v : Byte) (s : State),
    (s.dispState ≠ .ready → exec (.txb v) s = .fault (.notReady (.txb v))) ∧
    (s.AtRequest → s.BusReady →
      (∃ t, exec (.txb v) s = .next t ∧ runs 24 t = .next (s.afterByte v)) ∧
      (s.afterByte v).trace = s.trace ++
        [.set .sdin (v.getLsbD 7), .set .sclk true, .set .sclk false,
         .set .sdin (v.getLsbD 6), .set .sclk true, .set .sclk false,
         .set .sdin (v.getLsbD 5), .set .sclk true, .set .sclk false,
         .set .sdin (v.getLsbD 4), .set .sclk true, .set .sclk false,
         .set .sdin (v.getLsbD 3), .set .sclk true, .set .sclk false,
         .set .sdin (v.getLsbD 2), .set .sclk true, .set .sclk false,
         .set .sdin (v.getLsbD 1), .set .sclk true, .set .sclk false,
         .set .sdin (v.getLsbD 0), .set .sclk true, .set .sclk false])

/-- 41_display_channel.md R81, R82: CMD and DAT, `02 bb` and `03 bb`, need READY; each sends one wire
word under its select level and changes nothing else. -/
def Obligations.CmdAndDatSendOneWord : Prop :=
  ∀ (b : Byte) (s : State),
    (∀ rest, decode (0x02 :: b :: rest) = .ok (.cmd b) rest ∧
      decode (0x03 :: b :: rest) = .ok (.dat b) rest) ∧
    (s.dispState ≠ .ready → exec (.cmd b) s = .fault (.notReady (.cmd b)) ∧
      exec (.dat b) s = .fault (.notReady (.dat b))) ∧
    (s.AtRequest → s.BusReady →
      (∃ t, exec (.cmd b) s = .next t ∧
        runs 25 t = .next (s.afterWords [(s.params.dcCmdLevel, b)])) ∧
      (∃ t, exec (.dat b) s = .next t ∧
        runs 25 t = .next (s.afterWords [(!s.params.dcCmdLevel, b)])))

/-- 41_display_channel.md R83: SETCUR, `04 rr cc`, needs READY and sends `0x80 | column`, then
`0x40 | (row mod 6)`, both as commands, and changes nothing else. -/
def Obligations.SetcurSendsColumnThenRow : Prop :=
  ∀ (row col : Byte) (s : State),
    (∀ rest, decode (0x04 :: row :: col :: rest) = .ok (.setcur row col) rest) ∧
    (s.dispState ≠ .ready → exec (.setcur row col) s = .fault (.notReady (.setcur row col))) ∧
    (s.AtRequest → s.BusReady →
      ∃ t, exec (.setcur row col) s = .next t ∧
        runs 50 t = .next (s.afterWords
          [(s.params.dcCmdLevel, 0x80 ||| col),
           (s.params.dcCmdLevel, 0x40 ||| BitVec.ofNat 8 (row.toNat % 6))]))

/-- 41_display_channel.md R84, R85: CLRALL sends the cursor (0, 0) and 504 zero data bytes, CLRROW the
cursor (row mod 6, 0) and 84, and they change nothing else. -/
def Obligations.ClearsSendZeroBytes : Prop :=
  ∀ (row : Byte) (s : State),
    (s.dispState ≠ .ready → exec .clrall s = .fault (.notReady .clrall) ∧
      exec (.clrrow row) s = .fault (.notReady (.clrrow row))) ∧
    (s.AtRequest → s.BusReady →
      (∃ t, exec .clrall s = .next t ∧
        runs 12650 t = .next (s.afterWords
          (cursorWords s.params 0 0 ++ List.replicate 504 (!s.params.dcCmdLevel, 0)))) ∧
      (∃ t, exec (.clrrow row) s = .next t ∧
        runs 2150 t = .next (s.afterWords
          (cursorWords s.params row 0 ++ List.replicate 84 (!s.params.dcCmdLevel, 0)))))

/-- 40_serial_transmitter.md R78: the wire projection of framed words is the words. -/
def Obligations.ProjectionOfFramesIsTheWords : Prop :=
  ∀ (ws : List WireWord) (sdin dc : Bit), wireWords sdin dc (ws.flatMap wordEvents) = ws

/-! ### Initialisation -/

/-- 42_display_init.md R87 to R90: INIT needs UNINIT; its `14 + (3 + k) × 25` actions leave the state
`State.afterInit`, in the configured order of step 1. -/
def Obligations.InitRunsItsThreeSteps : Prop :=
  ∀ s : State,
    (s.dispState ≠ .uninit → exec .init s = .fault (.reinit .init)) ∧
    (s.AtRequest → s.dispState = .uninit →
      ∃ t, exec .init s = .next t ∧
        runs (14 + (3 + s.params.contrastBias.length) * 25) t = .next s.afterInit)

/-- 42_display_init.md R88: two configurations that differ only in the order of step 1 leave the same
state but for the trace. -/
def Obligations.InitOrderLeavesTheSameState : Prop :=
  ∀ (s : State) (order : List LineSetup), s.AtRequest → s.dispState = .uninit →
    ∃ t t' u u', exec .init s = .next t ∧
      exec .init { s with params := { s.params with initOrder := order } } = .next t' ∧
      runs (14 + (3 + s.params.contrastBias.length) * 25) t = .next u ∧
      runs (14 + (3 + s.params.contrastBias.length) * 25) t' = .next u' ∧
      { u' with params := s.params, traceRev := [] } = { u with traceRev := [] }

/-- The receiver after INIT (the spec's reference model, D24; R90's derived sentence): after a long
enough reset pulse and contrast bytes that the extended set knows, it is in the normal set, horizontal,
active, NORMAL, with the cursor at (0, 0) and its RAM as before. -/
def Obligations.InitLeavesTheReceiverReady : Prop :=
  ∀ s : State, s.AtRequest → s.dispState = .uninit → s.pins.rst.out = true ∨ s.rx.regs.Held →
    s.params.tRstMin ≤ s.params.tRst →
    (∀ b ∈ s.params.contrastBias, b.getLsbD 7 = true ∨ b.extractLsb' 3 5 = 0b00010#5 ∨
      b.extractLsb' 2 6 = 0b000001#6) →
    ∃ t u, exec .init s = .next t ∧
      runs (14 + (3 + s.params.contrastBias.length) * 25) t = .next u ∧
      u.rx.regs.extended = false ∧ u.rx.regs.vertical = false ∧ u.rx.regs.powerDown = false ∧
      u.rx.regs.mode = .normal ∧ u.rx.regs.x = 0 ∧ u.rx.regs.y = 0 ∧ u.rx.regs.count = 0 ∧
      u.rx.ram = s.rx.ram

/-! ### The text renderer -/

/-- 43_text_renderer.md R97, for every SPACING_COPIES (R99): CHAR, `08 rr cc ch ss`, refuses other
sizes, needs READY, and sends exactly the words of the character, none outside the grid; it changes
nothing else. -/
def Obligations.CharSendsTheCell : Prop :=
  ∀ (row col ch size : Byte) (s : State),
    (size = 1 ∨ size = 2 → ∀ rest,
      decode (0x08 :: row :: col :: ch :: size :: rest) = .ok (.char row col ch size) rest) ∧
    (size ≠ 1 → size ≠ 2 → exec (.char row col ch size) s = .refused (.size size s)) ∧
    (size = 1 ∨ size = 2 →
      (s.dispState ≠ .ready →
        exec (.char row col ch size) s = .fault (.notReady (.char row col ch size))) ∧
      (s.AtRequest → s.BusReady →
        ∃ t, exec (.char row col ch size) s = .next t ∧
          runs (25 * (charWords s.params row col ch size).length) t =
            .next (s.afterWords (charWords s.params row col ch size))))

/-- 43_text_renderer.md R100: STR refuses other sizes, needs READY, and sends the words of the
characters that start inside the display before the terminator; it changes nothing else. The text is
read to its terminator or to the display's edge. -/
def Obligations.StrSendsTheCharacters : Prop :=
  ∀ (row col size : Byte) (text : List Byte) (s : State),
    (size ≠ 1 → size ≠ 2 → exec (.str row col size text) s = .refused (.size size s)) ∧
    (size = 1 ∨ size = 2 →
      (s.dispState ≠ .ready →
        exec (.str row col size text) s = .fault (.notReady (.str row col size text))) ∧
      (s.AtRequest → s.BusReady →
        0 ∈ text ∨ 84 ≤ col.toNat + text.length * (6 * size.toNat) →
        ∃ t, exec (.str row col size text) s = .next t ∧
          runs (25 * (textWords s.params row col size text).length) t =
            .next (s.afterWords (textWords s.params row col size text))))

/-- 20_memory.md R44: a text with no terminator that ends inside the display faults with the index
past its end (that the fault comes when the request starts is the model's reading, log 9). -/
def Obligations.UnterminatedTextFaults : Prop :=
  ∀ (row col size : Byte) (text : List Byte) (s : State), s.dispState = .ready →
    size = 1 ∨ size = 2 → 0 ∉ text → col.toNat + text.length * (6 * size.toNat) < 84 →
    exec (.str row col size text) s = .fault (.textBounds text.length)

/-- 43_text_renderer.md R101: CHAR and STR send no SET_X byte with a column at or past 84. -/
def Obligations.TextColumnsStayInside : Prop :=
  ∀ (i : Instr) (s t : State), s.AtRequest → s.BusReady →
    (∃ row col ch size, i = .char row col ch size) ∨
      (∃ row col size text, i = .str row col size text) →
    exec i s = .next t →
    ∃ (n : Nat) (ws : List WireWord), runs n t = .next (s.afterWords ws) ∧
      ∀ w ∈ ws, w.1 = s.params.dcCmdLevel → w.2.getLsbD 7 = true → w.2.toNat < 0x80 + 84

/-- 43_text_renderer.md R92: characters outside [0x20, 0x7F] are drawn exactly as `?`, those inside as
themselves. -/
def Obligations.OutsideCharactersAreQuestionMarks : Prop :=
  (∀ ch : Byte, 0x20 ≤ ch.toNat → ch.toNat ≤ 0x7F → subst ch = ch) ∧
  ∀ (row col ch size : Byte) (s : State), ch.toNat < 0x20 ∨ 0x7F < ch.toNat →
    subst ch = 0x3F ∧
    (s.dispState = .ready → exec (.char row col ch size) s = exec (.char row col 0x3F size) s)

/-- 20_memory.md R42, 43_text_renderer.md R93: where the glyph bytes of a character stand in FONT. -/
def Obligations.GlyphBytesStandInTheFont : Prop :=
  ∀ (p : Params) (ch : Byte) (j : Fin 5), 0x20 ≤ ch.toNat → ch.toNat ≤ 0x7F →
    ∃ h : (ch.toNat - 0x20) * 5 + j.val < 480,
      glyphByte p ch j = p.font[(ch.toNat - 0x20) * 5 + j.val]

/-- 43_text_renderer.md R94: bit `k` of the transform is bit `4r + (k >> 1)`; group by group, each
two-bit group `x1 x0` expands to `x1 x1 x0 x0`. The formula is the spec's own reading of the source
(92_eei_decisions.md D9). -/
def Obligations.ScaleTwoDoublesPixels : Prop :=
  ∀ (b : Byte) (r : Nat), r < 2 →
    (∀ k, k < 8 → (scale2 b r).getLsbD k = b.getLsbD (4 * r + k / 2)) ∧
    (let expand := fun g : BitVec 2 =>
        (BitVec.ofBool (g.getLsbD 1) ++ BitVec.ofBool (g.getLsbD 1) ++
          BitVec.ofBool (g.getLsbD 0) ++ BitVec.ofBool (g.getLsbD 0) : BitVec 4)
     scale2 b r =
      (expand (b.extractLsb' (4 * r + 2) 2) ++ expand (b.extractLsb' (4 * r) 2) : BitVec 8))

/-! ### Brightness -/

/-- 44_brightness.md R102, R103: SETLVL, `0A lo hi`, clamps, writes the level, and at 0 forces the LED
low in the same action; it changes nothing else, and faults at 0 with the LED unconfigured. -/
def Obligations.SetlvlClampsAndForcesLow : Prop :=
  (∀ (lo hi : Byte) (rest : List Byte),
    decode (0x0A :: lo :: hi :: rest) = .ok (.setlvl (hi ++ lo)) rest) ∧
  ∀ (value : I16) (s : State), s.AtRequest →
    ∃ t, exec (.setlvl value) s = .next t ∧
    (0 < value.toInt → value.toInt ≤ 255 →
      runs 1 t = .next { s with level := BitVec.ofInt 8 value.toInt }) ∧
    (255 < value.toInt → runs 1 t = .next { s with level := 255 }) ∧
    (value.toInt ≤ 0 → s.pins.led.mode = .out →
      runs 1 t = .next { s with
        level := 0
        pins := { s.pins with led := ⟨.out, false⟩ }
        traceRev := .set .led false :: s.traceRev }) ∧
    (value.toInt ≤ 0 → s.pins.led.mode = .unconf →
      runs 1 t = .fault (.pinUnconf .led (.setLevel value)))

/-- 44_brightness.md R104: TICK does nothing at level 0; else it pulses the LED and dwells
`(255 - L) × T_UNIT`, and changes nothing else. -/
def Obligations.TickPulsesByTheLevel : Prop :=
  ∀ s : State, s.AtRequest →
    (s.level = 0 → exec .tick s = .next s) ∧
    (s.level ≠ 0 → s.pins.led.mode = .out →
      ∃ t, exec .tick s = .next t ∧
        runs 4 t = .next { s with
          pins := { s.pins with led := ⟨.out, false⟩ }
          traceRev := [.wait .dwell ((255 - s.level.toNat) * s.params.tUnit), .set .led false,
            .wait .pulse s.params.tPulse, .set .led true] ++ s.traceRev })

/-- 44_brightness.md R104: a tick keeps the level it read when it started, whatever the level becomes
meanwhile. -/
def Obligations.TickKeepsItsSnapshot : Prop :=
  ∀ s : State, s.AtRequest → s.level ≠ 0 → s.pins.led.mode = .out →
    ∃ t, exec .tick s = .next t ∧ ∀ level : Byte,
      runs 4 { t with level := level } = .next { s with
        level := level
        pins := { s.pins with led := ⟨.out, false⟩ }
        traceRev := [.wait .dwell ((255 - s.level.toNat) * s.params.tUnit), .set .led false,
          .wait .pulse s.params.tPulse, .set .led true] ++ s.traceRev }

/-- 70_reset_and_hazards.md R140: LOOP is a tick with LOOP next again. -/
def Obligations.LoopTicksAndLoops : Prop :=
  ∀ s : State, s.AtRequest →
    (s.level = 0 → exec .loop s = .next { s with mainJobs := .op .loop :: s.mainJobs }) ∧
    (s.level ≠ 0 → s.pins.led.mode = .out →
      ∃ t, exec .loop s = .next t ∧
        runs 4 t = .next { s with
          mainJobs := .op .loop :: s.mainJobs
          pins := { s.pins with led := ⟨.out, false⟩ }
          traceRev := [.wait .dwell ((255 - s.level.toNat) * s.params.tUnit), .set .led false,
            .wait .pulse s.params.tPulse, .set .led true] ++ s.traceRev })

/-- 70_reset_and_hazards.md R140, R141: once LOOP has started, no run ends normally, whatever edges
come. -/
def Obligations.LoopNeverEndsNormally : Prop :=
  ∀ (s t u : State) (n : Nat), exec .loop s = .next t → runs n t = .next u → u.normalEnd = false

/-! ### Edges, the handler and sleep -/

/-- 60_exceptions.md R125, 45 R109 to R112: an edge delivered with `pcint_en` and `ie`, or a latched one
with `ie`, wakes a sleeping device, faults past NEST_LIMIT, else masks, clears `pending` and pushes the
handler for the level read now; the interrupted contexts and all else stay as they are. That the
fault records the depth before the entry, and the state it leaves, is log 13; that the latched edge
starts before any turn of the schedule is log 18. -/
def Obligations.EdgeEntersTheHandler : Prop :=
  ∀ s : State, s.ie = true →
    let w := if s.asleep then { s with asleep := false, traceRev := .wake :: s.traceRev } else s
    let path := if s.level.toNat < 255 then
        [.setLevel 255, .ieWrite false, .delay .holdOn s.params.tHoldOn, .ret]
      else
        [.setLevel 0, .ieWrite false, .delay .holdOff s.params.tHoldOff, .ieWrite true,
          .ieWrite false, .smWrite .powerDown, .seWrite true, .sleepCpu, .seWrite false,
          .ieWrite false, .ret]
    (s.params.nestLimit < s.frames.length + 1 →
      (s.pcintEn = true → exec .evEdge s = .fault (.nestLimit s.frames.length w)) ∧
      (s.pending = true → step s = .fault (.nestLimit s.frames.length w))) ∧
    (s.frames.length + 1 ≤ s.params.nestLimit →
      let t := { w with ie := false, pending := false, frames := ⟨path⟩ :: s.frames }
      (s.pcintEn = true → exec .evEdge s = .next t) ∧ (s.pending = true → step s = .next t))

/-- 45_power_interrupt.md R108: an edge without `pcint_en` is ignored; masked it is lost, or latched
with EDGE_LATCH. -/
def Obligations.MaskedEdgeIsLostOrLatched : Prop :=
  ∀ s : State,
    (s.pcintEn = false → exec .evEdge s = .next s) ∧
    (s.pcintEn = true → s.ie = false →
      (s.params.edgeLatch = false → exec .evEdge s = .next s) ∧
      (s.params.edgeLatch = true → exec .evEdge s = .next { s with pending := true }))

/-- 60_exceptions.md R126: a latched edge starts its activation at the first boundary with `ie` set,
before any turn of the schedule (log 18), and entry clears the latch. -/
def Obligations.LatchedEdgeStartsWhenUnmasked : Prop :=
  ∀ s : State, s.pending = true → s.ie = true → s.pcintEn = true →
    step s = exec .evEdge s ∧ ∀ t, step s = .next t → t.pending = false ∧ t.ie = false

/-- 45_power_interrupt.md R110: the on path, undisturbed: level 255, one wait, `ie` set, and nothing
else changed (a sleeping device is woken first, R114). -/
def Obligations.OnPathRaisesTheLevel : Prop :=
  ∀ s : State, s.pcintEn = true → s.ie = true → s.sched = [] →
    s.frames.length + 1 ≤ s.params.nestLimit → s.level.toNat < 255 →
    let w := if s.asleep then { s with asleep := false, traceRev := .wake :: s.traceRev } else s
    ∃ t, exec .evEdge s = .next t ∧
      runs 4 t = .next { w with
        level := 255, ie := true, pending := false
        traceRev := .wait .holdOn s.params.tHoldOn :: w.traceRev }

/-- 45_power_interrupt.md R111 to R113: the off path, undisturbed: level 0, LED low, one wait, then
asleep in power-down with `ie` set and the frame halted after SleepCpu. -/
def Obligations.OffPathEndsAsleep : Prop :=
  ∀ s : State, s.pcintEn = true → s.ie = true → s.sched = [] →
    s.frames.length + 1 ≤ s.params.nestLimit → s.level.toNat = 255 → s.pins.led.mode = .out →
    let w := if s.asleep then { s with asleep := false, traceRev := .wake :: s.traceRev } else s
    ∃ t, exec .evEdge s = .next t ∧
      runs 8 t = .next { w with
        level := 0, ie := true, pending := false, sleepMode := .powerDown, se := true
        asleep := true
        pins := { s.pins with led := ⟨.out, false⟩ }
        traceRev := [.sleep, .wait .holdOff s.params.tHoldOff, .set .led false] ++ w.traceRev
        frames := ⟨[.seWrite false, .ieWrite false, .ret]⟩ :: s.frames }

/-- 45_power_interrupt.md R112: SLEEPSEQ, undisturbed: the running context masks, selects power-down,
arms and sleeps, with its disarm and mask still to run before its own actions. With no activation the
main context calls it (log 17). -/
def Obligations.SleepSequenceSleeps : Prop :=
  ∀ s : State, s.Undisturbed →
    (∀ (f : Frame) (below : List Frame), s.frames = f :: below →
      ∃ t, exec .sleepseq s = .next t ∧
        runs 4 t = .next { s with
          ie := true, sleepMode := .powerDown, se := true, asleep := true
          traceRev := .sleep :: s.traceRev
          frames := ⟨[.seWrite false, .ieWrite false] ++ f.seq⟩ :: below }) ∧
    (s.frames = [] →
      ∃ t, exec .sleepseq s = .next t ∧
        runs 4 t = .next { s with
          ie := true, sleepMode := .powerDown, se := true, asleep := true
          traceRev := .sleep :: s.traceRev
          mainSeq := [.seWrite false, .ieWrite false] ++ s.mainSeq })

/-- 45_power_interrupt.md R113: SleepCpu sets `ie`; armed it sleeps in power-down and faults in
another mode, unarmed it does nothing more. Asleep, no context runs: that the step then answers
the same state is log 12, and that it uses up a device turn of the schedule is log 1. -/
def Obligations.SleepCpuSleepsWhenArmed : Prop :=
  (∀ (s : State) (more : List Action) (below : List Frame), s.Undisturbed →
    s.frames = ⟨.sleepCpu :: more⟩ :: below →
    let t := { s with ie := true, frames := ⟨more⟩ :: below }
    (s.se = false → step s = .next t) ∧
    (s.se = true → s.sleepMode = .powerDown →
      step s = .next { t with asleep := true, traceRev := .sleep :: s.traceRev }) ∧
    (s.se = true → s.sleepMode = .idle → step s = .fault (.sleepMode .idle))) ∧
  (∀ s : State, s.asleep = true → (s.pending && s.ie) = false →
    (s.sched = [] → step s = .next s) ∧
    ∀ more, s.sched = .device :: more → step s = .next { s with sched := more })

/-- 60_exceptions.md R127: Ret pops the head frame and sets `ie`, and changes nothing else. -/
def Obligations.RetPopsAndUnmasks : Prop :=
  ∀ (s : State) (more : List Action) (below : List Frame), s.Undisturbed →
    s.frames = ⟨.ret :: more⟩ :: below → step s = .next { s with frames := below, ie := true }

/-- 45_power_interrupt.md R115, 95_test_vectors.md W6: the two-press cycle, under FALLING, whatever
the main context was doing: press 1 brightens, press 2 darkens and sleeps, press 3 wakes and
brightens; everything but the named fields is as before. The schedule of turns is the model's
way to give edges and actions an order (log 1). -/
def Obligations.TwoPressCycleReturnsBright : Prop :=
  ∀ (s : State) (rest : List Turn), s.params.edgeQualifier = .falling →
    s.frames = [] → s.asleep = false → s.pending = false → s.ie = true → s.pcintEn = true →
    s.btnMode = .inPullup → s.btnPrev = true → s.pins.led.mode = .out → s.level.toNat < 255 →
    2 ≤ s.params.nestLimit →
    s.sched = [.button false] ++ List.replicate 4 .device ++
      [.button true, .button false] ++ List.replicate 8 .device ++
      [.button true, .button false] ++ List.replicate 7 .device ++ rest →
    runs 24 s = .next { s with
      level := 255, btnIn := false, btnPrev := false
      sleepMode := .powerDown, se := false
      pins := { s.pins with led := ⟨.out, false⟩ }
      traceRev := [.wait .holdOn s.params.tHoldOn, .wake, .sleep,
        .wait .holdOff s.params.tHoldOff, .set .led false, .wait .holdOn s.params.tHoldOn] ++
        s.traceRev
      sched := rest }

/-- 45_power_interrupt.md R117: an edge in the off path's window takes the on path, and the device then
sleeps at level 255. -/
def Obligations.WindowEdgeSleepsBright : Prop :=
  ∀ (s : State) (below : List Frame), s.Undisturbed → s.ie = true → s.pcintEn = true →
    s.level = 0 → s.frames.length + 1 ≤ s.params.nestLimit →
    s.frames = ⟨[.ieWrite false, .smWrite .powerDown, .seWrite true, .sleepCpu, .seWrite false,
      .ieWrite false, .ret]⟩ :: below →
    ∃ t, exec .evEdge s = .next t ∧
      runs 8 t = .next { s with
        level := 255, asleep := true, pending := false, sleepMode := .powerDown, se := true
        traceRev := [.sleep, .wait .holdOn s.params.tHoldOn] ++ s.traceRev
        frames := ⟨[.seWrite false, .ieWrite false, .ret]⟩ :: below }

/-! ### Wire words: the receiver's commands and data (the spec's reference model, 20_memory.md section
5, D24; that a wire word's instruction is what the receiver does with it is log 15) -/

/-- Eight samples from a byte boundary are one whole byte (R59). -/
def Obligations.EightSamplesMakeAByte : Prop :=
  ∀ (c : Bool) (b : Byte) (rx : Receiver), rx.regs.count = 0 →
    rx.receiveByte c b = Receiver.take c b { rx with regs := { rx.regs with shift := b } }

/-- SET_X and SET_Y: with RST high and the normal set, the cursor; reserved values leave the receiver
free (log 4); in the extended set 0x80 | x is Vop and 0x40 | y is reserved; with RST low nothing. -/
def Obligations.CursorWordsMoveTheCursor : Prop :=
  ∀ s : State,
    (∀ x : BitVec 7,
      (s.pins.rst.out = false → exec (.setX x) s = .next s) ∧
      (s.pins.rst.out = true → s.rx.regs.extended = true →
        exec (.setX x) s = .next { s with rx := { s.rx with regs := { s.rx.regs with vop := x } } }) ∧
      (s.pins.rst.out = true → s.rx.regs.extended = false →
        (∀ h : x.toNat < 84, exec (.setX x) s =
          .next { s with rx := { s.rx with regs := { s.rx.regs with x := ⟨x.toNat, h⟩ } } }) ∧
        (84 ≤ x.toNat → exec (.setX x) s = .next { s with rx := s.rx.unknown }))) ∧
    (∀ y : BitVec 3,
      (s.pins.rst.out = false → exec (.setY y) s = .next s) ∧
      (s.pins.rst.out = true → s.rx.regs.extended = true →
        exec (.setY y) s = .next { s with rx := s.rx.unknown }) ∧
      (s.pins.rst.out = true → s.rx.regs.extended = false →
        (∀ h : y.toNat < 6, exec (.setY y) s =
          .next { s with rx := { s.rx with regs := { s.rx.regs with y := ⟨y.toNat, h⟩ } } }) ∧
        (6 ≤ y.toNat → exec (.setY y) s = .next { s with rx := s.rx.unknown })))

/-- FSET_EXT, FSET_NORM and DISP_NORMAL. -/
def Obligations.ModeWordsSetTheModes : Prop :=
  ∀ s : State,
    (s.pins.rst.out = false → exec .fsetExt s = .next s ∧ exec .fsetNorm s = .next s ∧
      exec .dispNormal s = .next s) ∧
    (s.pins.rst.out = true →
      exec .fsetExt s = .next { s with rx := { s.rx with regs := { s.rx.regs with
        powerDown := false, vertical := false, extended := true } } } ∧
      exec .fsetNorm s = .next { s with rx := { s.rx with regs := { s.rx.regs with
        powerDown := false, vertical := false, extended := false } } } ∧
      (s.rx.regs.extended = false →
        exec .dispNormal s = .next { s with rx := { s.rx with regs := { s.rx.regs with
          mode := .normal } } }) ∧
      (s.rx.regs.extended = true → exec .dispNormal s = .next { s with rx := s.rx.unknown }))

/-- CONTRAST_BIAS in the extended set, where INIT sends it: Vop, bias, temperature; the no-op and the
function set as in both sets; any other byte is reserved. In the normal set the byte is a command of
that set. -/
def Obligations.ContrastWordsSetVopBiasTc : Prop :=
  ∀ (s : State) (b : Byte),
    (s.pins.rst.out = false → exec (.contrastBias b) s = .next s) ∧
    (s.pins.rst.out = true →
      (b = 0 → exec (.contrastBias b) s = .next s) ∧
      (b.extractLsb' 3 5 = 0b00100#5 →
        exec (.contrastBias b) s = .next { s with rx := { s.rx with regs := { s.rx.regs with
          powerDown := b.getLsbD 2, vertical := b.getLsbD 1, extended := b.getLsbD 0 } } }) ∧
      (s.rx.regs.extended = true →
        (b.getLsbD 7 = true → exec (.contrastBias b) s =
          .next { s with rx := { s.rx with regs := { s.rx.regs with vop := b.setWidth 7 } } }) ∧
        (b.extractLsb' 3 5 = 0b00010#5 → exec (.contrastBias b) s =
          .next { s with rx := { s.rx with regs := { s.rx.regs with bias := b.setWidth 3 } } }) ∧
        (b.extractLsb' 2 6 = 0b000001#6 → exec (.contrastBias b) s =
          .next { s with rx := { s.rx with regs := { s.rx.regs with tc := b.setWidth 2 } } }) ∧
        (b ≠ 0 → b.extractLsb' 3 5 ≠ 0b00100#5 → b.getLsbD 7 = false →
          b.extractLsb' 3 5 ≠ 0b00010#5 → b.extractLsb' 2 6 ≠ 0b000001#6 →
          exec (.contrastBias b) s = .next { s with rx := s.rx.unknown })) ∧
      (s.rx.regs.extended = false →
        (∀ h : b.getLsbD 7 = true ∧ b.toNat - 128 < 84, exec (.contrastBias b) s =
          .next { s with rx := { s.rx with regs := { s.rx.regs with x := ⟨b.toNat - 128, h.2⟩ } } }) ∧
        (∀ h : b.extractLsb' 3 5 = 0b01000#5 ∧ b.toNat - 64 < 6, exec (.contrastBias b) s =
          .next { s with rx := { s.rx with regs := { s.rx.regs with y := ⟨b.toNat - 64, h.2⟩ } } }) ∧
        (b = 0x08 → exec (.contrastBias b) s =
          .next { s with rx := { s.rx with regs := { s.rx.regs with mode := .blank } } }) ∧
        (b = 0x09 → exec (.contrastBias b) s =
          .next { s with rx := { s.rx with regs := { s.rx.regs with mode := .allOn } } }) ∧
        (b = 0x0C → exec (.contrastBias b) s =
          .next { s with rx := { s.rx with regs := { s.rx.regs with mode := .normal } } }) ∧
        (b = 0x0D → exec (.contrastBias b) s =
          .next { s with rx := { s.rx with regs := { s.rx.regs with mode := .inverse } } }) ∧
        (b ≠ 0 → b.extractLsb' 3 5 ≠ 0b00100#5 →
          (b.getLsbD 7 = true → 84 ≤ b.toNat - 128) →
          (b.extractLsb' 3 5 = 0b01000#5 → 6 ≤ b.toNat - 64) →
          b ≠ 0x08 → b ≠ 0x09 → b ≠ 0x0C → b ≠ 0x0D →
          exec (.contrastBias b) s = .next { s with rx := s.rx.unknown })))

/-- DATA: the byte goes to the cell at the cursor, every other cell keeps what it held, the cursor
advances with its wraps (R60), and nothing else changes; with RST low nothing changes. -/
def Obligations.DataWordWritesTheCell : Prop :=
  ∀ (s : State) (b : Byte),
    (s.pins.rst.out = false → exec (.data b) s = .next s) ∧
    (s.pins.rst.out = true → ∃ t, exec (.data b) s = .next t ∧
      t.rx.ram.read (cellAddr s.rx.regs.y s.rx.regs.x) = some b ∧
      (∀ a, a ≠ cellAddr s.rx.regs.y s.rx.regs.x → t.rx.ram.read a = s.rx.ram.read a) ∧
      (s.rx.regs.vertical = false →
        t.rx.regs.x.val = (s.rx.regs.x.val + 1) % 84 ∧
        t.rx.regs.y.val = (s.rx.regs.y.val + (s.rx.regs.x.val + 1) / 84) % 6) ∧
      (s.rx.regs.vertical = true →
        t.rx.regs.y.val = (s.rx.regs.y.val + 1) % 6 ∧
        t.rx.regs.x.val = (s.rx.regs.x.val + (s.rx.regs.y.val + 1) / 6) % 84) ∧
      { t with rx := { t.rx with
          ram := s.rx.ram, regs := { t.rx.regs with x := s.rx.regs.x, y := s.rx.regs.y } } } = s)

/-- CLRALL's derived corner case (R84): from the normal set, horizontal, at a byte boundary, every cell
of the display is 0 afterwards and the cursor is back at (0, 0). -/
def Obligations.ClearAllBlanksTheDisplay : Prop :=
  ∀ s : State, s.AtRequest → s.BusReady → s.pins.rst.out = true → s.rx.regs.count = 0 →
    s.rx.regs.extended = false → s.rx.regs.vertical = false →
    ∃ t u, exec .clrall s = .next t ∧ runs 12650 t = .next u ∧
      (∀ (y : Fin 6) (x : Fin 84), u.rx.ram.read (cellAddr y x) = some 0) ∧
      u.rx.regs.x = 0 ∧ u.rx.regs.y = 0

/-- CLRROW's derived corner case (R85): the row (mod 6) is 0 afterwards, every other row keeps what it
held, and the cursor is at the start of the next row. -/
def Obligations.ClearRowBlanksItsRow : Prop :=
  ∀ (row : Byte) (s : State), s.AtRequest → s.BusReady → s.pins.rst.out = true →
    s.rx.regs.count = 0 → s.rx.regs.extended = false → s.rx.regs.vertical = false →
    ∃ t u, exec (.clrrow row) s = .next t ∧ runs 2150 t = .next u ∧
      (∀ (y : Fin 6) (x : Fin 84), u.rx.ram.read (cellAddr y x) =
        if y.val = row.toNat % 6 then some 0 else s.rx.ram.read (cellAddr y x)) ∧
      u.rx.regs.x = 0 ∧ u.rx.regs.y.val = (row.toNat % 6 + 1) % 6

/-! ### Rules about the whole machine -/

/-- 10_state.md R24: a pin write to an unconfigured pin faults, in whichever context it comes; the fault
records the pin and the action. -/
def Obligations.UnconfiguredPinWriteFaults : Prop :=
  ∀ (s u : State) (p : OPin) (v : Bit), nextMove s = .act (.pinWrite p v) u →
    (u.pins.get p).mode ≠ .out → step s = .fault (.pinUnconf p (.pinWrite p v))

/-- 20_memory.md R49: a pin write to the level the pin already holds changes no state except the
trace. -/
def Obligations.SameLevelWriteOnlyTraces : Prop :=
  ∀ (s u : State) (p : OPin), nextMove s = .act (.pinWrite p (u.pins.get p).out) u →
    (u.pins.get p).mode = .out →
    step s = .next { u with traceRev := .set p (u.pins.get p).out :: u.traceRev }

/-- 10_state.md R23, 70_reset_and_hazards.md R153: while a handler activation exists, no step changes
the four display lines or the receiver. -/
def Obligations.HandlerLeavesTheDisplayAlone : Prop :=
  ∀ s t : State, s.Inv → s.frames ≠ [] → step s = .next t →
    t.pins.sclk = s.pins.sclk ∧ t.pins.sdin = s.pins.sdin ∧ t.pins.dc = s.pins.dc ∧
    t.pins.rst = s.pins.rst ∧ t.rx = s.rx ∧ t.dispState = s.dispState

/-- 70_reset_and_hazards.md R153, 20_memory.md R48: whatever edges and activations come between, a run
of the main context's remaining actions makes exactly its bus events, in order: no byte is torn. -/
def Obligations.EdgesNeverTearTheBus : Prop :=
  ∀ (s u : State) (n : Nat), s.Inv → s.mainJobs = [] → s.requests = [] → runs n s = .next u →
    busEvents u.trace ++ busEventsToCome u.mainSeq =
      busEvents s.trace ++ busEventsToCome s.mainSeq

/-- 20_memory.md R53: while `ie` is 0 no handler activation starts. -/
def Obligations.MaskedMeansNoActivation : Prop :=
  ∀ s t : State, s.ie = false → step s = .next t → t.frames.length ≤ s.frames.length

/-- 44_brightness.md R106, 10_state.md R21: only a SetLevel or LevelWrite action changes the level; no
operation writes it by starting. -/
def Obligations.OnlyTheSetterWritesTheLevel : Prop :=
  (∀ (i : Instr) (s t : State), exec i s = .next t → t.level = s.level) ∧
  ∀ s t : State, step s = .next t → t.level ≠ s.level →
    ∃ u, (∃ v, nextMove s = .act (.setLevel v) u) ∨ ∃ v, nextMove s = .act (.levelWrite v) u

/-- 10_state.md R39: no step changes the configuration. -/
def Obligations.NoStepChangesTheConfiguration : Prop :=
  ∀ s t : State, step s = .next t → t.params = s.params

/-- 00_scope.md R14, 10_state.md R37: a step appends at most one event and changes no earlier one. -/
def Obligations.TraceGrowsByAtMostOneEvent : Prop :=
  ∀ s t : State, step s = .next t → t.trace = s.trace ∨ ∃ e, t.trace = s.trace ++ [e]
end

