-- ==== Sys2Proof/Laws/State.lean ====
section
/-! SUPPORT. Laws/State.lean: what each update of the state does to each field. -/

namespace Sys2Proof.Machine

/-! ### `emit` -/

@[simp] theorem emit_params (e : Event) (s : State) : (s.emit e).params = s.params := rfl
@[simp] theorem emit_level (e : Event) (s : State) : (s.emit e).level = s.level := rfl
@[simp] theorem emit_pins (e : Event) (s : State) : (s.emit e).pins = s.pins := rfl
@[simp] theorem emit_btnMode (e : Event) (s : State) : (s.emit e).btnMode = s.btnMode := rfl
@[simp] theorem emit_btnIn (e : Event) (s : State) : (s.emit e).btnIn = s.btnIn := rfl
@[simp] theorem emit_btnPrev (e : Event) (s : State) : (s.emit e).btnPrev = s.btnPrev := rfl
@[simp] theorem emit_ie (e : Event) (s : State) : (s.emit e).ie = s.ie := rfl
@[simp] theorem emit_pcintEn (e : Event) (s : State) : (s.emit e).pcintEn = s.pcintEn := rfl
@[simp] theorem emit_sleepMode (e : Event) (s : State) : (s.emit e).sleepMode = s.sleepMode := rfl
@[simp] theorem emit_se (e : Event) (s : State) : (s.emit e).se = s.se := rfl
@[simp] theorem emit_asleep (e : Event) (s : State) : (s.emit e).asleep = s.asleep := rfl
@[simp] theorem emit_pending (e : Event) (s : State) : (s.emit e).pending = s.pending := rfl
@[simp] theorem emit_dispState (e : Event) (s : State) : (s.emit e).dispState = s.dispState := rfl
@[simp] theorem emit_mainSeq (e : Event) (s : State) : (s.emit e).mainSeq = s.mainSeq := rfl
@[simp] theorem emit_mainJobs (e : Event) (s : State) : (s.emit e).mainJobs = s.mainJobs := rfl
@[simp] theorem emit_requests (e : Event) (s : State) : (s.emit e).requests = s.requests := rfl
@[simp] theorem emit_frames (e : Event) (s : State) : (s.emit e).frames = s.frames := rfl
@[simp] theorem emit_traceRev (e : Event) (s : State) : (s.emit e).traceRev = e :: s.traceRev := rfl
@[simp] theorem emit_rx (e : Event) (s : State) : (s.emit e).rx = s.rx := rfl
@[simp] theorem emit_sched (e : Event) (s : State) : (s.emit e).sched = s.sched := rfl

/-! ### `drive` -/

@[simp] theorem drive_params (p : OPin) (v : Bit) (s : State) : (s.drive p v).params = s.params := rfl
@[simp] theorem drive_level (p : OPin) (v : Bit) (s : State) : (s.drive p v).level = s.level := rfl
@[simp] theorem drive_pins (p : OPin) (v : Bit) (s : State) : (s.drive p v).pins = s.pins.drive p v := rfl
@[simp] theorem drive_btnMode (p : OPin) (v : Bit) (s : State) : (s.drive p v).btnMode = s.btnMode := rfl
@[simp] theorem drive_btnIn (p : OPin) (v : Bit) (s : State) : (s.drive p v).btnIn = s.btnIn := rfl
@[simp] theorem drive_btnPrev (p : OPin) (v : Bit) (s : State) : (s.drive p v).btnPrev = s.btnPrev := rfl
@[simp] theorem drive_ie (p : OPin) (v : Bit) (s : State) : (s.drive p v).ie = s.ie := rfl
@[simp] theorem drive_pcintEn (p : OPin) (v : Bit) (s : State) : (s.drive p v).pcintEn = s.pcintEn := rfl
@[simp] theorem drive_sleepMode (p : OPin) (v : Bit) (s : State) : (s.drive p v).sleepMode = s.sleepMode := rfl
@[simp] theorem drive_se (p : OPin) (v : Bit) (s : State) : (s.drive p v).se = s.se := rfl
@[simp] theorem drive_asleep (p : OPin) (v : Bit) (s : State) : (s.drive p v).asleep = s.asleep := rfl
@[simp] theorem drive_pending (p : OPin) (v : Bit) (s : State) : (s.drive p v).pending = s.pending := rfl
@[simp] theorem drive_dispState (p : OPin) (v : Bit) (s : State) : (s.drive p v).dispState = s.dispState := rfl
@[simp] theorem drive_mainSeq (p : OPin) (v : Bit) (s : State) : (s.drive p v).mainSeq = s.mainSeq := rfl
@[simp] theorem drive_mainJobs (p : OPin) (v : Bit) (s : State) : (s.drive p v).mainJobs = s.mainJobs := rfl
@[simp] theorem drive_requests (p : OPin) (v : Bit) (s : State) : (s.drive p v).requests = s.requests := rfl
@[simp] theorem drive_frames (p : OPin) (v : Bit) (s : State) : (s.drive p v).frames = s.frames := rfl
@[simp] theorem drive_traceRev (p : OPin) (v : Bit) (s : State) : (s.drive p v).traceRev = .set p v :: s.traceRev := rfl
@[simp] theorem drive_rx (p : OPin) (v : Bit) (s : State) : (s.drive p v).rx = s.rxAfterWrite p v := rfl
@[simp] theorem drive_sched (p : OPin) (v : Bit) (s : State) : (s.drive p v).sched = s.sched := rfl

/-! ### `pinConfigure` -/

@[simp] theorem pinConfigure_params (p : OPin) (s : State) : (pinConfigure p s).params = s.params := rfl
@[simp] theorem pinConfigure_level (p : OPin) (s : State) : (pinConfigure p s).level = s.level := rfl
@[simp] theorem pinConfigure_pins (p : OPin) (s : State) : (pinConfigure p s).pins = s.pins.configure p := rfl
@[simp] theorem pinConfigure_btnMode (p : OPin) (s : State) : (pinConfigure p s).btnMode = s.btnMode := rfl
@[simp] theorem pinConfigure_btnIn (p : OPin) (s : State) : (pinConfigure p s).btnIn = s.btnIn := rfl
@[simp] theorem pinConfigure_btnPrev (p : OPin) (s : State) : (pinConfigure p s).btnPrev = s.btnPrev := rfl
@[simp] theorem pinConfigure_ie (p : OPin) (s : State) : (pinConfigure p s).ie = s.ie := rfl
@[simp] theorem pinConfigure_pcintEn (p : OPin) (s : State) : (pinConfigure p s).pcintEn = s.pcintEn := rfl
@[simp] theorem pinConfigure_sleepMode (p : OPin) (s : State) : (pinConfigure p s).sleepMode = s.sleepMode := rfl
@[simp] theorem pinConfigure_se (p : OPin) (s : State) : (pinConfigure p s).se = s.se := rfl
@[simp] theorem pinConfigure_asleep (p : OPin) (s : State) : (pinConfigure p s).asleep = s.asleep := rfl
@[simp] theorem pinConfigure_pending (p : OPin) (s : State) : (pinConfigure p s).pending = s.pending := rfl
@[simp] theorem pinConfigure_dispState (p : OPin) (s : State) : (pinConfigure p s).dispState = s.dispState := rfl
@[simp] theorem pinConfigure_mainSeq (p : OPin) (s : State) : (pinConfigure p s).mainSeq = s.mainSeq := rfl
@[simp] theorem pinConfigure_mainJobs (p : OPin) (s : State) : (pinConfigure p s).mainJobs = s.mainJobs := rfl
@[simp] theorem pinConfigure_requests (p : OPin) (s : State) : (pinConfigure p s).requests = s.requests := rfl
@[simp] theorem pinConfigure_frames (p : OPin) (s : State) : (pinConfigure p s).frames = s.frames := rfl
@[simp] theorem pinConfigure_traceRev (p : OPin) (s : State) : (pinConfigure p s).traceRev = .cfg p :: s.traceRev := rfl
@[simp] theorem pinConfigure_rx (p : OPin) (s : State) : (pinConfigure p s).rx = s.rx := rfl
@[simp] theorem pinConfigure_sched (p : OPin) (s : State) : (pinConfigure p s).sched = s.sched := rfl

/-! ### `buttonConfigure` -/

@[simp] theorem buttonConfigure_params (s : State) : (buttonConfigure s).params = s.params := rfl
@[simp] theorem buttonConfigure_level (s : State) : (buttonConfigure s).level = s.level := rfl
@[simp] theorem buttonConfigure_pins (s : State) : (buttonConfigure s).pins = s.pins := rfl
@[simp] theorem buttonConfigure_btnMode (s : State) : (buttonConfigure s).btnMode = .inPullup := rfl
@[simp] theorem buttonConfigure_btnIn (s : State) : (buttonConfigure s).btnIn = s.btnIn := rfl
@[simp] theorem buttonConfigure_btnPrev (s : State) : (buttonConfigure s).btnPrev = s.btnIn := rfl
@[simp] theorem buttonConfigure_ie (s : State) : (buttonConfigure s).ie = s.ie := rfl
@[simp] theorem buttonConfigure_pcintEn (s : State) : (buttonConfigure s).pcintEn = s.pcintEn := rfl
@[simp] theorem buttonConfigure_sleepMode (s : State) : (buttonConfigure s).sleepMode = s.sleepMode := rfl
@[simp] theorem buttonConfigure_se (s : State) : (buttonConfigure s).se = s.se := rfl
@[simp] theorem buttonConfigure_asleep (s : State) : (buttonConfigure s).asleep = s.asleep := rfl
@[simp] theorem buttonConfigure_pending (s : State) : (buttonConfigure s).pending = s.pending := rfl
@[simp] theorem buttonConfigure_dispState (s : State) : (buttonConfigure s).dispState = s.dispState := rfl
@[simp] theorem buttonConfigure_mainSeq (s : State) : (buttonConfigure s).mainSeq = s.mainSeq := rfl
@[simp] theorem buttonConfigure_mainJobs (s : State) : (buttonConfigure s).mainJobs = s.mainJobs := rfl
@[simp] theorem buttonConfigure_requests (s : State) : (buttonConfigure s).requests = s.requests := rfl
@[simp] theorem buttonConfigure_frames (s : State) : (buttonConfigure s).frames = s.frames := rfl
@[simp] theorem buttonConfigure_traceRev (s : State) : (buttonConfigure s).traceRev = .cfgBtn :: s.traceRev := rfl
@[simp] theorem buttonConfigure_rx (s : State) : (buttonConfigure s).rx = s.rx := rfl
@[simp] theorem buttonConfigure_sched (s : State) : (buttonConfigure s).sched = s.sched := rfl

/-! ### `returnFromActivation` -/

@[simp] theorem returnFromActivation_params (s : State) : (returnFromActivation s).params = s.params := rfl
@[simp] theorem returnFromActivation_level (s : State) : (returnFromActivation s).level = s.level := rfl
@[simp] theorem returnFromActivation_pins (s : State) : (returnFromActivation s).pins = s.pins := rfl
@[simp] theorem returnFromActivation_btnMode (s : State) : (returnFromActivation s).btnMode = s.btnMode := rfl
@[simp] theorem returnFromActivation_btnIn (s : State) : (returnFromActivation s).btnIn = s.btnIn := rfl
@[simp] theorem returnFromActivation_btnPrev (s : State) : (returnFromActivation s).btnPrev = s.btnPrev := rfl
@[simp] theorem returnFromActivation_ie (s : State) : (returnFromActivation s).ie = true := rfl
@[simp] theorem returnFromActivation_pcintEn (s : State) : (returnFromActivation s).pcintEn = s.pcintEn := rfl
@[simp] theorem returnFromActivation_sleepMode (s : State) : (returnFromActivation s).sleepMode = s.sleepMode := rfl
@[simp] theorem returnFromActivation_se (s : State) : (returnFromActivation s).se = s.se := rfl
@[simp] theorem returnFromActivation_asleep (s : State) : (returnFromActivation s).asleep = s.asleep := rfl
@[simp] theorem returnFromActivation_pending (s : State) : (returnFromActivation s).pending = s.pending := rfl
@[simp] theorem returnFromActivation_dispState (s : State) : (returnFromActivation s).dispState = s.dispState := rfl
@[simp] theorem returnFromActivation_mainSeq (s : State) : (returnFromActivation s).mainSeq = s.mainSeq := rfl
@[simp] theorem returnFromActivation_mainJobs (s : State) : (returnFromActivation s).mainJobs = s.mainJobs := rfl
@[simp] theorem returnFromActivation_requests (s : State) : (returnFromActivation s).requests = s.requests := rfl
@[simp] theorem returnFromActivation_frames (s : State) : (returnFromActivation s).frames = s.frames.tail := rfl
@[simp] theorem returnFromActivation_traceRev (s : State) : (returnFromActivation s).traceRev = s.traceRev := rfl
@[simp] theorem returnFromActivation_rx (s : State) : (returnFromActivation s).rx = s.rx := rfl
@[simp] theorem returnFromActivation_sched (s : State) : (returnFromActivation s).sched = s.sched := rfl

/-! ### `startMain` -/

@[simp] theorem startMain_params (acts : List Action) (s : State) : (startMain acts s).params = s.params := rfl
@[simp] theorem startMain_level (acts : List Action) (s : State) : (startMain acts s).level = s.level := rfl
@[simp] theorem startMain_pins (acts : List Action) (s : State) : (startMain acts s).pins = s.pins := rfl
@[simp] theorem startMain_btnMode (acts : List Action) (s : State) : (startMain acts s).btnMode = s.btnMode := rfl
@[simp] theorem startMain_btnIn (acts : List Action) (s : State) : (startMain acts s).btnIn = s.btnIn := rfl
@[simp] theorem startMain_btnPrev (acts : List Action) (s : State) : (startMain acts s).btnPrev = s.btnPrev := rfl
@[simp] theorem startMain_ie (acts : List Action) (s : State) : (startMain acts s).ie = s.ie := rfl
@[simp] theorem startMain_pcintEn (acts : List Action) (s : State) : (startMain acts s).pcintEn = s.pcintEn := rfl
@[simp] theorem startMain_sleepMode (acts : List Action) (s : State) : (startMain acts s).sleepMode = s.sleepMode := rfl
@[simp] theorem startMain_se (acts : List Action) (s : State) : (startMain acts s).se = s.se := rfl
@[simp] theorem startMain_asleep (acts : List Action) (s : State) : (startMain acts s).asleep = s.asleep := rfl
@[simp] theorem startMain_pending (acts : List Action) (s : State) : (startMain acts s).pending = s.pending := rfl
@[simp] theorem startMain_dispState (acts : List Action) (s : State) : (startMain acts s).dispState = s.dispState := rfl
@[simp] theorem startMain_mainSeq (acts : List Action) (s : State) : (startMain acts s).mainSeq = acts ++ s.mainSeq := rfl
@[simp] theorem startMain_mainJobs (acts : List Action) (s : State) : (startMain acts s).mainJobs = s.mainJobs := rfl
@[simp] theorem startMain_requests (acts : List Action) (s : State) : (startMain acts s).requests = s.requests := rfl
@[simp] theorem startMain_frames (acts : List Action) (s : State) : (startMain acts s).frames = s.frames := rfl
@[simp] theorem startMain_traceRev (acts : List Action) (s : State) : (startMain acts s).traceRev = s.traceRev := rfl
@[simp] theorem startMain_rx (acts : List Action) (s : State) : (startMain acts s).rx = s.rx := rfl
@[simp] theorem startMain_sched (acts : List Action) (s : State) : (startMain acts s).sched = s.sched := rfl

/-! ### `afterByte` -/

@[simp] theorem afterByte_params (b : Byte) (s : State) : (s.afterByte b).params = s.params := rfl
@[simp] theorem afterByte_level (b : Byte) (s : State) : (s.afterByte b).level = s.level := rfl
@[simp] theorem afterByte_btnMode (b : Byte) (s : State) : (s.afterByte b).btnMode = s.btnMode := rfl
@[simp] theorem afterByte_btnIn (b : Byte) (s : State) : (s.afterByte b).btnIn = s.btnIn := rfl
@[simp] theorem afterByte_btnPrev (b : Byte) (s : State) : (s.afterByte b).btnPrev = s.btnPrev := rfl
@[simp] theorem afterByte_ie (b : Byte) (s : State) : (s.afterByte b).ie = s.ie := rfl
@[simp] theorem afterByte_pcintEn (b : Byte) (s : State) : (s.afterByte b).pcintEn = s.pcintEn := rfl
@[simp] theorem afterByte_sleepMode (b : Byte) (s : State) : (s.afterByte b).sleepMode = s.sleepMode := rfl
@[simp] theorem afterByte_se (b : Byte) (s : State) : (s.afterByte b).se = s.se := rfl
@[simp] theorem afterByte_asleep (b : Byte) (s : State) : (s.afterByte b).asleep = s.asleep := rfl
@[simp] theorem afterByte_pending (b : Byte) (s : State) : (s.afterByte b).pending = s.pending := rfl
@[simp] theorem afterByte_dispState (b : Byte) (s : State) : (s.afterByte b).dispState = s.dispState := rfl
@[simp] theorem afterByte_mainSeq (b : Byte) (s : State) : (s.afterByte b).mainSeq = s.mainSeq := rfl
@[simp] theorem afterByte_mainJobs (b : Byte) (s : State) : (s.afterByte b).mainJobs = s.mainJobs := rfl
@[simp] theorem afterByte_requests (b : Byte) (s : State) : (s.afterByte b).requests = s.requests := rfl
@[simp] theorem afterByte_frames (b : Byte) (s : State) : (s.afterByte b).frames = s.frames := rfl
@[simp] theorem afterByte_traceRev (b : Byte) (s : State) : (s.afterByte b).traceRev = (byteEvents b).reverse ++ s.traceRev := rfl
@[simp] theorem afterByte_sched (b : Byte) (s : State) : (s.afterByte b).sched = s.sched := rfl

/-! ### `afterSelect` -/

@[simp] theorem afterSelect_params (d : Bit) (s : State) : (s.afterSelect d).params = s.params := rfl
@[simp] theorem afterSelect_level (d : Bit) (s : State) : (s.afterSelect d).level = s.level := rfl
@[simp] theorem afterSelect_btnMode (d : Bit) (s : State) : (s.afterSelect d).btnMode = s.btnMode := rfl
@[simp] theorem afterSelect_btnIn (d : Bit) (s : State) : (s.afterSelect d).btnIn = s.btnIn := rfl
@[simp] theorem afterSelect_btnPrev (d : Bit) (s : State) : (s.afterSelect d).btnPrev = s.btnPrev := rfl
@[simp] theorem afterSelect_ie (d : Bit) (s : State) : (s.afterSelect d).ie = s.ie := rfl
@[simp] theorem afterSelect_pcintEn (d : Bit) (s : State) : (s.afterSelect d).pcintEn = s.pcintEn := rfl
@[simp] theorem afterSelect_sleepMode (d : Bit) (s : State) : (s.afterSelect d).sleepMode = s.sleepMode := rfl
@[simp] theorem afterSelect_se (d : Bit) (s : State) : (s.afterSelect d).se = s.se := rfl
@[simp] theorem afterSelect_asleep (d : Bit) (s : State) : (s.afterSelect d).asleep = s.asleep := rfl
@[simp] theorem afterSelect_pending (d : Bit) (s : State) : (s.afterSelect d).pending = s.pending := rfl
@[simp] theorem afterSelect_dispState (d : Bit) (s : State) : (s.afterSelect d).dispState = s.dispState := rfl
@[simp] theorem afterSelect_mainSeq (d : Bit) (s : State) : (s.afterSelect d).mainSeq = s.mainSeq := rfl
@[simp] theorem afterSelect_mainJobs (d : Bit) (s : State) : (s.afterSelect d).mainJobs = s.mainJobs := rfl
@[simp] theorem afterSelect_requests (d : Bit) (s : State) : (s.afterSelect d).requests = s.requests := rfl
@[simp] theorem afterSelect_frames (d : Bit) (s : State) : (s.afterSelect d).frames = s.frames := rfl
@[simp] theorem afterSelect_traceRev (d : Bit) (s : State) : (s.afterSelect d).traceRev = .set .dc d :: s.traceRev := rfl
@[simp] theorem afterSelect_rx (d : Bit) (s : State) : (s.afterSelect d).rx = s.rx := rfl
@[simp] theorem afterSelect_sched (d : Bit) (s : State) : (s.afterSelect d).sched = s.sched := rfl

/-! ### Pins -/

@[simp] theorem Pins.get_set (ps : Pins) (p q : OPin) (v : PinState) :
    (ps.set p v).get q = if q = p then v else ps.get q := by
  cases p <;> cases q <;> rfl

@[simp] theorem Pins.get_drive_mode (ps : Pins) (p q : OPin) (v : Bit) :
    ((ps.drive p v).get q).mode = (ps.get q).mode := by
  cases p <;> cases q <;> rfl

@[simp] theorem Pins.get_drive_out (ps : Pins) (p q : OPin) (v : Bit) :
    ((ps.drive p v).get q).out = if q = p then v else (ps.get q).out := by
  cases p <;> cases q <;> rfl

@[simp] theorem Pins.get_configure_out (ps : Pins) (p q : OPin) :
    ((ps.configure p).get q).out = (ps.get q).out := by
  cases p <;> cases q <;> rfl

@[simp] theorem Pins.get_configure_mode (ps : Pins) (p q : OPin) :
    ((ps.configure p).get q).mode = if q = p then .out else (ps.get q).mode := by
  cases p <;> cases q <;> rfl

/-- Two pin sets that agree on every pin are equal. -/
theorem Pins.ext_get {ps qs : Pins} (h : ∀ p, ps.get p = qs.get p) : ps = qs := by
  cases ps; cases qs
  have h1 := h .sclk; have h2 := h .sdin; have h3 := h .dc; have h4 := h .rst; have h5 := h .led
  simp only [Pins.get] at h1 h2 h3 h4 h5
  subst h1 h2 h3 h4 h5; rfl

end Sys2Proof.Machine
end

