-- ==== Sys2Proof/Laws/Run.lean ====
section
/-! SUPPORT. Laws/Run.lean: how a run unfolds: one step of the main context or of a handler frame,
and a list of actions run to its end. -/

namespace Sys2Proof.Machine

@[simp] theorem runs_zero (s : State) : runs 0 s = .next s := rfl

/-- One step, then the rest. -/
theorem runs_succ {n : Nat} {s t : State} (h : step s = .next t) : runs (n + 1) s = runs n t := by
  have h' : Sys2Proof.core.step s = .next t := h
  simp only [runs, Host.Core.run, h']; rfl

theorem runs_succ_fault {n : Nat} {s : State} {r : Fault} (h : step s = .fault r) :
    runs (n + 1) s = .fault r := by
  have h' : Sys2Proof.core.step s = .fault r := h
  simp only [runs, Host.Core.run, h']; rfl

theorem runs_succ_refused {n : Nat} {s : State} {r : Refusal} (h : step s = .refused r) :
    runs (n + 1) s = .refused r := by
  have h' : Sys2Proof.core.step s = .refused r := h
  simp only [runs, Host.Core.run, h']; rfl

theorem runs_one (s : State) : runs 1 s = step s := by
  cases h : step s with
  | next t => rw [runs_succ h]; rfl
  | fault r => exact runs_succ_fault h
  | refused r => exact runs_succ_refused h

/-- A run of `m + n` steps is a run of `m`, then one of `n`. -/
theorem runs_add {m n : Nat} {s t : State} (h : runs m s = .next t) :
    runs (m + n) s = runs n t := by
  induction m generalizing s with
  | zero => cases h; simp
  | succ m ih =>
    cases hs : step s with
    | next u =>
      rw [runs_succ hs] at h
      rw [show m + 1 + n = (m + n) + 1 by omega, runs_succ hs]
      exact ih h
    | fault r => rw [runs_succ_fault hs] at h; cases h
    | refused r => rw [runs_succ_refused hs] at h; cases h

/-! ### What moves next -/

/-- Undisturbed, the running context moves. -/
theorem nextMove_undisturbed {s : State} (h : s.Undisturbed) : nextMove s = contextMove s := by
  unfold nextMove
  rw [h.noLatched, h.noTurn]; rfl

/-- A device turn gives the running context its move. -/
theorem nextMove_device {s : State} {more : List Turn} (hl : (s.pending && s.ie) = false)
    (hs : s.sched = .device :: more) : nextMove s = contextMove { s with sched := more } := by
  unfold nextMove
  rw [hl, hs]; rfl

/-- Undisturbed, the main context performs its next action. -/
theorem step_main_action {s : State} {a : Action} {more : List Action} (h : s.Undisturbed)
    (hf : s.frames = []) (hm : s.mainSeq = a :: more) :
    step s = perform a { s with mainSeq := more } := by
  unfold step
  rw [nextMove_undisturbed h]
  simp [contextMove, mainMove, h.awake, hf, hm]

/-- Undisturbed, the head frame performs its next action. -/
theorem step_frame_action {s : State} {a : Action} {more : List Action} {below : List Frame}
    (h : s.Undisturbed) (hf : s.frames = ⟨a :: more⟩ :: below) :
    step s = perform a { s with frames := ⟨more⟩ :: below } := by
  unfold step
  rw [nextMove_undisturbed h]
  simp [contextMove, h.awake, hf]

/-- On a device turn, the head frame performs its next action. -/
theorem step_frame_turn {s : State} {a : Action} {more : List Action} {below : List Frame}
    {turns : List Turn} (hl : (s.pending && s.ie) = false) (hw : s.asleep = false)
    (hs : s.sched = .device :: turns) (hf : s.frames = ⟨a :: more⟩ :: below) :
    step s = perform a { s with sched := turns, frames := ⟨more⟩ :: below } := by
  unfold step
  rw [nextMove_device hl hs]
  simp [contextMove, hw, hf]

/-! ### Lists of actions -/

/-- Apply `f` to a next state. -/
def mapNext (f : State → State) : Result → Result
  | .next t => .next (f t)
  | .fault r => .fault r
  | .refused r => .refused r

/-- The actions in turn, with nothing between them. -/
def performAll : List Action → State → Result
  | [], s => .next s
  | a :: as, s =>
    match perform a s with
    | .next t => performAll as t
    | .fault r => .fault r
    | .refused r => .refused r

theorem performAll_append {as bs : List Action} {s t : State} (h : performAll as s = .next t) :
    performAll (as ++ bs) s = performAll bs t := by
  induction as generalizing s with
  | nil => cases h; rfl
  | cons a as ih =>
    simp only [performAll, List.cons_append] at h ⊢
    cases ha : perform a s with
    | next u => rw [ha] at h; exact ih h
    | fault r => rw [ha] at h; cases h
    | refused r => rw [ha] at h; cases h

/-- Actions that leave the contexts, the masking and the schedule alone: pins, delays, levels and
the driver's state. -/
def Action.isPlain : Action → Bool
  | .pinCfg _ | .pinWrite _ _ | .delay _ _ | .levelWrite _ | .dispWrite _ | .setLevel _
  | .btnCfg | .pcieWrite _ | .smWrite _ | .seWrite _ => true
  | .ieWrite _ | .sleepCpu | .ret => false

/-- A plain action neither reads nor writes the main context's sequence. -/
theorem perform_plain_mainSeq {a : Action} (ha : a.isPlain = true) (more : List Action)
    (s : State) :
    perform a { s with mainSeq := more } =
      mapNext (fun t => { t with mainSeq := more }) (perform a s) := by
  cases a <;> simp [Action.isPlain] at ha <;>
    first
    | rfl
    | (simp only [perform, setLevelNow, pinWrite]
       repeat' split
       all_goals rfl)

/-- What a plain action leaves alone. -/
theorem perform_plain {a : Action} (ha : a.isPlain = true) {s t : State}
    (h : perform a s = .next t) :
    t.sched = s.sched ∧ t.asleep = s.asleep ∧ t.frames = s.frames ∧ t.ie = s.ie ∧
      t.pending = s.pending ∧ t.mainSeq = s.mainSeq ∧ t.mainJobs = s.mainJobs ∧
      t.requests = s.requests ∧ t.params = s.params := by
  cases a <;> simp only [Action.isPlain, Bool.false_eq_true] at ha <;>
    simp only [perform, setLevelNow, pinWrite] at h
  all_goals
    repeat' split at h
    all_goals first | (cases h; exact ⟨rfl, rfl, rfl, rfl, rfl, rfl, rfl, rfl, rfl⟩) | cases h

/-- A plain action keeps an undisturbed state undisturbed. -/
theorem perform_plain_undisturbed {a : Action} (ha : a.isPlain = true) {s t : State}
    (h : perform a s = .next t) (hs : s.Undisturbed) : t.Undisturbed := by
  obtain ⟨h1, h2, _, h4, h5, _⟩ := perform_plain ha h
  exact ⟨h1.trans hs.noTurn, by rw [h4, h5]; exact hs.noLatched, h2.trans hs.awake⟩

/-- Undisturbed, plain actions at the front of the main context run to their end, one step each. -/
theorem runs_main_plain {as more : List Action} {s t : State}
    (hp : ∀ a ∈ as, a.isPlain = true) (hu : s.Undisturbed) (hf : s.frames = [])
    (h : performAll as s = .next t) :
    runs as.length { s with mainSeq := as ++ more } = .next { t with mainSeq := more } := by
  induction as generalizing s with
  | nil => cases h; rfl
  | cons a as ih =>
    have ha := hp a (by simp)
    simp only [performAll] at h
    cases hs : perform a s with
    | fault r => rw [hs] at h; cases h
    | refused r => rw [hs] at h; cases h
    | next u =>
      rw [hs] at h
      have hstep : step { s with mainSeq := a :: as ++ more } =
          .next { u with mainSeq := as ++ more } := by
        rw [step_main_action (s := { s with mainSeq := a :: as ++ more })
          (a := a) (more := as ++ more) ⟨hu.noTurn, hu.noLatched, hu.awake⟩ hf rfl]
        have := perform_plain_mainSeq ha (as ++ more) s
        rw [hs] at this
        exact this
      rw [List.length_cons, runs_succ hstep]
      obtain ⟨_, _, h3, _⟩ := perform_plain ha hs
      exact ih (fun b hb => hp b (by simp [hb])) (perform_plain_undisturbed ha hs hu)
        (h3.trans hf) h

end Sys2Proof.Machine
end

