-- ==== Sys2Proof/Laws/Step.lean ====
section
/-! SUPPORT. Laws/Step.lean: everything a step can do, said once: `step_cases`, and what starting an
instruction can do. -/

namespace Sys2Proof.Machine

/-- A decoded instruction is a request (30_encoding.md R69). -/
theorem decode_isRequest {bs rest : List Byte} {i : Instr} (h : decode bs = .ok i rest) :
    i.isRequest = true := by
  cases bs with
  | nil => cases h
  | cons op bs =>
    simp only [decode, decodeOp] at h
    split at h
    all_goals
      try unfold operands0 at h
      try unfold operands1 at h
      try unfold operands2 at h
      try unfold operandsChar at h
      try unfold operandsStr at h
      repeat' split at h
      all_goals first | (cases h; rfl) | cases h

/-- What the main context's move can be (10_state.md R34, R36). -/
theorem mainMove_cases (s : State) :
    (∃ a more, s.mainSeq = a :: more ∧ mainMove s = .act a { s with mainSeq := more }) ∨
    (∃ a more, s.mainSeq = [] ∧ s.mainJobs = .act a :: more ∧
      mainMove s = .act a { s with mainJobs := more }) ∨
    (∃ i more, s.mainSeq = [] ∧ s.mainJobs = .op i :: more ∧
      mainMove s = .op i { s with mainJobs := more }) ∨
    (∃ i rest, s.mainSeq = [] ∧ s.mainJobs = [] ∧ s.requests ≠ [] ∧
      decode s.requests = .ok i rest ∧ mainMove s = .op i { s with requests := rest }) ∨
    (∃ r rest, s.mainSeq = [] ∧ s.mainJobs = [] ∧ s.requests ≠ [] ∧
      decode s.requests = .refuse r rest ∧
      mainMove s = .refuse (refusalOf r { s with requests := rest })) ∨
    (s.mainSeq = [] ∧ s.mainJobs = [] ∧ s.requests = [] ∧ mainMove s = .rest s) := by
  unfold mainMove
  split
  · rename_i a more hm
    exact .inl ⟨a, more, hm, rfl⟩
  · rename_i hm
    refine .inr ?_
    split
    · rename_i a more hj
      exact .inl ⟨a, more, hm, hj, rfl⟩
    · rename_i i more hj
      exact .inr (.inl ⟨i, more, hm, hj, rfl⟩)
    · rename_i hj
      refine .inr (.inr ?_)
      unfold requestMove
      split
      · rename_i hr
        exact .inr (.inr ⟨hm, hj, hr, rfl⟩)
      · rename_i b bs hr
        rw [hr]
        split
        · rename_i i rest hd
          exact .inl ⟨i, rest, hm, hj, by simp, hd, rfl⟩
        · rename_i r rest hd
          exact .inr (.inl ⟨r, rest, hm, hj, by simp, hd, rfl⟩)

/-- What the running context does on a device turn that answers `t` (R34, R36). -/
structure ContextStep (s : State) (turns : List Turn) (t : State) : Prop where
  cases :
    t = { s with sched := turns } ∨
    (s.asleep = false ∧
      ((∃ a more below, s.frames = ⟨a :: more⟩ :: below ∧
          perform a { s with sched := turns, frames := ⟨more⟩ :: below } = .next t) ∨
        (s.frames = [] ∧
          ((∃ a more, s.mainSeq = a :: more ∧
              perform a { s with sched := turns, mainSeq := more } = .next t) ∨
            (s.mainSeq = [] ∧
              ((∃ a more, s.mainJobs = .act a :: more ∧
                  perform a { s with sched := turns, mainJobs := more } = .next t) ∨
                (∃ i more, s.mainJobs = .op i :: more ∧
                  exec i { s with sched := turns, mainJobs := more } = .next t) ∨
                (∃ i rest, s.mainJobs = [] ∧ s.requests ≠ [] ∧ i.isRequest = true ∧
                  exec i { s with sched := turns, requests := rest } = .next t)))))))

/-- What a move answers. -/
def runMove (m : Move) : Result :=
  match m with
  | .activate s' => enterActivation s'
  | .button b s' => buttonTurn b s'
  | .act a s' => perform a s'
  | .op i s' => exec i s'
  | .refuse r => .refused r
  | .rest s' => .next s'

theorem step_eq (s : State) : step s = runMove (nextMove s) := rfl

/-- The running context's move on a device turn. -/
theorem contextMove_next {s t : State} {turns : List Turn}
    (h : runMove (contextMove { s with sched := turns }) = .next t) : ContextStep s turns t := by
  constructor
  unfold contextMove at h
  by_cases ha : s.asleep = true
  · rw [if_pos ha] at h
    cases h; exact .inl rfl
  rw [if_neg ha] at h
  have ha : s.asleep = false := by simpa using ha
  split at h
  · rename_i a more below hf
    exact .inr ⟨ha, .inl ⟨a, more, below, hf, h⟩⟩
  · cases h; exact .inl rfl
  · rename_i hf
    rcases mainMove_cases { s with sched := turns } with ⟨a, more, h1, h2⟩ |
      ⟨a, more, h1, h2, h3⟩ | ⟨i, more, h1, h2, h3⟩ | ⟨i, rest, h1, h2, h3, h4, h5⟩ |
      ⟨r, rest, _, _, _, _, h5⟩ | ⟨_, _, _, h5⟩
    · rw [h2] at h; exact .inr ⟨ha, .inr ⟨hf, .inl ⟨a, more, h1, h⟩⟩⟩
    · rw [h3] at h; exact .inr ⟨ha, .inr ⟨hf, .inr ⟨h1, .inl ⟨a, more, h2, h⟩⟩⟩⟩
    · rw [h3] at h; exact .inr ⟨ha, .inr ⟨hf, .inr ⟨h1, .inr (.inl ⟨i, more, h2, h⟩)⟩⟩⟩
    · rw [h5] at h
      exact .inr ⟨ha,
        .inr ⟨hf, .inr ⟨h1, .inr (.inr ⟨i, rest, h2, h3, decode_isRequest h4, h⟩)⟩⟩⟩
    · rw [h5] at h; cases h
    · rw [h5] at h; cases h; exact .inl rfl

/-- Everything a step can do: start a latched edge's activation, take the environment's turn, or give
the running context its move. -/
theorem step_cases {s t : State} (h : step s = .next t) :
    (s.pending = true ∧ s.ie = true ∧ enterActivation s = .next t) ∨
    ((s.pending && s.ie) = false ∧ ∃ turns,
      (∃ b, s.sched = .button b :: turns ∧ buttonTurn b { s with sched := turns } = .next t) ∨
      ((s.sched = [] ∧ turns = [] ∨ s.sched = .device :: turns) ∧ ContextStep s turns t)) := by
  have hd : ∀ turns, runMove (contextMove { s with sched := turns }) = .next t →
      ContextStep s turns t := fun turns h => contextMove_next h
  rw [step_eq] at h
  unfold nextMove at h
  by_cases hp : (s.pending && s.ie) = true
  · rw [if_pos hp] at h
    rw [Bool.and_eq_true] at hp
    exact .inl ⟨hp.1, hp.2, h⟩
  · refine .inr ⟨by simpa using hp, ?_⟩
    rw [if_neg hp] at h
    cases hs : s.sched with
    | nil =>
      rw [hs] at h
      exact ⟨[], .inr ⟨.inl ⟨rfl, rfl⟩, hd [] (by rw [← hs]; exact h)⟩⟩
    | cons turn turns =>
      rw [hs] at h
      cases turn with
      | device => exact ⟨turns, .inr ⟨.inr rfl, hd turns h⟩⟩
      | button b => exact ⟨turns, .inl ⟨b, rfl, h⟩⟩

/-! ### What the operations answer -/

theorem pinWrite_next {p : OPin} {v : Bit} {a : Action} {s t : State}
    (h : pinWrite p v a s = .next t) : (s.pins.get p).mode = .out ∧ t = s.drive p v := by
  unfold pinWrite at h
  split at h
  · cases h; exact ⟨by assumption, rfl⟩
  · cases h

/-- What a performed action did, action by action (00_scope.md R15). -/
theorem perform_next {a : Action} {s t : State} (h : perform a s = .next t) :
    match a with
    | .pinCfg p => t = pinConfigure p s
    | .btnCfg => t = buttonConfigure s
    | .pinWrite p v => (s.pins.get p).mode = .out ∧ t = s.drive p v
    | .delay k d => t = s.emit (.wait k d)
    | .ieWrite b => t = { s with ie := b }
    | .smWrite m => t = { s with sleepMode := m }
    | .seWrite b => t = { s with se := b }
    | .sleepCpu =>
      s.se = true ∧ s.sleepMode = .powerDown ∧
          t = { s with ie := true, asleep := true, traceRev := .sleep :: s.traceRev } ∨
        s.se = false ∧ t = { s with ie := true }
    | .levelWrite v => t = { s with level := v }
    | .dispWrite d => t = { s with dispState := d }
    | .pcieWrite b => t = { s with pcintEn := b }
    | .setLevel v =>
      clamp v = 0 ∧ s.pins.led.mode = .out ∧ t = State.drive .led false { s with level := 0 } ∨
        clamp v ≠ 0 ∧ t = { s with level := clamp v }
    | .ret => t = returnFromActivation s := by
  cases a <;> simp only [perform] at h ⊢
  case pinWrite => exact pinWrite_next h
  case sleepCpu =>
    unfold sleepNow at h
    split at h
    · split at h
      · cases h; exact .inl ⟨by assumption, by assumption, rfl⟩
      · cases h
    · cases h; exact .inr ⟨by simp_all, rfl⟩
  case setLevel =>
    unfold setLevelNow at h
    split at h
    · exact .inl ⟨by assumption, pinWrite_next h⟩
    · cases h; exact .inr ⟨by assumption, rfl⟩
  all_goals (cases h; rfl)

/-- What activation entry did (60_exceptions.md R125). -/
theorem enterActivation_next {s t : State} (h : enterActivation s = .next t) :
    s.frames.length + 1 ≤ s.params.nestLimit ∧
    t = { s.woken with
      ie := false, pending := false
      frames := ⟨handlerActions s.params s.level⟩ :: s.frames } := by
  have e : s.woken.params = s.params ∧ s.woken.frames = s.frames ∧ s.woken.level = s.level := by
    unfold State.woken; split <;> exact ⟨rfl, rfl, rfl⟩
  unfold enterActivation at h
  simp only [State.depth, e] at h
  split at h
  · cases h
  · cases h
    refine ⟨by omega, ?_⟩
    unfold State.woken
    split <;> rfl

/-- What the delivery of an edge did (45_power_interrupt.md R108, 60_exceptions.md R126). -/
theorem deliverEdge_next {s t : State} (h : deliverEdge s = .next t) :
    t = s ∨ (s.ie = false ∧ s.params.edgeLatch = true ∧ t = { s with pending := true }) ∨
      (s.pcintEn = true ∧ s.ie = true ∧ enterActivation s = .next t) := by
  unfold deliverEdge at h
  split at h
  · cases h; exact .inl rfl
  · rename_i hp
    split at h
    · exact .inr (.inr ⟨by simpa using hp, by assumption, h⟩)
    · rename_i hi
      split at h
      · cases h; exact .inr (.inl ⟨by simpa using hi, by assumption, rfl⟩)
      · cases h; exact .inl rfl

/-- What the environment's turn did (45_power_interrupt.md R107). -/
theorem buttonTurn_next {b : Bit} {s t : State} (h : buttonTurn b s = .next t) :
    ∃ prev, let u := { s with btnIn := b, btnPrev := prev }
      t = u ∨ (u.ie = false ∧ u.params.edgeLatch = true ∧ t = { u with pending := true }) ∨
        (u.pcintEn = true ∧ u.ie = true ∧ enterActivation u = .next t) := by
  have e : ∃ prev, buttonLevel b s = { s with btnIn := b, btnPrev := prev } := by
    unfold buttonLevel; split <;> exact ⟨_, rfl⟩
  obtain ⟨prev, e⟩ := e
  refine ⟨prev, ?_⟩
  unfold buttonTurn at h
  rw [e] at h
  split at h
  · exact deliverEdge_next h
  · cases h; exact .inl rfl

/-! ### What starting an instruction can do -/

theorem startDisplay_next {i : Instr} {acts : List Action} {s t : State}
    (h : startDisplay i acts s = .next t) : t = startMain acts s := by
  unfold startDisplay at h
  split at h
  · cases h; rfl
  · cases h

/-- A request that starts gives the main context its actions; LOOP stands next on the boot list
again (R34, 70 R140). -/
theorem exec_request {i : Instr} {s t : State} (hi : i.isRequest = true)
    (h : exec i s = .next t) :
    ∃ acts, t = startMain acts s ∨
      i = .loop ∧ t = startMain acts { s with mainJobs := .op .loop :: s.mainJobs } := by
  cases i <;> simp only [Instr.isRequest, Bool.false_eq_true] at hi <;> simp only [exec] at h
  case init =>
    unfold execInit at h
    split at h
    · cases h; exact ⟨_, .inl rfl⟩
    · cases h
  case char =>
    unfold execChar at h
    split at h
    · exact ⟨_, .inl (startDisplay_next h)⟩
    · cases h
  case str =>
    unfold execStr at h
    split at h
    · split at h
      · exact ⟨_, .inl (startDisplay_next h)⟩
      · split at h <;> cases h
    · cases h
  case setlvl => cases h; exact ⟨_, .inl rfl⟩
  case tick => cases h; exact ⟨_, .inl rfl⟩
  case loop => cases h; exact ⟨_, .inr ⟨rfl, rfl⟩⟩
  all_goals exact ⟨_, .inl (startDisplay_next h)⟩

end Sys2Proof.Machine
end

