-- ==== Sys2Proof/Laws/Decode.lean ====
section
/-! SUPPORT. Laws/Decode.lean: the pieces of the decoder: the text of STR, SETLVL's two bytes, the
command byte of a wire word. -/

namespace Sys2Proof

theorem sizeOk_iff (size : Byte) : sizeOk size = true ↔ size = 1 ∨ size = 2 := by
  simp only [sizeOk, Bool.or_eq_true, beq_iff_eq]

theorem textOk_cons (b c : Byte) (cs : List Byte) :
    textOk (b :: c :: cs) = true ↔ b ≠ 0 ∧ textOk (c :: cs) = true := by
  simp only [textOk, Bool.and_eq_true, bne_iff_ne]

/-- A terminated text is read whole (30_encoding.md R66, R74). -/
theorem takeText_append {text : List Byte} (rest : List Byte) (h : textOk text = true) :
    takeText (text ++ rest) = some (text, rest) := by
  induction text with
  | nil => cases h
  | cons b bs ih =>
    cases bs with
    | nil =>
      have hb : b = 0 := by simpa only [textOk, beq_iff_eq] using h
      subst hb; rfl
    | cons c cs =>
      rw [textOk_cons] at h
      rw [List.cons_append, takeText, if_neg h.1, ih h.2]
      rfl

/-- What is read is a terminated text. -/
theorem takeText_some {bs text rest : List Byte} (h : takeText bs = some (text, rest)) :
    bs = text ++ rest ∧ textOk text = true := by
  induction bs generalizing text with
  | nil => cases h
  | cons b bs ih =>
    simp only [takeText] at h
    split at h
    · rename_i hb; cases h; exact ⟨rfl, by simp [textOk, hb]⟩
    · rename_i hb
      cases hq : takeText bs with
      | none => rw [hq] at h; cases h
      | some q =>
        rw [hq] at h
        obtain ⟨t, r⟩ := q
        cases h
        obtain ⟨h1, h2⟩ := ih hq
        refine ⟨by simp [h1], ?_⟩
        cases t with
        | nil => cases h2
        | cons c cs => exact (textOk_cons _ _ _).2 ⟨hb, h2⟩

/-- A text cut short has no terminator (R70). -/
theorem takeText_take {text : List Byte} {n : Nat} (h : textOk text = true)
    (hn : n < text.length) : takeText (text.take n) = none := by
  induction text generalizing n with
  | nil => cases h
  | cons b bs ih =>
    cases n with
    | zero => rfl
    | succ n =>
      cases bs with
      | nil => simp at hn
      | cons c cs =>
        rw [textOk_cons] at h
        rw [List.take_succ_cons, takeText, if_neg h.1, ih h.2 (by simpa using hn)]
        rfl

/-- SETLVL's operand as a number: low byte first (30_encoding.md R68). -/
theorem i16OfBytes_toNat (lo hi : Byte) :
    (i16OfBytes lo hi).toNat = 256 * hi.toNat + lo.toNat := by
  unfold i16OfBytes
  rw [BitVec.toNat_append, ← Nat.shiftLeft_add_eq_or_of_lt lo.isLt, Nat.shiftLeft_eq]
  omega

/-- The two bytes of SETLVL's operand. -/
theorem i16OfBytes_bytes (lo hi : Byte) :
    (i16OfBytes lo hi).setWidth 8 = lo ∧ (i16OfBytes lo hi).extractLsb' 8 8 = hi := by
  have h1 := lo.isLt
  have h2 := hi.isLt
  constructor <;> apply BitVec.eq_of_toNat_eq
  · rw [BitVec.toNat_setWidth, i16OfBytes_toNat]; omega
  · rw [BitVec.extractLsb'_toNat, i16OfBytes_toNat, Nat.shiftRight_eq_div_pow]; omega

theorem i16OfBytes_split (v : I16) : i16OfBytes (v.setWidth 8) (v.extractLsb' 8 8) = v := by
  apply BitVec.eq_of_toNat_eq
  have := v.isLt
  rw [i16OfBytes_toNat, BitVec.toNat_setWidth, BitVec.extractLsb'_toNat,
    Nat.shiftRight_eq_div_pow]
  omega

/-- The row that names a command byte has that byte (30_encoding.md R64). -/
theorem commandByte_decodeCommand (b : Byte) : commandByte (decodeCommand b) = some b := by
  revert b; decide

namespace Machine

/-- A command word's instruction is the receiver's taking of its byte. -/
theorem exec_decodeCommand (b : Byte) (s : State) :
    exec (decodeCommand b) s = .next (receiveWord true b s) := by
  have h := commandByte_decodeCommand b
  unfold decodeCommand at h ⊢
  repeat' split at h
  all_goals simp_all [commandByte, exec, execSetX, execSetY, execFsetExt, execFsetNorm,
    execDispNormal, execContrastBias]

/-- A wire word's instruction is the receiver's taking of its byte, a command or data (R64). -/
theorem exec_decodeWire (isCommand : Bool) (b : Byte) (s : State) :
    exec (decodeWire ((if isCommand then 0 else 1 : BitVec 1) ++ b)) s =
      .next (receiveWord isCommand b s) := by
  have h1 : ∀ b : Byte, decodeWire (1#1 ++ b) = .data b := by decide
  have h0 : ∀ b : Byte, decodeWire (0#1 ++ b) = decodeCommand b := by decide
  cases isCommand
  · exact (congrArg (exec · s) (h1 b)).trans rfl
  · exact (congrArg (exec · s) (h0 b)).trans (exec_decodeCommand b s)

end Machine

end Sys2Proof
end

