-- ==== Sys2Proof/Laws/Wire.lean ====
section
/-! SUPPORT. Laws/Wire.lean: what the transmission of bits, bytes and wire words does to the state
(40_serial_transmitter.md, 41_display_channel.md). -/

namespace Sys2Proof.Machine

/-- A pin write on a configured pin. -/
theorem perform_pinWrite {p : OPin} {v : Bit} {s : State} (h : (s.pins.get p).mode = .out) :
    perform (.pinWrite p v) s = .next (s.drive p v) := by
  simp [perform, pinWrite, h]

/-- The two bus pins are outputs and the clock is idle. -/
structure State.ClockIdle (s : State) : Prop where
  sclk : s.pins.sclk = ⟨.out, false⟩
  sdin : s.pins.sdin.mode = .out

/-- The state after one bit (R76, 20_memory.md R59). -/
def State.afterBit (s : State) (v : Bit) : State :=
  { s with
    pins := { s.pins with
      sclk := { s.pins.sclk with out := false }
      sdin := { s.pins.sdin with out := v } }
    traceRev := [.set .sclk false, .set .sclk true, .set .sdin v] ++ s.traceRev
    rx := if s.pins.rst.out then s.rx.sample s.selectsCommand v else s.rx }

theorem performAll_bit {s : State} (v : Bit) (h : s.ClockIdle) :
    performAll (bitActions v) s = .next (s.afterBit v) := by
  obtain ⟨h1, h2⟩ := h
  have a1 : perform (.pinWrite .sdin v) s = .next (s.drive .sdin v) := perform_pinWrite h2
  have a2 : perform (.pinWrite .sclk true) (s.drive .sdin v) =
      .next ((s.drive .sdin v).drive .sclk true) :=
    perform_pinWrite (by show s.pins.sclk.mode = .out; rw [h1])
  have a3 : perform (.pinWrite .sclk false) ((s.drive .sdin v).drive .sclk true) =
      .next (((s.drive .sdin v).drive .sclk true).drive .sclk false) :=
    perform_pinWrite (by show s.pins.sclk.mode = .out; rw [h1])
  simp only [bitActions, performAll, a1, a2, a3]
  simp only [State.drive, State.rxAfterWrite, State.afterBit, Pins.drive, Pins.set, Pins.get, h1,
    State.selectsCommand]
  simp

theorem State.ClockIdle.afterBit {s : State} (v : Bit) (h : s.ClockIdle) :
    (s.afterBit v).ClockIdle :=
  ⟨by show PinState.mk s.pins.sclk.mode false = _; rw [h.sclk], h.sdin⟩

theorem performAll_bits {s : State} (bits : List Bit) (h : s.ClockIdle) :
    performAll (bits.flatMap bitActions) s = .next (bits.foldl State.afterBit s) := by
  induction bits generalizing s with
  | nil => rfl
  | cons v vs ih =>
    rw [List.flatMap_cons, performAll_append (performAll_bit v h)]
    exact ih (h.afterBit v)

/-- Bits, one after the other, under RST high. -/
theorem foldl_afterBit_high (bits : List Bit) (v : Bit) (s : State) (hr : s.pins.rst.out = true) :
    (bits ++ [v]).foldl State.afterBit s =
      { s with
        pins := { s.pins with
          sclk := { s.pins.sclk with out := false }
          sdin := { s.pins.sdin with out := v } }
        traceRev :=
          ((bits ++ [v]).flatMap fun b =>
            [.set .sdin b, .set .sclk true, .set .sclk false]).reverse ++ s.traceRev
        rx := (bits ++ [v]).foldl (fun r b => r.sample s.selectsCommand b) s.rx } := by
  induction bits generalizing s with
  | nil => simp [State.afterBit, hr]
  | cons b bs ih =>
    have := ih (s.afterBit b) hr
    simp only [List.cons_append, List.foldl_cons] at this ⊢
    rw [this]
    simp [State.afterBit, hr, State.selectsCommand]

/-- Bits, one after the other, while RST holds the receiver. -/
theorem foldl_afterBit_low (bits : List Bit) (v : Bit) (s : State) (hr : s.pins.rst.out = false) :
    (bits ++ [v]).foldl State.afterBit s =
      { s with
        pins := { s.pins with
          sclk := { s.pins.sclk with out := false }
          sdin := { s.pins.sdin with out := v } }
        traceRev :=
          ((bits ++ [v]).flatMap fun b =>
            [.set .sdin b, .set .sclk true, .set .sclk false]).reverse ++ s.traceRev } := by
  induction bits generalizing s with
  | nil => simp [State.afterBit, hr]
  | cons b bs ih =>
    have := ih (s.afterBit b) hr
    simp only [List.cons_append, List.foldl_cons] at this ⊢
    rw [this]
    simp [State.afterBit, hr]

theorem msbFirst_snoc (b : Byte) :
    msbFirst b = [b.getLsbD 7, b.getLsbD 6, b.getLsbD 5, b.getLsbD 4, b.getLsbD 3, b.getLsbD 2,
      b.getLsbD 1] ++ [b.getLsbD 0] := rfl

/-- The eight bits of a byte, one after the other, are the byte. -/
theorem foldl_afterBit (b : Byte) (s : State) :
    (msbFirst b).foldl State.afterBit s = s.afterByte b := by
  unfold State.afterByte byteEvents Receiver.receiveByte
  by_cases hr : s.pins.rst.out = true
  · rw [if_pos hr, msbFirst_snoc, foldl_afterBit_high _ _ _ hr]
  · rw [if_neg hr, msbFirst_snoc, foldl_afterBit_low _ _ _ (by simpa using hr)]

/-- `transmitByte` runs its 24 actions (R76). -/
theorem performAll_transmitByte {s : State} (b : Byte) (h : s.ClockIdle) :
    performAll (transmitByte b) s = .next (s.afterByte b) := by
  unfold transmitByte
  rw [performAll_bits _ h, foldl_afterBit]

@[simp] theorem transmitByte_length (b : Byte) : (transmitByte b).length = 24 := rfl

theorem State.ClockIdle.afterByte {s : State} (b : Byte) (h : s.ClockIdle) :
    (s.afterByte b).ClockIdle :=
  ⟨by show PinState.mk s.pins.sclk.mode false = _; rw [h.sclk], h.sdin⟩

/-- The bus can carry a wire word: the three lines are outputs and the clock is idle. -/
structure State.BusIdle (s : State) : Prop extends s.ClockIdle where
  dc : s.pins.dc.mode = .out

theorem State.BusReady.busIdle {s : State} (h : s.BusReady) : s.BusIdle :=
  ⟨⟨h.sclk, h.sdin⟩, h.dc⟩

theorem State.BusIdle.afterWord {s : State} (w : WireWord) (h : s.BusIdle) :
    (s.afterWord w).BusIdle :=
  ⟨⟨by show PinState.mk s.pins.sclk.mode false = _; rw [h.sclk], h.sdin⟩, h.dc⟩

/-- The actions of a wire word. -/
def wordActions (w : WireWord) : List Action := .pinWrite .dc w.1 :: transmitByte w.2

/-- DC, then the byte: one wire word (R81, R82). -/
theorem performAll_word {s : State} (w : WireWord) (h : s.BusIdle) :
    performAll (wordActions w) s = .next (s.afterWord w) := by
  have a1 : perform (.pinWrite .dc w.1) s = .next (s.drive .dc w.1) := perform_pinWrite h.dc
  have hidle : (s.drive .dc w.1).ClockIdle := ⟨h.sclk, h.sdin⟩
  simp only [wordActions, performAll, a1]
  exact performAll_transmitByte w.2 hidle

@[simp] theorem wordActions_length (w : WireWord) : (wordActions w).length = 25 := rfl

theorem sendCommand_eq (p : Params) (b : Byte) :
    sendCommand p b = wordActions (commandWord p b) := rfl

theorem sendData_eq (p : Params) (b : Byte) : sendData p b = wordActions (dataWord p b) := rfl

/-- Wire words in turn. -/
theorem performAll_words {s : State} (ws : List WireWord) (h : s.BusIdle) :
    performAll (ws.flatMap wordActions) s = .next (s.afterWords ws) := by
  induction ws generalizing s with
  | nil => rfl
  | cons w ws ih =>
    rw [List.flatMap_cons, performAll_append (performAll_word w h)]
    exact ih (h.afterWord w)

theorem wordActions_plain (w : WireWord) : ∀ a ∈ wordActions w, a.isPlain = true := by
  simp [wordActions, transmitByte, msbFirst, bitActions, Action.isPlain]

@[simp] theorem words_length (ws : List WireWord) :
    (ws.flatMap wordActions).length = 25 * ws.length := by
  induction ws with
  | nil => rfl
  | cons w ws ih => rw [List.flatMap_cons, List.length_append, ih, wordActions_length]; simp; omega

theorem setYByte_eq (row : Byte) :
    setYByte row = 0x40 ||| BitVec.ofNat 8 (row.toNat % 6) := by
  unfold setYByte
  congr 1
  apply BitVec.eq_of_toNat_eq
  simp [BitVec.toNat_umod]
  omega

/-- A cursor set is its two words (R83). -/
theorem setCursor_eq (p : Params) (row col : Byte) :
    setCursor p row col = (cursorWords p row col).flatMap wordActions := by
  unfold setCursor
  rw [setYByte_eq]; simp [cursorWords, sendCommand_eq, setXByte]

/-- Data bytes are their words (R82). -/
theorem data_eq (p : Params) (bs : List Byte) :
    bs.flatMap (sendData p) = (bs.map (dataWord p)).flatMap wordActions := by
  rw [List.flatMap_map]; rfl

/-- From where a request starts, the words of its expansion run to their end. -/
theorem runs_words {s : State} (ws : List WireWord) (hs : s.AtRequest) (hb : s.BusIdle) :
    runs (25 * ws.length) (startMain (ws.flatMap wordActions) s) = .next (s.afterWords ws) := by
  have h := runs_main_plain (as := ws.flatMap wordActions) (more := [])
    (fun a ha => by
      obtain ⟨w, _, hw⟩ := List.mem_flatMap.1 ha
      exact wordActions_plain w a hw)
    hs.toUndisturbed hs.noFrame (performAll_words ws hb)
  rw [words_length] at h
  have e1 : startMain (ws.flatMap wordActions) s =
      { s with mainSeq := ws.flatMap wordActions ++ [] } := by
    simp [startMain, hs.noAction]
  rw [e1, h]
  congr 1
  have e2 : ∀ (vs : List WireWord) (u : State), u.mainSeq = [] →
      { u.afterWords vs with mainSeq := ([] : List Action) } = u.afterWords vs := by
    intro vs
    induction vs with
    | nil => intro u hu; cases u; cases hu; rfl
    | cons v vs ih => intro u hu; exact ih (u.afterWord v) hu
  exact e2 ws s hs.noAction

end Sys2Proof.Machine
end

