-- ==== Sys2Proof/Laws/Init.lean ====
section
/-! SUPPORT. Laws/Init.lean: the three steps of init, action by action (42_display_init.md). -/

namespace Sys2Proof.Machine

/-- An output pin after the entries `done` of init's step 1. -/
def PinState.afterSetup (done : List LineSetup) (p : OPin) (q : PinState) : PinState :=
  { mode := if .config p ∈ done then .out else q.mode
    out := if .driveLow p ∈ done then false else q.out }

/-- The state after the entries `done` of init's step 1 (R88). -/
def State.afterSetup (done : List LineSetup) (s : State) : State :=
  { s with
    pins := { s.pins with
      sclk := s.pins.sclk.afterSetup done .sclk
      sdin := s.pins.sdin.afterSetup done .sdin
      dc := s.pins.dc.afterSetup done .dc
      rst := s.pins.rst.afterSetup done .rst }
    traceRev := (done.map lineSetupEvent).reverse ++ s.traceRev
    rx := if .driveLow .rst ∈ done ∧ s.pins.rst.out = true then
        { s.rx with regs := heldRegs s.rx.regs } else s.rx }

/-- One more entry, allowed when a line is configured before it is driven. -/
theorem perform_lineSetup (done : List LineSetup) (e : LineSetup) (s : State)
    (h : ∀ p, e = .driveLow p → .config p ∈ done) (hl : e ≠ .config .led ∧ e ≠ .driveLow .led) :
    perform (lineSetupAction e) (s.afterSetup done) = .next (s.afterSetup (done ++ [e])) := by
  cases e with
  | config p =>
    cases p <;>
    first
    | exact absurd rfl hl.1
    | simp [lineSetupAction, perform, pinConfigure, Pins.configure, Pins.set, Pins.get, State.afterSetup,
        PinState.afterSetup, lineSetupEvent]
  | driveLow p =>
    have := h p rfl
    cases p <;>
    first
    | exact absurd rfl hl.2
    | (by_cases hr : LineSetup.driveLow .rst ∈ done <;> cases hq : s.pins.rst.out <;>
       simp [lineSetupAction, perform, pinWrite, State.drive, Pins.drive, Pins.set, Pins.get, State.afterSetup,
        PinState.afterSetup, lineSetupEvent, this, State.rxAfterWrite, hr, hq])

/-- The entries of an order in which each line is configured before it is driven. -/
theorem performAll_lineSetups (order done : List LineSetup) (s : State)
    (h : ∀ pre p post, order = pre ++ .driveLow p :: post → .config p ∈ done ++ pre)
    (hl : LineSetup.config .led ∉ order ∧ .driveLow .led ∉ order) :
    performAll (order.map lineSetupAction) (s.afterSetup done) =
      .next (s.afterSetup (done ++ order)) := by
  induction order generalizing done with
  | nil => simp [performAll]
  | cons e order ih =>
    have he := perform_lineSetup done e s
      (fun p hp => by simpa using h [] p order (by simp [hp]))
      ⟨fun he => hl.1 (by simp [he]), fun he => hl.2 (by simp [he])⟩
    simp only [List.map_cons, performAll, he]
    have := ih (done ++ [e]) (fun pre p post hp => by
      have := h (e :: pre) p post (by simp [hp])
      simpa using this) ⟨fun hm => hl.1 (by simp [hm]), fun hm => hl.2 (by simp [hm])⟩
    simpa using this

/-- An admissible order holds the canonical entries, each once. -/
theorem initOrder_perm {order : List LineSetup} (h : initOrderOk order = true) :
    Config.canonicalInitOrder.Perm order := by
  simp only [initOrderOk, controlLines, Bool.and_eq_true, beq_iff_eq, List.all_eq_true] at h
  obtain ⟨hlen, h⟩ := h
  have hm : ∀ p ∈ [OPin.sclk, .sdin, .dc, .rst], .config p ∈ order ∧ .driveLow p ∈ order := by
    intro p hp
    have := h p hp
    simp only [List.contains_iff_mem] at this
    exact this.1
  have hsub : Config.canonicalInitOrder ⊆ order := by
    intro e he
    have h1 := hm .sclk (by simp); have h2 := hm .sdin (by simp); have h3 := hm .dc (by simp); have h4 := hm .rst (by simp)
    simp only [Config.canonicalInitOrder, List.mem_cons, List.not_mem_nil, or_false] at he
    rcases he with rfl | rfl | rfl | rfl | rfl | rfl | rfl | rfl <;> tauto
  exact (List.Nodup.subperm (by decide) hsub).perm_of_length_le (by simp [hlen, Config.canonicalInitOrder])

theorem initOrderOf_ok (p : Params) : initOrderOk (initOrderOf p) = true := by
  unfold initOrderOf; split
  · assumption
  · decide

/-- Init's step 1 runs, in the configured order (R88). -/
theorem performAll_initPins (s : State) :
    performAll (initPins s.params) s = .next s.afterInitPins := by
  have hok := initOrderOf_ok s.params
  have hp := initOrder_perm hok
  have h0 : s.afterSetup [] = s := by simp [State.afterSetup, PinState.afterSetup]
  have h := performAll_lineSetups (initOrderOf s.params) [] s (fun pre p post he => by
      have hp' : p ∈ controlLines := by
        have : LineSetup.driveLow p ∈ Config.canonicalInitOrder := hp.mem_iff.2 (by rw [he]; simp)
        cases p <;> simp [Config.canonicalInitOrder, controlLines] at this ⊢
      simp only [initOrderOk, Bool.and_eq_true, List.all_eq_true] at hok
      have := (hok.2 p hp').2
      rw [Nat.blt_eq] at this
      have hnd : (initOrderOf s.params).Nodup := hp.nodup_iff.1 (by decide)
      by_contra hc
      simp only [List.nil_append] at hc
      have hnp : LineSetup.driveLow p ∉ pre := by
        intro hm; rw [he] at hnd
        exact (List.nodup_append.1 hnd).2.2 _ hm _ (by simp) rfl
      rw [he, List.idxOf_append, List.idxOf_append, if_neg hc, if_neg hnp, List.idxOf_cons_self] at this
      omega)
    ⟨fun hm => absurd (hp.mem_iff.2 hm) (by decide), fun hm => absurd (hp.mem_iff.2 hm) (by decide)⟩
  rw [h0] at h
  rw [initPins, performAll_append h]
  have hm : ∀ e ∈ Config.canonicalInitOrder, e ∈ initOrderOf s.params := fun e he => hp.mem_iff.1 he
  simp only [Config.canonicalInitOrder, List.mem_cons, List.not_mem_nil, or_false, forall_eq_or_imp, forall_eq] at hm
  obtain ⟨m1, m2, m3, m4, m5, m6, m7, m8⟩ := hm
  simp only [performAll, perform, List.nil_append, State.afterSetup, PinState.afterSetup, m1, m2, m3, m4, m5, m6, m7, m8, if_true, true_and, State.afterInitPins]

/-- Init's step 2 runs (R89). -/
theorem performAll_initReset (s : State) (h : s.pins.rst = ⟨.out, false⟩) :
    performAll (initReset s.params) s = .next s.afterInitReset := by
  simp [initReset, performAll, perform, pinWrite, h, Pins.get, State.drive, Pins.drive, Pins.set, State.rxAfterWrite, State.emit, resetLowTime, State.afterInitReset]

/-- Init's step 3 as wire words (R90). -/
theorem initDisplay_eq (p : Params) : (initCommands p).flatMap (sendCommand p) = ((initCommands p).map (commandWord p)).flatMap wordActions := by
  rw [List.flatMap_map]; rfl

theorem initActions_length (p : Params) : (initActions p).length = 14 + (3 + p.contrastBias.length) * 25 := by
  have : (initOrderOf p).length = 8 := (initOrder_perm (initOrderOf_ok p)).length_eq.symm
  simp only [initActions, initPins, initReset, initDisplay, List.length_append, List.length_map, this, List.length_cons, List.length_nil]
  rw [initDisplay_eq, words_length, List.length_map]
  simp only [initCommands, List.length_append, List.length_cons, List.length_nil]
  omega

theorem initActions_plain (p : Params) : ∀ a ∈ initActions p, a.isPlain = true := by
  intro a ha
  simp only [initActions, initPins, initReset, initDisplay, initDisplay_eq, List.mem_append, List.mem_map, List.mem_flatMap, List.mem_cons, List.not_mem_nil, or_false] at ha
  rcases ha with ((⟨e, _, rfl⟩ | rfl) | (rfl | rfl | rfl | rfl)) | ⟨w, _, hw⟩ | rfl
  · cases e <;> rfl
  all_goals try rfl
  exact wordActions_plain w a hw

end Sys2Proof.Machine
end

