-- ==== Sys2Proof/Laws/Memory.lean ====
section
/-! SUPPORT. Laws/Memory.lean: the display RAM: read after write, and the canonical form that every
operation of the receiver keeps. -/

namespace Sys2Proof.Machine

@[simp] theorem Memory.read_nil (a : Nat) : Memory.read [] a = none := rfl

/-- Reading the cell just written. -/
@[simp] theorem Memory.read_write_same (m : Memory) (a : Nat) (v : Byte) :
    (m.write a v).read a = some v := by
  induction m with
  | nil => simp [Memory.write, Memory.read]
  | cons c rest ih =>
    obtain ⟨b, w⟩ := c
    simp only [Memory.write]
    split
    · simp [Memory.read]
    · split
      · simp [Memory.read]
      · rename_i h1 h2
        simp [Memory.read, h2, ih]

/-- Reading any other cell. -/
theorem Memory.read_write_other (m : Memory) {a b : Nat} (v : Byte) (h : b ≠ a) :
    (m.write a v).read b = m.read b := by
  induction m with
  | nil => simp [Memory.write, Memory.read, h]
  | cons c rest ih =>
    obtain ⟨d, w⟩ := c
    simp only [Memory.write]
    split
    · simp [Memory.read, h]
    · split
      · rename_i h1 h2
        subst h2
        simp [Memory.read, h]
      · simp [Memory.read, ih]

/-- The canonical form as sortedness and a bound. -/
theorem Memory.wf_iff (m : Memory) :
    m.wf = true ↔ (m.map Prod.fst).Pairwise (· < ·) ∧ ∀ a ∈ m.map Prod.fst, a < 504 := by
  induction m with
  | nil => simp [Memory.wf]
  | cons c rest ih =>
    obtain ⟨a, v⟩ := c
    cases rest with
    | nil => simp [Memory.wf, Nat.blt_eq]
    | cons d rest =>
      obtain ⟨b, w⟩ := d
      simp only [Memory.wf, Bool.and_eq_true, Nat.blt_eq, ih]
      simp only [List.map_cons, List.pairwise_cons, List.mem_cons, forall_eq_or_imp]
      constructor
      · rintro ⟨hab, ⟨h1, h2⟩, h3, h4⟩
        exact ⟨⟨⟨hab, fun x hx => lt_trans hab (h1 x hx)⟩, h1, h2⟩, lt_trans hab h3, h3, h4⟩
      · rintro ⟨⟨⟨hab, _⟩, h1, h2⟩, _, h3, h4⟩
        exact ⟨hab, ⟨h1, h2⟩, h3, h4⟩

theorem Memory.mem_write {m : Memory} {a x : Nat} {v : Byte}
    (h : x ∈ (m.write a v).map Prod.fst) : x = a ∨ x ∈ m.map Prod.fst := by
  induction m with
  | nil => simpa [Memory.write] using h
  | cons c rest ih =>
    obtain ⟨b, w⟩ := c
    simp only [Memory.write] at h
    split at h
    · simpa using h
    · split at h
      · rename_i h1 h2
        simp only [List.map_cons, List.mem_cons] at h ⊢
        tauto
      · simp only [List.map_cons, List.mem_cons] at h ⊢
        rcases h with h | h
        · tauto
        · rcases ih h with h | h <;> tauto

/-- A write inside the display RAM keeps the canonical form. -/
theorem Memory.write_wf {m : Memory} {a : Nat} (v : Byte) (hm : m.wf = true) (ha : a < 504) :
    (m.write a v).wf = true := by
  rw [Memory.wf_iff] at hm ⊢
  obtain ⟨hs, hb⟩ := hm
  refine ⟨?_, fun x hx => ?_⟩
  · clear hb
    induction m with
    | nil => simp [Memory.write]
    | cons c rest ih =>
      obtain ⟨b, w⟩ := c
      simp only [List.map_cons, List.pairwise_cons] at hs
      simp only [Memory.write]
      split
      · rename_i h
        simp only [List.map_cons, List.pairwise_cons, List.mem_cons, forall_eq_or_imp]
        exact ⟨⟨h, fun x hx => lt_trans h (hs.1 x hx)⟩, hs⟩
      · split
        · rename_i h1 h2
          subst h2
          simpa [List.pairwise_cons] using hs
        · rename_i h1 h2
          simp only [List.map_cons, List.pairwise_cons]
          refine ⟨fun x hx => ?_, ih hs.2⟩
          rcases Memory.mem_write hx with rfl | hx
          · omega
          · exact hs.1 x hx
  · rcases Memory.mem_write hx with rfl | hx
    · exact ha
    · exact hb x hx

theorem cellAddr_lt (y : Fin 6) (x : Fin 84) : cellAddr y x < 504 := by
  have := y.isLt; have := x.isLt; unfold cellAddr; omega

/-- Different cells have different addresses. -/
theorem cellAddr_inj {y y' : Fin 6} {x x' : Fin 84} (h : cellAddr y x = cellAddr y' x') :
    y = y' ∧ x = x' := by
  have := x.isLt; have := x'.isLt; have := y.isLt; have := y'.isLt
  unfold cellAddr at h
  constructor <;> ext <;> omega

/-! ### The receiver keeps the canonical form -/

theorem Receiver.unknown_wf (rx : Receiver) : rx.unknown.ram.wf = true := rfl

theorem Receiver.data_wf (b : Byte) {rx : Receiver} (h : rx.ram.wf = true) :
    (rx.data b).ram.wf = true := Memory.write_wf b h (cellAddr_lt _ _)

theorem Receiver.command_wf (b : Byte) {rx : Receiver} (h : rx.ram.wf = true) :
    (rx.command b).ram.wf = true := by
  unfold Receiver.command Receiver.extendedCommand Receiver.normalCommand Receiver.setX
    Receiver.setY
  repeat' split
  all_goals first | exact h | rfl

theorem Receiver.take_wf (c : Bool) (b : Byte) {rx : Receiver} (h : rx.ram.wf = true) :
    (rx.take c b).ram.wf = true := by
  cases c
  · exact Receiver.data_wf b h
  · exact Receiver.command_wf b h

theorem Receiver.sample_wf (c : Bool) (v : Bit) {rx : Receiver} (h : rx.ram.wf = true) :
    (rx.sample c v).ram.wf = true := by
  unfold Receiver.sample
  simp only
  split
  · exact h
  · exact Receiver.take_wf c _ h

/-- Every pin write keeps the display RAM in its canonical form. -/
theorem rxAfterWrite_wf (p : OPin) (v : Bit) {s : State} (h : s.rx.ram.wf = true) :
    (s.rxAfterWrite p v).ram.wf = true := by
  cases p <;> simp only [State.rxAfterWrite]
  · split
    · exact Receiver.sample_wf _ _ h
    · exact h
  all_goals first
    | exact h
    | (repeat' split) <;> first | exact h | rfl

/-- A wire word keeps the display RAM in its canonical form. -/
theorem receiveWord_wf (c : Bool) (b : Byte) {s : State} (h : s.rx.ram.wf = true) :
    (receiveWord c b s).rx.ram.wf = true := by
  unfold receiveWord
  split
  · exact Receiver.take_wf c b h
  · exact h

end Sys2Proof.Machine
end

