-- ==== Sys2Proof/Laws/Text.lean ====
section
/-! SUPPORT. Laws/Text.lean: the text renderer's actions as wire words (43_text_renderer.md). -/

namespace Sys2Proof.Machine

/-- The columns inside the display are sent, the others are not (R97, R98). -/
theorem emitColumns_eq (p : Params) (x : Nat) (bs : List Byte) :
    emitColumns p x bs = ((bs.take (84 - x)).map (dataWord p)).flatMap wordActions := by
  induction bs generalizing x with
  | nil => simp [emitColumns]
  | cons b bs ih =>
    simp only [emitColumns, ih]
    by_cases h : x < 84
    · obtain ⟨k, hk⟩ : ∃ k, 84 - x = k + 1 := ⟨83 - x, by omega⟩
      rw [if_pos h, hk, List.take_succ_cons, show 84 - (x + 1) = k by omega]
      simp [sendData_eq]
    · rw [if_neg h, show 84 - x = 0 by omega, show 84 - (x + 1) = 0 by omega]
      simp

/-- The bytes of a band, written out (R97, R99). -/
theorem bandBytes_eq (p : Params) (ch : Byte) {size : Byte} (r : Nat)
    (hs : size = 1 ∨ size = 2) : bandBytes p ch size r = cellBytes p ch size r := by
  rcases hs with rfl | rfl <;> simp [bandBytes, cellBytes, glyph, spacingCopies]

/-- A character's actions are its words (R97). -/
theorem renderChar_eq (p : Params) (row col ch : Byte) {size : Byte} (hs : size = 1 ∨ size = 2) :
    renderChar p row col ch size = (charWords p row col ch size).flatMap wordActions := by
  unfold renderChar charWords
  split
  · rfl
  · rcases hs with rfl | rfl <;>
      simp [List.range_succ, renderBand, bandBytes_eq, emitColumns_eq, setCursor_eq, bandWords]

/-- The characters of a text from column `x` on that start inside the display (R100). -/
def cellsFrom (x : Nat) (size : Byte) (text : List Byte) : List (Byte × Nat) :=
  ((text.takeWhile (· != 0)).zipIdx.map fun (ch, k) => (ch, x + k * stride size)).filter
    fun c => c.2 < 84

theorem textCells_eq (col size : Byte) (text : List Byte) :
    textCells col size text = cellsFrom col.toNat size text := rfl

/-- Past the display's edge no character starts. -/
theorem cellsFrom_past {x : Nat} (h : 84 ≤ x) (size : Byte) (text : List Byte) :
    cellsFrom x size text = [] := by
  refine List.filter_eq_nil_iff.2 fun c hc => ?_
  obtain ⟨⟨a, k⟩, _, rfl⟩ := List.mem_map.1 hc
  simp only [decide_eq_true_eq]
  omega

theorem cellsFrom_cons {x : Nat} {ch : Byte} (hx : x < 84) (hc : ch ≠ 0) (size : Byte)
    (rest : List Byte) :
    cellsFrom x size (ch :: rest) = (ch, x) :: cellsFrom (x + stride size) size rest := by
  unfold cellsFrom
  have : (ch != 0) = true := by simpa using hc
  rw [show List.takeWhile (fun b => b != 0) (ch :: rest) =
      ch :: List.takeWhile (fun b => b != 0) rest from
    List.takeWhile_cons_of_pos (p := fun b : Byte => b != 0) this,
    List.zipIdx_cons, List.map_cons, List.filter_cons_of_pos (by simpa using hx)]
  simp only [Nat.zero_mul, Nat.add_zero]
  congr 1
  rw [List.zipIdx_succ, List.map_map]
  congr 1
  apply List.map_congr_left
  rintro ⟨a, k⟩ _
  simp only [Function.comp, Nat.add_mul, Nat.one_mul]
  congr 1
  omega

/-- A text that is terminated, or reaches the display's edge, is sent character by character
(R100). -/
theorem renderText_ok (p : Params) (row : Byte) {size : Byte} (hs : size = 1 ∨ size = 2)
    (text : List Byte) (x i : Nat)
    (h : 0 ∈ text ∨ 84 ≤ x + text.length * (6 * size.toNat)) :
    renderText p row size x i text =
      .ok (((cellsFrom x size text).flatMap fun c =>
        charWords p row (BitVec.ofNat 8 c.2) c.1 size).flatMap wordActions) := by
  have hst : stride size = 6 * size.toNat := rfl
  induction text generalizing x i with
  | nil =>
    have hx : 84 ≤ x := by simpa using h
    rw [renderText, if_pos hx]; rfl
  | cons ch rest ih =>
    rw [renderText]
    by_cases hx : 84 ≤ x
    · rw [if_pos hx, cellsFrom_past hx]; rfl
    · rw [if_neg hx]
      by_cases hc : ch = 0
      · subst hc; rfl
      · rw [if_neg hc, ih _ _ (by
          rcases h with h | h
          · exact .inl ((List.mem_cons.1 h).resolve_left (Ne.symm hc))
          · exact .inr (by rw [List.length_cons, Nat.add_mul] at h; omega)),
          cellsFrom_cons (by omega) hc]
        simp only [renderChar_eq _ _ _ _ hs, List.flatMap_cons, List.flatMap_append]

/-- Any text the renderer accepts is sent as wire words. -/
theorem renderText_words (p : Params) (row : Byte) {size : Byte} (hs : size = 1 ∨ size = 2)
    {text : List Byte} {x i : Nat} {acts : List Action}
    (h : renderText p row size x i text = .ok acts) :
    ∃ ws : List WireWord, acts = ws.flatMap wordActions := by
  induction text generalizing x i acts with
  | nil =>
    rw [renderText] at h
    split at h
    · cases h; exact ⟨[], rfl⟩
    · cases h
  | cons ch rest ih =>
    rw [renderText] at h
    split at h
    · cases h; exact ⟨[], rfl⟩
    · split at h
      · cases h; exact ⟨[], rfl⟩
      · split at h
        · rename_i acts' hr
          cases h
          obtain ⟨ws, rfl⟩ := ih hr
          exact ⟨_, by rw [renderChar_eq _ _ _ _ hs, ← List.flatMap_append]⟩
        · cases h

/-- A text with no terminator that ends inside the display is read past its end (20_memory.md
R44). -/
theorem renderText_error (p : Params) (row size : Byte) (text : List Byte) (x i : Nat)
    (h0 : 0 ∉ text) (h : x + text.length * (6 * size.toNat) < 84) :
    renderText p row size x i text = .error (i + text.length) := by
  have hst : stride size = 6 * size.toNat := rfl
  induction text generalizing x i with
  | nil => rw [renderText, if_neg (by simpa using h)]; rfl
  | cons ch rest ih =>
    rw [List.length_cons, Nat.add_mul] at h
    simp only [List.mem_cons, not_or] at h0
    rw [renderText, if_neg (by omega), if_neg (Ne.symm h0.1), ih _ _ h0.2 (by omega)]
    simp only [List.length_cons]
    congr 1
    omega

end Sys2Proof.Machine
end

