-- ==== Sys2Proof/Laws/Actions.lean ====
section
/-! SUPPORT. Laws/Actions.lean: what the actions of a request can be, and what an action keeps. -/

namespace Sys2Proof.Machine

theorem words_plain (ws : List WireWord) : ∀ a ∈ ws.flatMap wordActions, a.isPlain = true := by
  intro a ha
  obtain ⟨w, _, hw⟩ := List.mem_flatMap.1 ha
  exact wordActions_plain w a hw

theorem Action.isMain_of_isPlain {a : Action} (h : a.isPlain = true) : a.isMain = true := by
  cases a <;> first | rfl | cases h

theorem tickActions_plain (p : Params) (level : Byte) :
    ∀ a ∈ tickActions p level, a.isPlain = true := by
  unfold tickActions
  split <;> simp [Action.isPlain]

theorem setCursor_zeroData (p : Params) (row : Byte) (n : Nat) :
    setCursor p row 0 ++ zeroData p n =
      (cursorWords p row 0 ++ List.replicate n (dataWord p 0)).flatMap wordActions := by
  rw [zeroData, setCursor_eq, data_eq, List.map_replicate, ← List.flatMap_append]

/-- A request that starts gives the main context plain actions; LOOP also stands next on the boot
list again (10_state.md R34, 70_reset_and_hazards.md R140). -/
theorem exec_request_plain {i : Instr} {s t : State} (hi : i.isRequest = true)
    (h : exec i s = .next t) :
    ∃ acts, (∀ a ∈ acts, a.isPlain = true) ∧ (t = startMain acts s ∨
      i = .loop ∧ t = startMain acts { s with mainJobs := .op .loop :: s.mainJobs }) := by
  cases i <;> simp only [Instr.isRequest, Bool.false_eq_true] at hi <;> simp only [exec] at h
  case txb v =>
    refine ⟨_, ?_, .inl (startDisplay_next h)⟩
    simp [transmitByte, msbFirst, bitActions, Action.isPlain]
  case cmd b =>
    exact ⟨_, wordActions_plain (commandWord s.params b), .inl (startDisplay_next h)⟩
  case dat b => exact ⟨_, wordActions_plain (dataWord s.params b), .inl (startDisplay_next h)⟩
  case setcur row col =>
    refine ⟨_, ?_, .inl (startDisplay_next h)⟩
    rw [setCursor_eq]; exact words_plain _
  case clrall =>
    refine ⟨_, ?_, .inl (startDisplay_next h)⟩
    rw [clearAll, setCursor_zeroData]; exact words_plain _
  case clrrow row =>
    refine ⟨_, ?_, .inl (startDisplay_next h)⟩
    rw [clearRow, setCursor_zeroData]; exact words_plain _
  case init =>
    unfold execInit at h
    split at h
    · cases h; exact ⟨_, initActions_plain s.params, .inl rfl⟩
    · cases h
  case char row col ch size =>
    unfold execChar at h
    split at h
    · rename_i hs
      refine ⟨_, ?_, .inl (startDisplay_next h)⟩
      rw [renderChar_eq _ _ _ _ ((sizeOk_iff _).1 hs)]; exact words_plain _
    · cases h
  case str row col size text =>
    unfold execStr at h
    split at h
    · rename_i hs
      split at h
      · rename_i acts hr
        obtain ⟨ws, rfl⟩ := renderText_words _ _ ((sizeOk_iff _).1 hs) hr
        exact ⟨_, words_plain _, .inl (startDisplay_next h)⟩
      · split at h <;> cases h
    · cases h
  case setlvl value => cases h; exact ⟨_, by simp [Action.isPlain], .inl rfl⟩
  case tick => cases h; exact ⟨_, tickActions_plain _ _, .inl rfl⟩
  case loop => cases h; exact ⟨_, tickActions_plain _ _, .inr ⟨rfl, rfl⟩⟩

/-! ### What an action keeps -/

/-- A pin write keeps the receiver held while RST is low (20_memory.md R58). -/
theorem drive_held (p : OPin) (v : Bit) {s : State}
    (h : s.pins.rst.out = false → s.rx.regs.Held) :
    (s.drive p v).pins.rst.out = false → (s.drive p v).rx.regs.Held := by
  intro hr
  cases p <;>
    simp only [State.drive, Pins.drive, Pins.set, Pins.get, State.rxAfterWrite] at hr ⊢
  · split
    · rename_i hc; simp [hr] at hc
    · exact h hr
  · exact h hr
  · exact h hr
  · subst hr
    cases hq : s.pins.rst.out
    · simpa using h hq
    · simp [RxRegs.Held, heldRegs]
  · exact h hr

/-- Every action keeps the display RAM canonical and the receiver held while RST is low, and leaves
the latch, the configuration and the main context's lists alone. -/
theorem perform_keeps {a : Action} {s t : State} (h : perform a s = .next t)
    (ram : s.rx.ram.wf = true) (held : s.pins.rst.out = false → s.rx.regs.Held) :
    t.rx.ram.wf = true ∧ (t.pins.rst.out = false → t.rx.regs.Held) ∧ t.pending = s.pending ∧
      t.params = s.params ∧ t.mainSeq = s.mainSeq ∧ t.mainJobs = s.mainJobs := by
  have hp := perform_next h
  cases a <;> simp only at hp
  case pinWrite p v =>
    rw [hp.2]; exact ⟨rxAfterWrite_wf p v ram, drive_held p v held, rfl, rfl, rfl, rfl⟩
  case pinCfg p =>
    subst hp
    refine ⟨ram, fun hr => held ?_, rfl, rfl, rfl, rfl⟩
    cases p <;> exact hr
  case sleepCpu =>
    rcases hp with ⟨_, _, rfl⟩ | ⟨_, rfl⟩ <;> exact ⟨ram, held, rfl, rfl, rfl, rfl⟩
  case setLevel =>
    rcases hp with ⟨_, _, rfl⟩ | ⟨_, rfl⟩
    · exact ⟨rxAfterWrite_wf (s := { s with level := 0 }) .led false ram,
        drive_held .led false (s := { s with level := 0 }) held, rfl, rfl, rfl, rfl⟩
    · exact ⟨ram, held, rfl, rfl, rfl, rfl⟩
  all_goals (subst hp; exact ⟨ram, held, rfl, rfl, rfl, rfl⟩)

/-- Only Ret, SleepCpu and IeWrite touch the frames, `ie` or `asleep`. -/
theorem perform_contexts {a : Action} {s t : State} (h : perform a s = .next t)
    (h1 : a ≠ .ret) (h2 : a ≠ .sleepCpu) (h3 : ∀ b, a ≠ .ieWrite b) :
    t.frames = s.frames ∧ t.ie = s.ie ∧ t.asleep = s.asleep := by
  have hp := perform_next h
  cases a <;> simp only at hp
  case pinWrite p v => rw [hp.2]; exact ⟨rfl, rfl, rfl⟩
  case ret => exact absurd rfl h1
  case sleepCpu => exact absurd rfl h2
  case ieWrite b => exact absurd rfl (h3 b)
  case setLevel => rcases hp with ⟨_, _, rfl⟩ | ⟨_, rfl⟩ <;> exact ⟨rfl, rfl, rfl⟩
  all_goals (subst hp; exact ⟨rfl, rfl, rfl⟩)

/-- The places of the handler's Ret, SleepCpu and `IeWrite(1)` (45_power_interrupt.md
R110–R112). -/
theorem HandlerTail.places {p : Params} {a : Action} {more : List Action}
    (h : HandlerTail p (a :: more)) :
    (a = .ret ↔ more = []) ∧ (a = .sleepCpu → more = afterSleep) ∧
      (a = .ieWrite true → more = sleepActions ++ [.ret]) := by
  have drop : ∀ {m : List Action}, (a :: more) <:+ m → ∃ k ≤ m.length, a :: more = m.drop k :=
    fun ⟨pre, hp⟩ => ⟨pre.length, by simp [← hp], by simp [← hp]⟩
  obtain ⟨_, h | h⟩ := h <;> obtain ⟨k, hk, he⟩ := drop h
  · have hk : k ≤ 4 := hk
    interval_cases k <;> simp [onPath] at he <;> obtain ⟨rfl, rfl⟩ := he <;> simp
  · have hk : k ≤ 11 := hk
    interval_cases k <;> simp [offPath, sleepActions] at he <;> obtain ⟨rfl, rfl⟩ := he <;>
      simp [afterSleep, sleepActions]

end Sys2Proof.Machine
end

