-- ==== Sys2Proof/Laws/PerInstr.lean ====
section
/-! SUPPORT. Laws/PerInstr.lean: one lemma per instruction about its encoding: the range its opcode
byte lies in. -/

namespace Sys2Proof.Laws.OpcodeRange

/-- A request's first byte is 0x01 to 0x0C, a reserved opcode's only byte is 0x00 or 0x0D to 0xFF, a
wire word has nine bits of its own, and an event has no byte (30_encoding.md R64, R67, R69, R71). -/
def Statement (i : Instr) : Prop :=
  if i.isRequest then
    ∃ op rest, encode i = op :: rest ∧ 1 ≤ op.toNat ∧ op.toNat ≤ 0x0C
  else if i.isReserved then ∃ op, encode i = [op] ∧ (op.toNat = 0 ∨ 0x0D ≤ op.toNat)
  else if i.isWireWord then
    ∃ w, encodeWire i = some w ∧ encode i = [w.setWidth 8, (w.extractLsb' 8 1).setWidth 8]
  else encode i = []

theorem txb (v : Byte) : Statement (.txb v) := ⟨_, _, rfl, by decide, by decide⟩
theorem cmd (b : Byte) : Statement (.cmd b) := ⟨_, _, rfl, by decide, by decide⟩
theorem dat (b : Byte) : Statement (.dat b) := ⟨_, _, rfl, by decide, by decide⟩
theorem setcur (row : Byte) (col : Byte) : Statement (.setcur row col) :=
  ⟨_, _, rfl, by decide, by decide⟩
theorem clrall : Statement .clrall := ⟨_, _, rfl, by decide, by decide⟩
theorem clrrow (row : Byte) : Statement (.clrrow row) := ⟨_, _, rfl, by decide, by decide⟩
theorem init : Statement .init := ⟨_, _, rfl, by decide, by decide⟩
theorem char (row : Byte) (col : Byte) (ch : Byte) (size : Byte) : Statement (.char row col ch size) :=
  ⟨_, _, rfl, by decide, by decide⟩
theorem str (row : Byte) (col : Byte) (size : Byte) (text : List Byte) : Statement (.str row col size text) :=
  ⟨_, _, rfl, by decide, by decide⟩
theorem setlvl (value : I16) : Statement (.setlvl value) := ⟨_, _, rfl, by decide, by decide⟩
theorem tick : Statement .tick := ⟨_, _, rfl, by decide, by decide⟩
theorem loop : Statement .loop := ⟨_, _, rfl, by decide, by decide⟩
theorem reserved00 : Statement .reserved00 := ⟨_, rfl, by decide⟩
theorem reserved0D : Statement .reserved0D := ⟨_, rfl, by decide⟩
theorem reserved0E0F (low : BitVec 1) : Statement (.reserved0E0F low) :=
  ⟨_, rfl, by revert low; decide⟩
theorem reserved101F (low : BitVec 4) : Statement (.reserved101F low) :=
  ⟨_, rfl, by revert low; decide⟩
theorem reserved203F (low : BitVec 5) : Statement (.reserved203F low) :=
  ⟨_, rfl, by revert low; decide⟩
theorem reserved407F (low : BitVec 6) : Statement (.reserved407F low) :=
  ⟨_, rfl, by revert low; decide⟩
theorem reserved80FF (low : BitVec 7) : Statement (.reserved80FF low) :=
  ⟨_, rfl, by revert low; decide⟩
theorem setX (x : BitVec 7) : Statement (.setX x) := ⟨_, rfl, rfl⟩
theorem setY (y : BitVec 3) : Statement (.setY y) := ⟨_, rfl, rfl⟩
theorem fsetExt : Statement .fsetExt := ⟨_, rfl, rfl⟩
theorem fsetNorm : Statement .fsetNorm := ⟨_, rfl, rfl⟩
theorem dispNormal : Statement .dispNormal := ⟨_, rfl, rfl⟩
theorem contrastBias (b : Byte) : Statement (.contrastBias b) := ⟨_, rfl, rfl⟩
theorem data (p : Byte) : Statement (.data p) := ⟨_, rfl, rfl⟩
theorem evEdge : Statement .evEdge := rfl
theorem sleepseq : Statement .sleepseq := rfl

end Sys2Proof.Laws.OpcodeRange
end

