-- ==== Sys2Proof/Tests/Slice0.lean ====
section
/-! SUPPORT. Tests/Slice0.lean: small tests, with expected values from the spec (each cites its place),
and one witness per statement that has hypotheses. -/

namespace Sys2Proof.Tests

open Sys2Proof.Machine

/-! ### The small states the tests use -/

/-- A configuration: 0xBF as the one contrast byte (95_test_vectors.md V11's example value). -/
def params : Params :=
  { Config.device with
    font := Vector.ofFn fun a => BitVec.ofNat 8 a.val
    contrastBias := [0xBF], tRst := 20, tRstMin := 10, tPulse := 5, nestLimit := 3, startup := [] }

/-- The receiver after INIT with that configuration (V11); the last byte shifted in is 0x0C. -/
def rxAfterInit : Receiver :=
  { regs :=
      { shift := 0x0C, count := 0, x := 0, y := 0, extended := false, vertical := false,
        powerDown := false, mode := .normal, vop := 0x3F, bias := 0, tc := 0 }
    ram := []
    draws := 0 }

/-- `S_RESET` and `S_BOOTED` (70_reset_and_hazards.md R142) with an empty program. -/
def reset : State := sReset params []
def booted : State := { sBooted params [] with rx := rxAfterInit }

/-- `S_BOOTED` at another level, and under other edge parameters. -/
def atLevel (level : Byte) : State := { booted with level := level }
def withEdges (q : EdgeQualifier) (latch : Bool) : State :=
  { booted with params := { params with edgeQualifier := q, edgeLatch := latch } }

/-- `S_BOOTED` with one activation left to run `acts`. -/
def inHandler (acts : List Action) : State := { booted with ie := false, frames := [⟨acts⟩] }

/-- The end of V37: asleep, its activation halted at SleepCpu. -/
def sleeping : State :=
  { booted with
    asleep := true, se := true, sleepMode := .powerDown, frames := [⟨afterSleep⟩] }

/-- `S_BOOTED` with the receiver at another cursor, and in another mode. -/
def cursorAt (y : Fin 6) (x : Fin 84) (vertical : Bit) : State :=
  { booted with
    rx := { booted.rx with
      regs := { booted.rx.regs with y := y, x := x, vertical := vertical } } }
def extendedSet : State :=
  { booted with rx := { booted.rx with regs := { booted.rx.regs with extended := true } } }

/-- The next state of an answer. -/
def nextOf : Result → Option State
  | .next t => some t
  | .fault _ | .refused _ => none

/-- The fault and the refusal of an answer. -/
def faultOf : Result → Option Fault
  | .fault r => some r
  | .next _ | .refused _ => none
def refusalOf : Result → Option Refusal
  | .refused r => some r
  | .next _ | .fault _ => none

/-! ### Well-formedness: an ill-formed term for each check -/

/-- 43_text_renderer.md R95: sizes 1 and 2 only. -/
theorem test_wf_char_size : (Instr.char 0 0 0x41 3).wf = false ∧ (Instr.char 0 0 0x41 0).wf = false ∧
    (Instr.char 0 0 0x41 1).wf = true ∧ (Instr.char 0 0 0x41 2).wf = true := by decide
theorem test_wf_str_size : (Instr.str 0 0 0 [0]).wf = false ∧ (Instr.str 0 0 2 [0]).wf = true := by
  decide
/-- 30_encoding.md R66: the text ends at its first 0x00 and includes it. -/
theorem test_wf_str_text : (Instr.str 0 0 1 [0x41]).wf = false ∧ (Instr.str 0 0 1 []).wf = false ∧
    (Instr.str 0 0 1 [0x41, 0, 0x42, 0]).wf = false ∧ (Instr.str 0 0 1 [0x41, 0x42, 0]).wf = true := by
  decide
/-- 30_encoding.md R64: a byte that another row names is no CONTRAST_BIAS word (log 15). -/
theorem test_wf_contrastBias : (Instr.contrastBias 0x80).wf = false ∧
    (Instr.contrastBias 0x40).wf = false ∧ (Instr.contrastBias 0x21).wf = false ∧
    (Instr.contrastBias 0x20).wf = false ∧ (Instr.contrastBias 0x0C).wf = false ∧
    (Instr.contrastBias 0x13).wf = true := by decide

/-! ### Decoding: words written out from 30_encoding.md R64, R67, R71 -/

theorem test_decode_txb : decode [0b00000001, 0xA5] = .ok (.txb 0xA5) [] := by decide
theorem test_decode_cmd : decode [0b00000010, 0x21] = .ok (.cmd 0x21) [] := by decide
theorem test_decode_dat : decode [0b00000011, 0x3C] = .ok (.dat 0x3C) [] := by decide
/-- V45. -/
theorem test_decode_setcur : decode [0b00000100, 0x02, 0x0A] = .ok (.setcur 2 10) [] := by decide
theorem test_decode_clrall : decode [0b00000101] = .ok .clrall [] := by decide
theorem test_decode_clrrow : decode [0b00000110, 0x08] = .ok (.clrrow 8) [] := by decide
theorem test_decode_init : decode [0b00000111] = .ok .init [] := by decide
/-- V14. -/
theorem test_decode_char :
    decode [0b00001000, 0x01, 0x0A, 0x41, 0x01] = .ok (.char 1 10 0x41 1) [] := by decide
/-- V45. -/
theorem test_decode_str :
    decode [0b00001001, 0x00, 0x50, 0x01, 0x41, 0x42, 0x00] =
      .ok (.str 0 80 1 [0x41, 0x42, 0x00]) [] := by decide
/-- V45: −5. -/
theorem test_decode_setlvl : decode [0b00001010, 0xFB, 0xFF] = .ok (.setlvl (-5)) [] := by decide
/-- V45: two TICK requests. -/
theorem test_decode_tick : decode [0b00001011, 0b00001011] = .ok .tick [0x0B] := by decide
theorem test_decode_loop : decode [0b00001100] = .ok .loop [] := by decide
/-- V46. -/
theorem test_decode_reserved : decode [0x00] = .refuse (.opcode 0x00) [] ∧
    decode [0x0D, 0x0B] = .refuse (.opcode 0x0D) [0x0B] ∧ decode [0x80] = .refuse (.opcode 0x80) [] ∧
    decode [0xFF] = .refuse (.opcode 0xFF) [] := by decide
/-- V47. -/
theorem test_decode_truncated : decode [0x04, 0x02] = .refuse .truncated [] ∧
    decode [0x0A, 0xFB] = .refuse .truncated [] ∧
    decode [0x09, 0x00, 0x00, 0x01, 0x41, 0x42] = .refuse .truncated [] ∧
    decode [0x09, 0x00, 0x00] = .refuse .truncated [] := by decide
/-- V23. -/
theorem test_decode_size : decode [0x08, 0x00, 0x00, 0x41, 0x03] = .refuse (.size 3) [] ∧
    decode [0x08, 0x00, 0x00, 0x41, 0x00] = .refuse (.size 0) [] ∧
    decode [0x09, 0x00, 0x00, 0x00, 0x41, 0x00] = .refuse (.size 0) [] := by decide
/-- The reserved rows' opcode bytes (R71). -/
theorem test_reserved_bytes : encode .reserved00 = [0x00] ∧ encode .reserved0D = [0x0D] ∧
    encode (.reserved0E0F 1) = [0x0F] ∧ encode (.reserved101F 0xF) = [0x1F] ∧
    encode (.reserved203F 0) = [0x20] ∧ encode (.reserved407F 0x3F) = [0x7F] ∧
    encode (.reserved80FF 0x7F) = [0xFF] := by decide
theorem test_decode_setX : decodeWire 0b010001010 = .setX 10 := by decide
theorem test_decode_setY : decodeWire 0b001000010 = .setY 2 := by decide
theorem test_decode_fsetExt : decodeWire 0b000100001 = .fsetExt := by decide
theorem test_decode_fsetNorm : decodeWire 0b000100000 = .fsetNorm := by decide
theorem test_decode_dispNormal : decodeWire 0b000001100 = .dispNormal := by decide
/-- A bias byte, 0b00010BBB (20_memory.md R61). -/
theorem test_decode_contrastBias : decodeWire 0b000010011 = .contrastBias 0x13 := by decide
theorem test_decode_data : decodeWire 0b101111110 = .data 0x7E := by decide
/-- The table's words, operand bytes zero where the row gives them no bits. -/
theorem test_tableWord : decodeTableWord 8 0x01 = some (.txb 0) ∧
    decodeTableWord 8 0x0A = some (.setlvl 0) ∧ decodeTableWord 16 0x18A = some (.data 0x8A) ∧
    decodeTableWord 9 0x08A = some (.setX 10) ∧ decodeTableWord 8 0x0D = none := by decide

/-! ### Operand forms -/

/-- V12. -/
theorem test_subst : subst 0x00 = 0x3F ∧ subst 0x1F = 0x3F ∧ subst 0x20 = 0x20 ∧
    subst 0x41 = 0x41 ∧ subst 0x7E = 0x7E ∧ subst 0x7F = 0x7F ∧ subst 0x80 = 0x3F ∧
    subst 0xFF = 0x3F := by decide
/-- V12: glyph addresses. -/
theorem test_glyphAddr : (glyphAddr 0x20 0).val = 0 ∧ (glyphAddr 0x3F 0).val = 155 ∧
    (glyphAddr 0x41 4).val = 169 ∧ (glyphAddr 0x7F 4).val = 479 := by decide
/-- V13. -/
theorem test_scale2 : scale2 0xA5 0 = 0x33 ∧ scale2 0xA5 1 = 0xCC ∧ scale2 0x01 0 = 0x03 ∧
    scale2 0x0F 1 = 0x00 ∧ scale2 0xF0 1 = 0xFF ∧ scale2 0x08 0 = 0xC0 ∧ scale2 0x10 1 = 0x03 ∧
    scale2 0x80 1 = 0xC0 := by decide
/-- V29. -/
theorem test_clamp : clamp (-32768) = 0 ∧ clamp (-5) = 0 ∧ clamp (-1) = 0 ∧ clamp 0 = 0 ∧
    clamp 1 = 1 ∧ clamp 254 = 254 ∧ clamp 255 = 255 ∧ clamp 256 = 255 ∧ clamp 300 = 255 ∧
    clamp 32767 = 255 := by decide
/-- W12. -/
theorem test_stride : stride 1 = 6 ∧ stride 2 = 12 := by decide

/-! ### One instruction on a small state -/

/-- V11: the receiver of `S_BOOTED`. -/
theorem test_initReceiver : (sBooted params []).rx = rxAfterInit := by decide +kernel

/-- V1: the receiver takes 0xA5 as SET_X 37. -/
theorem test_txb : (booted.afterByte 0xA5).rx.regs.x = 37 ∧
    (booted.afterByte 0xA5).pins.sdin.out = true ∧
    (booted.afterByte 0xA5).pins.sclk.out = false := by decide
/-- V3. -/
theorem test_txb_notReady : faultOf (exec (.txb 0x55) reset) = some (.notReady (.txb 0x55)) := by
  decide
/-- V5: 25 actions, DC first. -/
theorem test_cmd : (nextOf (exec (.cmd 0x21) booted)).map (fun t => (t.mainSeq.length, t.mainSeq.head?)) =
    some (25, some (.pinWrite .dc false)) := by decide
/-- V5: the data byte stands at (0, 0) and the cursor is (0, 1). -/
theorem test_dat : (booted.afterWord (true, 0x3C)).rx.ram = [(0, 0x3C)] ∧
    (booted.afterWord (true, 0x3C)).rx.regs.x = 1 := by decide
/-- V6: `SETCUR 7, 83` sends 0xD3 and 0x41; `SETCUR 0, 200` sends 0xC8. -/
theorem test_setcur : setXByte 83 = 0xD3 ∧ setYByte 7 = 0x41 ∧ setYByte 255 = 0x43 ∧
    setXByte 200 = 0xC8 := by decide
/-- V9: INIT's 114 actions with one contrast byte. -/
theorem test_init : (nextOf (exec .init reset)).map (·.mainSeq.length) = some 114 := by decide
/-- V10. -/
theorem test_init_again : faultOf (exec .init booted) = some (.reinit .init) := by decide
/-- V15: one data byte fits at column 83: 75 actions. -/
theorem test_char_clipped :
    (nextOf (exec (.char 0 83 0x41 1) booted)).map (·.mainSeq.length) = some 75 := by decide
/-- V17: outside the grid, nothing. -/
theorem test_char_outside :
    (nextOf (exec (.char 6 0 0x41 1) booted)).map (·.mainSeq.length) = some 0 := by decide
/-- V24, V25: 'A' at column 78 only: 200 actions. -/
theorem test_str :
    (nextOf (exec (.str 0 78 1 [0x41, 0x42, 0]) booted)).map (·.mainSeq.length) = some 200 := by
  decide +kernel
theorem test_str_edge :
    (nextOf (exec (.str 0 84 1 [0x41, 0]) booted)).map (·.mainSeq.length) = some 0 := by decide
/-- V30: from S_RESET the one action faults. -/
theorem test_setlvl_unconf : faultOf (runs 1 (startMain [.setLevel 0] reset)) =
    some (.pinUnconf .led (.setLevel 0)) := by decide
/-- V30: at 0 the LED is forced low, one event. -/
theorem test_setlvl_zero : (nextOf (runs 1 (startMain [.setLevel (-5)] (atLevel 9)))).map
    (fun t => (t.level, t.trace)) = some (0, [.set .led false]) := by decide
/-- V34: level 200 dwells 55 units. -/
theorem test_tick : (nextOf (exec .tick (atLevel 200))).map (·.mainSeq) =
    some [.pinWrite .led true, .delay .pulse 5, .pinWrite .led false, .delay .dwell 55] := by decide
/-- V32. -/
theorem test_tick_dark : (nextOf (exec .tick booted)).map (·.mainSeq) = some [] := by decide
/-- R140: a tick, and LOOP again. -/
theorem test_loop : (nextOf (exec .loop (atLevel 255))).map (fun t => (t.mainSeq.length, t.mainJobs)) =
    some (4, [.op .loop]) := by decide
/-- 20_memory.md R61: SET_X 83 is the last column. -/
theorem test_setX : (nextOf (exec (.setX 83) booted)).map (·.rx.regs.x) = some 83 := by decide
theorem test_setY : (nextOf (exec (.setY 5) booted)).map (·.rx.regs.y) = some 5 := by decide
theorem test_fsetExt : (nextOf (exec .fsetExt booted)).map (·.rx.regs.extended) = some true := by
  decide
theorem test_fsetNorm : (nextOf (exec .fsetNorm extendedSet)).map (·.rx.regs.extended) =
    some false := by decide
theorem test_dispNormal : (nextOf (exec .dispNormal booted)).map (·.rx.regs.mode) =
    some .normal := by decide
/-- R61: 0b00010BBB in the extended set is the bias. -/
theorem test_contrastBias : (nextOf (exec (.contrastBias 0x13) extendedSet)).map (·.rx.regs.bias) =
    some 3 := by decide
/-- 20_memory.md R60: at (5, 83) the cursor wraps to (0, 0), horizontal or vertical. -/
theorem test_data_wrap :
    (nextOf (exec (.data 0x7E) (cursorAt 5 83 false))).map (fun t => (t.rx.ram, t.rx.regs.y, t.rx.regs.x)) =
      some ([(503, 0x7E)], 0, 0) ∧
    (nextOf (exec (.data 0x7E) (cursorAt 5 83 true))).map (fun t => (t.rx.regs.y, t.rx.regs.x)) =
      some (0, 0) := by decide
/-- V36: entry masks and takes the on path. -/
theorem test_evEdge : (nextOf (exec .evEdge booted)).map (fun t => (t.ie, t.frames)) =
    some (false, [⟨[.setLevel 255, .ieWrite false, .delay .holdOn 100000, .ret]⟩]) := by decide
/-- V43: a wake past NEST_LIMIT records the depth and has appended Wake. -/
theorem test_evEdge_nest :
    (match exec .evEdge { sleeping with
        params := { params with nestLimit := 2 }, frames := [⟨afterSleep⟩, ⟨afterSleep⟩] } with
    | .fault (.nestLimit depth left) => some (depth, left.traceRev, left.asleep)
    | .fault _ | .next _ | .refused _ => none) = some (2, [.wake], false) := by decide
/-- R112. -/
theorem test_sleepseq : (nextOf (exec .sleepseq (inHandler [.ret]))).map (·.frames) =
    some [⟨[.ieWrite false, .smWrite .powerDown, .seWrite true, .sleepCpu, .seWrite false,
      .ieWrite false, .ret]⟩] := by decide
/-- V49: the refused opcode is consumed, and the last 0x0B never runs. -/
theorem test_refused_stream :
    (refusalOf (step { booted with requests := [0x0D, 0x0B] })).map (fun
      | .opcode b left => (b, left.requests, left.traceRev)
      | .notModelled _ | .truncated _ | .size _ _ => (0, [], [])) = some (0x0D, [0x0B], []) := by
  decide
/-- V48: decoding comes before the state check. -/
theorem test_check_order :
    refusalOf (step (sReset params [0x08, 0x00, 0x00, 0x41, 0x05])) = some (.size 5 reset) ∧
    faultOf (step (sReset params [0x08, 0x00, 0x00, 0x41, 0x01])) =
      some (.notReady (.char 0 0 0x41 1)) := ⟨rfl, by decide⟩
/-- The word a table row gives is what the next step runs. -/
theorem test_withFetchWord :
    (nextOf (step (reset.withFetchWord 16 0x1A5))).map (·.rx.ram) = some [(0, 0xA5)] ∧
    (nextOf (step (reset.withFetchWord 8 0x0C))).map (·.mainJobs) = some [.op .loop] := by decide

/-! ### Witnesses: a state and operands for the hypotheses of each statement -/

theorem booted_atRequest : booted.AtRequest := ⟨⟨rfl, rfl, rfl⟩, rfl, rfl⟩
theorem reset_atRequest : reset.AtRequest := ⟨⟨rfl, rfl, rfl⟩, rfl, rfl⟩
theorem booted_busReady : booted.BusReady := ⟨rfl, rfl, rfl, rfl⟩
theorem atLevel_atRequest (level : Byte) : (atLevel level).AtRequest :=
  ⟨⟨rfl, rfl, rfl⟩, rfl, rfl⟩
theorem handler_undisturbed (acts : List Action) : (inHandler acts).Undisturbed :=
  ⟨rfl, rfl, rfl⟩

/-- A booted state, and one asleep in an activation, meet the invariant. -/
theorem booted_inv : booted.Inv where
  ram := rfl
  held := fun h => by cases h
  latch := fun _ => rfl
  tails := fun f hf => by cases hf
  suspended := fun f hf => by cases hf
  masked := fun _ f hf => by cases hf
  sleeping := fun h => by cases h
  nesting := by decide
  mainActions := fun a ha => by cases ha
  mainJobs := fun j hj => by cases hj
theorem sleeping_inv : sleeping.Inv where
  ram := rfl
  held := fun h => by cases h
  latch := fun _ => rfl
  tails := fun f hf => by
    rw [List.mem_singleton.1 hf]
    exact ⟨by decide, .inr ⟨(offPath params).take 8, rfl⟩⟩
  suspended := fun f hf => by cases hf
  masked := fun _ f hf => by cases hf; decide
  sleeping := fun _ => ⟨rfl, [], rfl⟩
  nesting := by decide
  mainActions := fun a ha => by cases ha
  mainJobs := fun j hj => by cases hj
/-- So does a booted state in the middle of a word, and a handler on the off path. -/
def midWord : State := { booted with mainSeq := wordActions (true, 0xA5) }
theorem midWord_inv : midWord.Inv :=
  { booted_inv with
    mainActions := fun a ha => Action.isMain_of_isPlain (wordActions_plain (true, 0xA5) a ha) }
theorem handler_inv : (inHandler (offPath params)).Inv :=
  { booted_inv with
    tails := fun f hf => by
      rw [List.mem_singleton.1 hf]
      exact ⟨by decide, .inr (List.suffix_refl _)⟩
    suspended := fun f hf => by cases hf
    masked := fun h => by cases h
    sleeping := fun h => by cases h
    nesting := by decide }

theorem witness_EveryStepKeepsTheInvariant :
    (booted.Inv ∧ ∃ t, step booted = .next t) ∧ (sleeping.Inv ∧ ∃ t, step sleeping = .next t) ∧
    (midWord.Inv ∧ ∃ t, step midWord = .next t) :=
  ⟨⟨booted_inv, _, rfl⟩, ⟨sleeping_inv, _, rfl⟩, ⟨midWord_inv, _, rfl⟩⟩
theorem witness_BootListReachesBooted : params.startup.filter Instr.isStartup = [] := rfl
theorem witness_DecodeReadsEveryEncodedRequest :
    (Instr.str 5 83 2 [0xFF, 0]).isRequest = true ∧ (Instr.str 5 83 2 [0xFF, 0]).wf = true := by
  decide
theorem witness_AcceptedBytesAreTheEncoding : decode [0x0C, 0xFF] = .ok .loop [0xFF] := by decide
theorem witness_WireWordsRoundTrip :
    (Instr.contrastBias 0x48).isWireWord = true ∧ (Instr.contrastBias 0x48).wf = true := by decide
theorem witness_DecoderRefusesByName :
    (0x0D ≤ (0x0D#8).toNat) ∧ ((Instr.char 0 0 0 1).isRequest = true ∧
      (Instr.char 0 0 0 1).wf = true ∧ 4 < (encode (.char 0 0 0 1)).length) ∧
    ((0 : Byte) ≠ 1 ∧ (0 : Byte) ≠ 2 ∧ (3 : Byte) ≠ 1 ∧ (3 : Byte) ≠ 2) ∧ textOk [0] = true ∧
    ((sReset params [0x0D]).mainJobs = [] ∧ (sReset params [0x0D]).requests ≠ [] ∧
      decode (sReset params [0x0D]).requests = .refuse (.opcode 0x0D) []) := by decide
theorem witness_refusal_atRequest : (sReset params [0x0D]).AtRequest :=
  ⟨⟨rfl, rfl, rfl⟩, rfl, rfl⟩
theorem witness_StepRunsTheDecodedRequest :
    (sBooted params [0x0B, 0x0B]).AtRequest ∧ (sBooted params [0x0B, 0x0B]).mainJobs = [] ∧
      (sBooted params [0x0B, 0x0B]).requests ≠ [] ∧
      decode (sBooted params [0x0B, 0x0B]).requests = .ok .tick [0x0B] :=
  ⟨⟨⟨rfl, rfl, rfl⟩, rfl, rfl⟩, rfl, by simp [sBooted], rfl⟩
theorem witness_StepRunsTheBootList :
    (powerOn params).AtRequest ∧ (∃ a more, (powerOn params).mainJobs = .act a :: more) ∧
    ({ booted with mainJobs := [.op .loop] } : State).AtRequest :=
  ⟨⟨⟨rfl, rfl, rfl⟩, rfl, rfl⟩, ⟨_, _, rfl⟩, ⟨rfl, rfl, rfl⟩, rfl, rfl⟩
/-- The last clock edge of a word, as `withFetchWord` places it. -/
theorem witness_EighthClockEdgeRunsTheWireWord :
    let s := placeWireWord true 0xA5 booted
    s.Undisturbed ∧ s.frames = [] ∧ s.mainSeq = [.pinWrite .sclk true] ∧
      s.pins.sclk = ⟨.out, false⟩ ∧ s.pins.rst.out = true ∧ s.rx.regs.count = 7 :=
  ⟨⟨rfl, rfl, rfl⟩, rfl, rfl, rfl, rfl, rfl⟩
/-- Before the button is set up, after it with a falling and a rising edge, and under each
qualifier. -/
theorem witness_QualifyingEdgeIsTheEdgeEvent :
    (∃ s : State, (s.pending && s.ie) = false ∧ s.sched = [.button false] ∧ s.btnMode = .unconf) ∧
    (∃ s : State, (s.pending && s.ie) = false ∧ s.sched = [.button false] ∧
      s.btnMode = .inPullup ∧ s.params.edgeQualifier = .falling ∧ s.btnPrev = true) ∧
    (∃ s : State, (s.pending && s.ie) = false ∧ s.sched = [.button true] ∧
      s.btnMode = .inPullup ∧ s.params.edgeQualifier = .rising ∧ s.btnPrev = false) ∧
    (∃ s : State, (s.pending && s.ie) = false ∧ s.sched = [.button true] ∧
      s.btnMode = .inPullup ∧ s.params.edgeQualifier = .any ∧ s.btnPrev = true) :=
  ⟨⟨{ reset with sched := [.button false] }, rfl, rfl, rfl⟩,
   ⟨{ booted with sched := [.button false] }, rfl, rfl, rfl, rfl, rfl⟩,
   ⟨{ withEdges .rising false with sched := [.button true], btnPrev := false },
     rfl, rfl, rfl, rfl, rfl⟩,
   ⟨{ withEdges .any false with sched := [.button true] }, rfl, rfl, rfl, rfl, rfl⟩⟩
/-- Of TXB, CMD and DAT, SETCUR, the clears, CHAR and STR: not ready, and ready at a request. -/
theorem witness_display_requests :
    reset.dispState ≠ .ready ∧ booted.AtRequest ∧ booted.BusReady :=
  ⟨by decide, booted_atRequest, booted_busReady⟩
theorem witness_InitRunsItsThreeSteps :
    booted.dispState ≠ .uninit ∧ reset.AtRequest ∧ reset.dispState = .uninit :=
  ⟨by decide, reset_atRequest, rfl⟩
theorem witness_InitLeavesTheReceiverReady :
    reset.AtRequest ∧ reset.dispState = .uninit ∧ reset.rx.regs.Held ∧
      reset.params.tRstMin ≤ reset.params.tRst ∧
      (∀ b ∈ reset.params.contrastBias, b.getLsbD 7 = true) :=
  ⟨reset_atRequest, rfl, ⟨rfl, rfl, rfl, rfl, rfl, rfl, rfl, rfl, rfl, rfl⟩, by decide, by decide⟩
/-- CHAR and STR at every size, a text with and without a terminator, ending inside the display and
at its edge. -/
theorem witness_text_operands :
    ((0 : Byte) ≠ 1 ∧ (0 : Byte) ≠ 2) ∧ ((2 : Byte) = 1 ∨ (2 : Byte) = 2) ∧
    (0 ∈ [0x41#8, 0]) ∧ (0 ∉ [0x41#8, 0x42#8] ∧ 84 ≤ (72#8).toNat + 2 * (6 * (1#8).toNat)) ∧
    (0 ∉ [0x41#8, 0x42#8] ∧ (71#8).toNat + 2 * (6 * (1#8).toNat) < 84) := by decide
theorem witness_UnterminatedTextFaults : booted.dispState = .ready := rfl
theorem witness_TextColumnsStayInside :
    booted.AtRequest ∧ booted.BusReady ∧
    (∃ t, exec (.char 0 83 0x41 1) booted = .next t) ∧
    (∃ t, exec (.str 0 83 1 [0x41, 0]) booted = .next t) :=
  ⟨booted_atRequest, booted_busReady, ⟨_, rfl⟩, _, rfl⟩
theorem witness_OutsideCharactersAreQuestionMarks :
    (0x20 ≤ (0x7F#8).toNat ∧ (0x7F#8).toNat ≤ 0x7F) ∧ (0x1F#8).toNat < 0x20 ∧
      0x7F < (0x80#8).toNat := by decide
theorem witness_GlyphBytesStandInTheFont :
    (0x20 ≤ (0x20#8).toNat ∧ (0x20#8).toNat ≤ 0x7F) ∧ (0x20 ≤ (0x7F#8).toNat ∧ (0x7F#8).toNat ≤ 0x7F) := by
  decide
theorem witness_ScaleTwoDoublesPixels : (1 < 2) ∧ (7 < 8) := by decide
theorem witness_SetlvlClampsAndForcesLow :
    (0 < (1 : I16).toInt ∧ (255 : I16).toInt ≤ 255) ∧ 255 < (256 : I16).toInt ∧
    ((0 : I16).toInt ≤ 0 ∧ booted.pins.led.mode = .out) ∧
    ((-1 : I16).toInt ≤ 0 ∧ reset.pins.led.mode = .unconf) := by decide
theorem witness_tick_and_loop :
    (atLevel 0).AtRequest ∧ (atLevel 0).level = 0 ∧ (atLevel 1).AtRequest ∧
      (atLevel 1).level ≠ 0 ∧ (atLevel 1).pins.led.mode = .out :=
  ⟨atLevel_atRequest 0, rfl, atLevel_atRequest 1, by decide, rfl⟩
theorem witness_LoopNeverEndsNormally :
    ∃ t u, exec .loop (atLevel 255) = .next t ∧ runs 4 t = .next u := ⟨_, _, rfl, rfl⟩
/-- Entry below and past NEST_LIMIT, at levels 254 and 255, awake and asleep, by an edge and by the
latch. -/
theorem witness_EdgeEntersTheHandler :
    (booted.pcintEn = true ∧ booted.ie = true) ∧
    ({ booted with pending := true } : State).pending = true ∧
    booted.frames.length + 1 ≤ booted.params.nestLimit ∧
    (atLevel 254).level.toNat < 255 ∧ (atLevel 255).level.toNat = 255 ∧ sleeping.asleep = true ∧
    ({ booted with frames := [⟨afterSleep⟩, ⟨afterSleep⟩, ⟨afterSleep⟩] } : State).params.nestLimit <
      3 + 1 := by decide
theorem witness_MaskedEdgeIsLostOrLatched :
    reset.pcintEn = false ∧ ((inHandler []).pcintEn = true ∧ (inHandler []).ie = false) ∧
    (inHandler []).params.edgeLatch = false ∧ (withEdges .falling true).params.edgeLatch = true := by
  decide
theorem witness_LatchedEdgeStartsWhenUnmasked :
    ∃ s t : State, s.pending = true ∧ s.ie = true ∧ s.pcintEn = true ∧ step s = .next t :=
  ⟨{ withEdges .falling true with pending := true }, _, rfl, rfl, rfl, rfl⟩
theorem witness_handler_paths :
    (∀ level, (atLevel level).pcintEn = true ∧ (atLevel level).ie = true ∧
      (atLevel level).sched = [] ∧
      (atLevel level).frames.length + 1 ≤ (atLevel level).params.nestLimit) ∧
    (atLevel 254).level.toNat < 255 ∧
    (atLevel 255).level.toNat = 255 ∧ (atLevel 255).pins.led.mode = .out :=
  ⟨fun _ => ⟨rfl, rfl, rfl, by show 0 + 1 ≤ 3; decide⟩, by decide, by decide, rfl⟩
theorem witness_SleepSequenceSleeps :
    ((inHandler [.ret]).Undisturbed ∧ (inHandler [.ret]).frames = ⟨[.ret]⟩ :: []) ∧
    (booted.Undisturbed ∧ booted.frames = []) :=
  ⟨⟨handler_undisturbed _, rfl⟩, booted_atRequest.toUndisturbed, rfl⟩
/-- SleepCpu unarmed, armed in power-down and armed in idle; asleep, with and without a turn. -/
theorem witness_SleepCpuSleepsWhenArmed :
    ((inHandler (.sleepCpu :: afterSleep)).Undisturbed ∧
      (inHandler (.sleepCpu :: afterSleep)).se = false) ∧
    (∃ s : State, s.Undisturbed ∧ s.frames = [⟨.sleepCpu :: afterSleep⟩] ∧ s.se = true ∧
      s.sleepMode = .powerDown) ∧
    (∃ s : State, s.Undisturbed ∧ s.frames = [⟨.sleepCpu :: afterSleep⟩] ∧ s.se = true ∧
      s.sleepMode = .idle) ∧
    (sleeping.asleep = true ∧ (sleeping.pending && sleeping.ie) = false ∧ sleeping.sched = []) ∧
    (∃ s : State, s.asleep = true ∧ (s.pending && s.ie) = false ∧ s.sched = [.device]) :=
  ⟨⟨handler_undisturbed _, rfl⟩,
   ⟨{ inHandler (.sleepCpu :: afterSleep) with se := true, sleepMode := .powerDown },
     ⟨rfl, rfl, rfl⟩, rfl, rfl, rfl⟩,
   ⟨{ inHandler (.sleepCpu :: afterSleep) with se := true }, ⟨rfl, rfl, rfl⟩, rfl, rfl, rfl⟩,
   ⟨rfl, rfl, rfl⟩, ⟨{ sleeping with sched := [.device] }, rfl, rfl, rfl⟩⟩
theorem witness_RetPopsAndUnmasks :
    (inHandler [.ret]).Undisturbed ∧ (inHandler [.ret]).frames = ⟨[.ret]⟩ :: [] :=
  ⟨handler_undisturbed _, rfl⟩
/-- The turns of W6: press, on path; release, press, off path to sleep; release, press, on path and
the rest of the sleeping frame. -/
def twoPresses : List Turn :=
  [.button false, .device, .device, .device, .device, .button true, .button false,
   .device, .device, .device, .device, .device, .device, .device, .device,
   .button true, .button false,
   .device, .device, .device, .device, .device, .device, .device]
theorem witness_TwoPressCycleReturnsBright :
    let s := { booted with sched := twoPresses }
    s.params.edgeQualifier = .falling ∧ s.frames = [] ∧ s.asleep = false ∧
    s.pending = false ∧ s.ie = true ∧ s.pcintEn = true ∧
    s.btnMode = .inPullup ∧ s.btnPrev = true ∧ s.pins.led.mode = .out ∧
    s.level.toNat < 255 ∧ 2 ≤ s.params.nestLimit ∧
    s.sched = [.button false] ++ List.replicate 4 .device ++
      [.button true, .button false] ++ List.replicate 8 .device ++
      [.button true, .button false] ++ List.replicate 7 .device ++ [] := by decide
theorem witness_WindowEdgeSleepsBright :
    ∃ s : State, s.Undisturbed ∧ s.ie = true ∧ s.pcintEn = true ∧ s.level = 0 ∧
      s.frames.length + 1 ≤ s.params.nestLimit ∧ s.frames = [⟨sleepActions ++ [.ret]⟩] :=
  ⟨{ inHandler (sleepActions ++ [.ret]) with ie := true }, ⟨rfl, rfl, rfl⟩, rfl, rfl, rfl,
    by decide, rfl⟩
theorem witness_EightSamplesMakeAByte : rxAfterInit.regs.count = 0 := rfl
/-- RST low and high, both instruction sets, and cursor values at the edge of the reserved ones. -/
theorem witness_wire_words :
    reset.pins.rst.out = false ∧ booted.pins.rst.out = true ∧
    booted.rx.regs.extended = false ∧ extendedSet.rx.regs.extended = true ∧
    (83#7).toNat < 84 ∧ 84 ≤ (84#7).toNat ∧ (5#3).toNat < 6 ∧ 6 ≤ (6#3).toNat := by decide
/-- Bytes for each clause of CONTRAST_BIAS: a value, a reserved neighbour. -/
theorem witness_ContrastWordsSetVopBiasTc :
    (0x27#8).extractLsb' 3 5 = 0b00100#5 ∧ (0x80#8).getLsbD 7 = true ∧
    (0x17#8).extractLsb' 3 5 = 0b00010#5 ∧ (0x07#8).extractLsb' 2 6 = 0b000001#6 ∧
    ((0x03#8 ≠ 0) ∧ (0x03#8).extractLsb' 3 5 ≠ 0b00100#5 ∧ (0x03#8).getLsbD 7 = false ∧
      (0x03#8).extractLsb' 3 5 ≠ 0b00010#5 ∧ (0x03#8).extractLsb' 2 6 ≠ 0b000001#6) ∧
    ((0xD3#8).getLsbD 7 = true ∧ (0xD3#8).toNat - 128 < 84) ∧
    ((0x45#8).extractLsb' 3 5 = 0b01000#5 ∧ (0x45#8).toNat - 64 < 6) ∧
    ((0xD4#8).getLsbD 7 = true ∧ 84 ≤ (0xD4#8).toNat - 128 ∧
      (0xD4#8).extractLsb' 3 5 ≠ 0b01000#5 ∧ (0xD4#8).extractLsb' 3 5 ≠ 0b00100#5) ∧
    ((0x46#8).getLsbD 7 = false ∧ (0x46#8).extractLsb' 3 5 = 0b01000#5 ∧
      6 ≤ (0x46#8).toNat - 64) := by decide
theorem witness_DataWordWritesTheCell :
    (cursorAt 5 83 false).rx.regs.vertical = false ∧ (cursorAt 5 83 true).rx.regs.vertical = true ∧
    (cursorAt 5 83 false).pins.rst.out = true ∧ reset.pins.rst.out = false := by decide
theorem witness_clears :
    booted.AtRequest ∧ booted.BusReady ∧ booted.pins.rst.out = true ∧ booted.rx.regs.count = 0 ∧
      booted.rx.regs.extended = false ∧ booted.rx.regs.vertical = false :=
  ⟨booted_atRequest, booted_busReady, rfl, rfl, rfl, rfl⟩
theorem witness_UnconfiguredPinWriteFaults :
    ∃ s u : State, nextMove s = .act (.pinWrite .led true) u ∧ (u.pins.get .led).mode ≠ .out :=
  ⟨{ reset with mainSeq := [.pinWrite .led true] }, _, rfl, by decide⟩
theorem witness_SameLevelWriteOnlyTraces :
    ∃ s u : State, nextMove s = .act (.pinWrite .rst (u.pins.get .rst).out) u ∧
      (u.pins.get .rst).mode = .out :=
  ⟨{ booted with mainSeq := [.pinWrite .rst true] }, booted, rfl, rfl⟩
theorem witness_HandlerLeavesTheDisplayAlone :
    (inHandler (offPath params)).Inv ∧ (inHandler (offPath params)).frames ≠ [] ∧
      ∃ t, step (inHandler (offPath params)) = .next t :=
  ⟨handler_inv, by simp [inHandler], _, rfl⟩
theorem witness_EdgesNeverTearTheBus :
    midWord.Inv ∧ midWord.mainJobs = [] ∧ midWord.requests = [] ∧ ∃ u, runs 2 midWord = .next u :=
  ⟨midWord_inv, rfl, rfl, _, rfl⟩
theorem witness_MaskedMeansNoActivation : reset.ie = false ∧ ∃ t, step reset = .next t :=
  ⟨rfl, _, rfl⟩
theorem witness_OnlyTheSetterWritesTheLevel :
    (∃ t, exec .tick booted = .next t) ∧
    ∃ s t : State, step s = .next t ∧ t.level ≠ s.level :=
  ⟨⟨_, rfl⟩, { booted with mainSeq := [.setLevel 255] }, _, rfl, by decide⟩
theorem witness_every_step : ∃ t, step midWord = .next t := ⟨_, rfl⟩

end Sys2Proof.Tests
end

/-! ## What starting any instruction can do -/

namespace Sys2Proof.Machine

/-- A reserved opcode answers no next state (30_encoding.md R71). -/
theorem exec_reserved_ne_next {i : Instr} (hi : i.isReserved = true) (s t : State) :
    exec i s ≠ .next t := by
  cases i <;> cases hi <;> exact fun h => nomatch h

/-- A wire word is received, as a command or as data (30_encoding.md R64). -/
theorem exec_wireWord_next {i : Instr} {s t : State} (hi : i.isWireWord = true)
    (h : exec i s = .next t) : ∃ isCommand b, t = receiveWord isCommand b s := by
  cases i <;> cases hi <;> cases h <;> exact ⟨_, _, rfl⟩

/-- Everything that starting an instruction can do: a request gives the main context its actions, a
wire word is received, the edge event is delivered, the sleep sequence is called in place. -/
theorem exec_next {i : Instr} {s t : State} (h : exec i s = .next t) :
    (∃ acts, t = startMain acts s ∨
      i = .loop ∧ t = startMain acts { s with mainJobs := .op .loop :: s.mainJobs }) ∨
    (∃ isCommand b, t = receiveWord isCommand b s) ∨
    (i = .evEdge ∧ deliverEdge s = .next t) ∨
    (i = .sleepseq ∧ t = callInPlace sleepActions s) := by
  by_cases hreq : i.isRequest = true
  · exact .inl (exec_request hreq h)
  by_cases hwire : i.isWireWord = true
  · exact .inr (.inl (exec_wireWord_next hwire h))
  by_cases hres : i.isReserved = true
  · exact absurd h (exec_reserved_ne_next hres s t)
  cases i
  case evEdge => exact .inr (.inr (.inl ⟨rfl, h⟩))
  case sleepseq => cases h; exact .inr (.inr (.inr ⟨rfl, rfl⟩))
  all_goals simp [Instr.isRequest, Instr.isWireWord, Instr.isReserved] at hreq hwire hres

/-! ## The trace (00_scope.md R14, 10_state.md R37) -/

/-- From `s` to `t` the trace stays, or one event is put in front of its newest. -/
def AtMostOneEvent (s t : State) : Prop :=
  t.traceRev = s.traceRev ∨ ∃ e, t.traceRev = e :: s.traceRev

/-- Only the trace of the earlier state matters. -/
theorem AtMostOneEvent.of_traceRev_eq {s u t : State} (h : AtMostOneEvent u t)
    (htrace : u.traceRev = s.traceRev) : AtMostOneEvent s t := by
  unfold AtMostOneEvent at h ⊢
  rwa [htrace] at h

theorem AtMostOneEvent.trace {s t : State} (h : AtMostOneEvent s t) :
    t.trace = s.trace ∨ ∃ e, t.trace = s.trace ++ [e] := by
  unfold State.trace
  rcases h with h | ⟨e, h⟩
  · exact .inl (congrArg List.reverse h)
  · exact .inr ⟨e, by rw [h, List.reverse_cons]⟩

@[simp] theorem receiveWord_traceRev (isCommand : Bool) (b : Byte) (s : State) :
    (receiveWord isCommand b s).traceRev = s.traceRev := by
  unfold receiveWord; split <;> rfl

@[simp] theorem callInPlace_traceRev (acts : List Action) (s : State) :
    (callInPlace acts s).traceRev = s.traceRev := by
  unfold callInPlace; split <;> rfl

/-- An action appends the event it names, if it names one (R15, R37). -/
theorem perform_atMostOneEvent {a : Action} {s t : State} (h : perform a s = .next t) :
    AtMostOneEvent s t := by
  have hp := perform_next h
  cases a <;> simp only at hp
  case pinCfg p => subst hp; exact .inr ⟨.cfg p, rfl⟩
  case btnCfg => subst hp; exact .inr ⟨.cfgBtn, rfl⟩
  case pinWrite p v => obtain ⟨-, rfl⟩ := hp; exact .inr ⟨.set p v, rfl⟩
  case delay k d => subst hp; exact .inr ⟨.wait k d, rfl⟩
  case sleepCpu =>
    rcases hp with ⟨-, -, rfl⟩ | ⟨-, rfl⟩
    · exact .inr ⟨.sleep, rfl⟩
    · exact .inl rfl
  case setLevel v =>
    rcases hp with ⟨-, -, rfl⟩ | ⟨-, rfl⟩
    · exact .inr ⟨.set .led false, rfl⟩
    · exact .inl rfl
  all_goals (subst hp; exact .inl rfl)

theorem woken_atMostOneEvent (s : State) : AtMostOneEvent s s.woken := by
  unfold State.woken
  split
  · exact .inr ⟨.wake, rfl⟩
  · exact .inl rfl

/-- Activation entry appends the wake of a sleeping device and nothing else (60_exceptions.md
R125). -/
theorem enterActivation_atMostOneEvent {s t : State} (h : enterActivation s = .next t) :
    AtMostOneEvent s t := by
  obtain ⟨-, rfl⟩ := enterActivation_next h
  exact woken_atMostOneEvent s

theorem deliverEdge_atMostOneEvent {s t : State} (h : deliverEdge s = .next t) :
    AtMostOneEvent s t := by
  rcases deliverEdge_next h with rfl | ⟨-, -, rfl⟩ | ⟨-, -, hentry⟩
  · exact .inl rfl
  · exact .inl rfl
  · exact enterActivation_atMostOneEvent hentry

theorem buttonTurn_atMostOneEvent {b : Bit} {s t : State} (h : buttonTurn b s = .next t) :
    AtMostOneEvent s t := by
  obtain ⟨prev, rfl | ⟨-, -, rfl⟩ | ⟨-, -, hentry⟩⟩ := buttonTurn_next h
  · exact .inl rfl
  · exact .inl rfl
  · exact (enterActivation_atMostOneEvent hentry).of_traceRev_eq rfl

/-- Starting an instruction appends no event; only the edge event's wake does. -/
theorem exec_atMostOneEvent {i : Instr} {s t : State} (h : exec i s = .next t) :
    AtMostOneEvent s t := by
  rcases exec_next h with ⟨acts, rfl | ⟨-, rfl⟩⟩ | ⟨isCommand, b, rfl⟩ | ⟨-, hedge⟩ | ⟨-, rfl⟩
  · exact .inl rfl
  · exact .inl rfl
  · exact .inl (receiveWord_traceRev isCommand b s)
  · exact deliverEdge_atMostOneEvent hedge
  · exact .inl (callInPlace_traceRev sleepActions s)

/-- The running context performs one action, starts one operation, or rests. -/
theorem ContextStep.atMostOneEvent {s t : State} {turns : List Turn} (h : ContextStep s turns t) :
    AtMostOneEvent s t := by
  rcases h.cases with rfl | ⟨-, ⟨_, _, _, -, hact⟩ | ⟨-, ⟨_, _, -, hact⟩ |
    ⟨-, ⟨_, _, -, hact⟩ | ⟨_, _, -, hop⟩ | ⟨_, _, -, -, -, hop⟩⟩⟩⟩
  · exact .inl rfl
  · exact (perform_atMostOneEvent hact).of_traceRev_eq rfl
  · exact (perform_atMostOneEvent hact).of_traceRev_eq rfl
  · exact (perform_atMostOneEvent hact).of_traceRev_eq rfl
  · exact (exec_atMostOneEvent hop).of_traceRev_eq rfl
  · exact (exec_atMostOneEvent hop).of_traceRev_eq rfl

theorem step_atMostOneEvent {s t : State} (h : step s = .next t) : AtMostOneEvent s t := by
  rcases step_cases h with ⟨-, -, hlatched⟩ | ⟨-, turns, ⟨b, -, hturn⟩ | ⟨-, hctx⟩⟩
  · exact enterActivation_atMostOneEvent hlatched
  · exact (buttonTurn_atMostOneEvent hturn).of_traceRev_eq rfl
  · exact hctx.atMostOneEvent

/-- Settles O60: each move is one action, one start or one edge, and each of these appends at most one
event. -/
theorem traceGrowsByAtMostOneEvent : Obligations.TraceGrowsByAtMostOneEvent :=
  fun _ _ h => (step_atMostOneEvent h).trace

end Sys2Proof.Machine

/-! ## The reset state (10_state.md R40) -/

namespace Sys2Proof.Machine

theorem powerOnRegs_held : powerOnRegs.Held := ⟨rfl, rfl, rfl, rfl, rfl, rfl, rfl, rfl, rfl, rfl⟩

/-- Settles O1: each element is read off `State.reset`; the start-up part of the boot list is what
the filter keeps of STARTUP_REQUESTS. -/
theorem resetStateIsTheTable : Obligations.ResetStateIsTheTable := by
  have hpins : ∀ p, State.reset.pins.get p = ⟨.unconf, false⟩ := fun p => by cases p <;> rfl
  have hstartup : ∀ i ∈ Config.device.startup.filter Instr.isStartup, i.isStartup = true :=
    fun _ hi => (List.mem_filter.1 hi).2
  exact ⟨rfl, hpins, rfl, rfl, rfl, rfl, rfl, rfl, rfl, rfl, rfl, rfl, rfl,
    ⟨_, hstartup, rfl⟩, powerOnRegs_held, fun _ => rfl⟩

/-! ## What the next move is, and the state it acts on -/

/-- Awake and with no activation, the main context runs (10_state.md R36). -/
theorem contextMove_main {s : State} (hawake : s.asleep = false) (hframes : s.frames = []) :
    contextMove s = mainMove s := by
  simp [contextMove, hawake, hframes]

/-- With no action and no boot entry left, the main context starts the request its bytes decode to
(30_encoding.md R66). -/
theorem mainMove_request {s : State} {i : Instr} {rest : List Byte} (hseq : s.mainSeq = [])
    (hjobs : s.mainJobs = []) (hbytes : s.requests ≠ []) (hdec : decode s.requests = .ok i rest) :
    mainMove s = .op i { s with requests := rest } := by
  cases hr : s.requests with
  | nil => exact absurd hr hbytes
  | cons b bs =>
    rw [hr] at hdec
    simp [mainMove, requestMove, hseq, hjobs, hr, hdec]

/-- Settles O12: the next move is the start of the decoded request. -/
theorem stepRunsTheDecodedRequest : Obligations.StepRunsTheDecodedRequest := by
  intro s i rest hs hjobs hbytes hdec
  have hmove : nextMove s = .op i { s with requests := rest } := by
    rw [nextMove_undisturbed hs.toUndisturbed, contextMove_main hs.awake hs.noFrame,
      mainMove_request hs.noAction hjobs hbytes hdec]
  rw [step_eq, hmove]
  rfl

/-- Settles O53: whichever context the move is of, it is performed by `pinWrite`, which tests the
pin first. -/
theorem unconfiguredPinWriteFaults : Obligations.UnconfiguredPinWriteFaults := by
  intro s u p v hmove hmode
  rw [step_eq, hmove]
  exact if_neg hmode

/-- The state a move acts on; a refusal acts on none. -/
def Move.state : Move → Option State
  | .activate s | .button _ s | .act _ s | .op _ s | .rest s => some s
  | .refuse _ => none

/-- `u` is `s` with only the lists of what is still to run changed, and no activation begun or
ended. -/
def ListsTaken (s u : State) : Prop :=
  ∃ turns frames acts jobs bytes, frames.length = s.frames.length ∧
    u = { s with
      sched := turns, frames := frames, mainSeq := acts, mainJobs := jobs, requests := bytes }

theorem ListsTaken.refl (s : State) : ListsTaken s s := ⟨_, _, _, _, _, rfl, rfl⟩

theorem ListsTaken.of_sched {s u : State} {turns : List Turn}
    (h : ListsTaken { s with sched := turns } u) : ListsTaken s u := by
  obtain ⟨turns', frames, acts, jobs, bytes, hlen, rfl⟩ := h
  exact ⟨turns', frames, acts, jobs, bytes, hlen, rfl⟩

theorem mainMove_listsTaken {s u : State} (h : (mainMove s).state = some u) :
    ListsTaken s u := by
  rcases mainMove_cases s with ⟨_, _, -, hm⟩ | ⟨_, _, -, -, hm⟩ | ⟨_, _, -, -, hm⟩ |
    ⟨_, _, -, -, -, -, hm⟩ | ⟨_, _, -, -, -, -, hm⟩ | ⟨-, -, -, hm⟩ <;>
    rw [hm] at h <;> cases h <;> exact ⟨_, _, _, _, _, rfl, rfl⟩

theorem contextMove_listsTaken {s u : State} (h : (contextMove s).state = some u) :
    ListsTaken s u := by
  unfold contextMove at h
  split at h
  · cases h; exact .refl s
  · split at h
    · rename_i a more below hframes
      cases h; exact ⟨_, _, _, _, _, by rw [hframes]; rfl, rfl⟩
    · cases h; exact .refl s
    · exact mainMove_listsTaken h

theorem nextMove_listsTaken {s u : State} (h : (nextMove s).state = some u) :
    ListsTaken s u := by
  unfold nextMove at h
  split at h
  · cases h; exact .refl s
  · split at h
    · exact contextMove_listsTaken h
    · exact (contextMove_listsTaken h).of_sched
    · cases h; exact (ListsTaken.refl _).of_sched

theorem contextMove_ne_activate (s u : State) : contextMove s ≠ .activate u := by
  unfold contextMove mainMove requestMove
  repeat' split
  all_goals exact fun h => nomatch h

/-- A latched edge starts only where `ie` is set (60_exceptions.md R126). -/
theorem ie_of_nextMove_activate {s u : State} (h : nextMove s = .activate u) : s.ie = true := by
  unfold nextMove at h
  split at h
  · rename_i hlatched
    exact (Bool.and_eq_true_iff.1 hlatched).2
  · split at h
    · exact absurd h (contextMove_ne_activate _ u)
    · exact absurd h (contextMove_ne_activate _ u)
    · cases h

/-- Everything a step can do, with the move it makes: nothing runs, or the move's own operation
answers the next state. -/
theorem step_next {s t : State} (h : step s = .next t) :
    ∃ u, ListsTaken s u ∧
      (t = u ∨
        (s.ie = true ∧ enterActivation u = .next t) ∨
        (∃ b, buttonTurn b u = .next t) ∨
        (∃ a, nextMove s = .act a u ∧ perform a u = .next t) ∨
        ∃ i, exec i u = .next t) := by
  have taken : ∀ u, (nextMove s).state = some u → ListsTaken s u := fun _ => nextMove_listsTaken
  rw [step_eq] at h
  cases hm : nextMove s <;> rw [hm] at h taken
  case activate u =>
    exact ⟨u, taken u rfl, .inr (.inl ⟨ie_of_nextMove_activate hm, h⟩)⟩
  case button b u => exact ⟨u, taken u rfl, .inr (.inr (.inl ⟨b, h⟩))⟩
  case act a u => exact ⟨u, taken u rfl, .inr (.inr (.inr (.inl ⟨a, rfl, h⟩)))⟩
  case op i u => exact ⟨u, taken u rfl, .inr (.inr (.inr (.inr ⟨i, h⟩)))⟩
  case refuse r => cases h
  case rest u => exact ⟨u, taken u rfl, .inl (by cases h; rfl)⟩

/-! ## What entry, the edge and starting an operation leave alone -/

/-- The configuration and the level are the same. -/
structure SameSettings (s t : State) : Prop where
  params : t.params = s.params
  level : t.level = s.level

/-- The display lines, the receiver and the driver's state are the same (10_state.md R23). -/
structure SameDisplay (s t : State) : Prop where
  sclk : t.pins.sclk = s.pins.sclk
  sdin : t.pins.sdin = s.pins.sdin
  dc : t.pins.dc = s.pins.dc
  rst : t.pins.rst = s.pins.rst
  rx : t.rx = s.rx
  dispState : t.dispState = s.dispState

theorem SameDisplay.of_eq {s t : State} (hpins : t.pins = s.pins) (hrx : t.rx = s.rx)
    (hdisp : t.dispState = s.dispState) : SameDisplay s t :=
  ⟨by rw [hpins], by rw [hpins], by rw [hpins], by rw [hpins], hrx, hdisp⟩

theorem SameSettings.trans {s u t : State} (hsu : SameSettings s u) (hut : SameSettings u t) :
    SameSettings s t :=
  ⟨hut.params.trans hsu.params, hut.level.trans hsu.level⟩

theorem SameDisplay.trans {s u t : State} (hsu : SameDisplay s u) (hut : SameDisplay u t) :
    SameDisplay s t :=
  ⟨hut.sclk.trans hsu.sclk, hut.sdin.trans hsu.sdin, hut.dc.trans hsu.dc,
    hut.rst.trans hsu.rst, hut.rx.trans hsu.rx, hut.dispState.trans hsu.dispState⟩

/-- Only the display of the earlier state matters. -/
theorem SameDisplay.of_start_eq {s u t : State} (h : SameDisplay u t) (hpins : u.pins = s.pins)
    (hrx : u.rx = s.rx) (hdisp : u.dispState = s.dispState) : SameDisplay s t :=
  (SameDisplay.of_eq hpins hrx hdisp).trans h

theorem ListsTaken.sameSettings {s u : State} (h : ListsTaken s u) : SameSettings s u := by
  obtain ⟨_, _, _, _, _, -, rfl⟩ := h
  exact ⟨rfl, rfl⟩

theorem ListsTaken.ie {s u : State} (h : ListsTaken s u) : u.ie = s.ie := by
  obtain ⟨_, _, _, _, _, -, rfl⟩ := h
  rfl

theorem ListsTaken.frames_length {s u : State} (h : ListsTaken s u) :
    u.frames.length = s.frames.length := by
  obtain ⟨_, _, _, _, _, hlen, rfl⟩ := h
  exact hlen

theorem woken_same (s : State) : SameSettings s s.woken ∧ SameDisplay s s.woken := by
  unfold State.woken
  split <;> exact ⟨⟨rfl, rfl⟩, .of_eq rfl rfl rfl⟩

/-- Activation entry touches neither the settings nor the display (60_exceptions.md R125). -/
theorem enterActivation_same {s t : State} (h : enterActivation s = .next t) :
    SameSettings s t ∧ SameDisplay s t := by
  obtain ⟨-, rfl⟩ := enterActivation_next h
  obtain ⟨hsettings, hdisplay⟩ := woken_same s
  exact ⟨hsettings.trans ⟨rfl, rfl⟩, hdisplay.trans (.of_eq rfl rfl rfl)⟩

theorem deliverEdge_same {s t : State} (h : deliverEdge s = .next t) :
    SameSettings s t ∧ SameDisplay s t := by
  rcases deliverEdge_next h with rfl | ⟨-, -, rfl⟩ | ⟨-, -, hentry⟩
  · exact ⟨⟨rfl, rfl⟩, .of_eq rfl rfl rfl⟩
  · exact ⟨⟨rfl, rfl⟩, .of_eq rfl rfl rfl⟩
  · exact enterActivation_same hentry

theorem buttonTurn_same {b : Bit} {s t : State} (h : buttonTurn b s = .next t) :
    SameSettings s t ∧ SameDisplay s t := by
  obtain ⟨prev, rfl | ⟨-, -, rfl⟩ | ⟨-, -, hentry⟩⟩ := buttonTurn_next h
  · exact ⟨⟨rfl, rfl⟩, .of_eq rfl rfl rfl⟩
  · exact ⟨⟨rfl, rfl⟩, .of_eq rfl rfl rfl⟩
  · obtain ⟨hsettings, hdisplay⟩ := enterActivation_same hentry
    exact ⟨⟨hsettings.params, hsettings.level⟩, hdisplay.of_start_eq rfl rfl rfl⟩

theorem receiveWord_sameSettings (isCommand : Bool) (b : Byte) (s : State) :
    SameSettings s (receiveWord isCommand b s) := by
  unfold receiveWord
  split <;> exact ⟨rfl, rfl⟩

theorem callInPlace_sameSettings (acts : List Action) (s : State) :
    SameSettings s (callInPlace acts s) := by
  unfold callInPlace
  split <;> exact ⟨rfl, rfl⟩

/-- No instruction writes the configuration or the level by starting (44_brightness.md R106). -/
theorem exec_sameSettings {i : Instr} {s t : State} (h : exec i s = .next t) :
    SameSettings s t := by
  rcases exec_next h with ⟨acts, rfl | ⟨-, rfl⟩⟩ | ⟨isCommand, b, rfl⟩ | ⟨-, hedge⟩ | ⟨-, rfl⟩
  · exact ⟨rfl, rfl⟩
  · exact ⟨rfl, rfl⟩
  · exact receiveWord_sameSettings isCommand b s
  · exact (deliverEdge_same hedge).1
  · exact callInPlace_sameSettings sleepActions s

/-! ## The configuration and the level (10_state.md R39, R21) -/

/-- The two actions that write the level (R21). -/
def Action.writesLevel : Action → Bool
  | .setLevel _ | .levelWrite _ => true
  | .pinCfg _ | .btnCfg | .pinWrite _ _ | .delay _ _ | .ieWrite _ | .smWrite _ | .seWrite _
  | .sleepCpu | .dispWrite _ | .pcieWrite _ | .ret => false

theorem perform_params {a : Action} {s t : State} (h : perform a s = .next t) :
    t.params = s.params := by
  have hp := perform_next h
  cases a <;> simp only at hp
  case pinWrite => obtain ⟨-, rfl⟩ := hp; rfl
  case sleepCpu => rcases hp with ⟨-, -, rfl⟩ | ⟨-, rfl⟩ <;> rfl
  case setLevel => rcases hp with ⟨-, -, rfl⟩ | ⟨-, rfl⟩ <;> rfl
  all_goals (subst hp; rfl)

theorem perform_level {a : Action} {s t : State} (ha : a.writesLevel = false)
    (h : perform a s = .next t) : t.level = s.level := by
  have hp := perform_next h
  cases a <;> simp only at hp
  case pinWrite => obtain ⟨-, rfl⟩ := hp; rfl
  case sleepCpu => rcases hp with ⟨-, -, rfl⟩ | ⟨-, rfl⟩ <;> rfl
  case setLevel => cases ha
  case levelWrite => cases ha
  all_goals (subst hp; rfl)

/-- A step keeps the settings, but for the level where its move is an action that writes it. -/
theorem step_settings {s t : State} (h : step s = .next t) :
    SameSettings s t ∨
      t.params = s.params ∧ ∃ a u, a.writesLevel = true ∧ nextMove s = .act a u := by
  obtain ⟨u, htaken, hu⟩ := step_next h
  have hsu := htaken.sameSettings
  rcases hu with rfl | ⟨-, hentry⟩ | ⟨b, hturn⟩ | ⟨a, hmove, hact⟩ | ⟨i, hop⟩
  · exact .inl hsu
  · exact .inl (hsu.trans (enterActivation_same hentry).1)
  · exact .inl (hsu.trans (buttonTurn_same hturn).1)
  · have hparams := (perform_params hact).trans hsu.params
    cases ha : a.writesLevel
    · exact .inl ⟨hparams, (perform_level ha hact).trans hsu.level⟩
    · exact .inr ⟨hparams, a, u, ha, hmove⟩
  · exact .inl (hsu.trans (exec_sameSettings hop))

/-- Settles O59: neither an action, nor an operation's start, nor an edge writes the parameters. -/
theorem noStepChangesTheConfiguration : Obligations.NoStepChangesTheConfiguration := by
  intro s t h
  rcases step_settings h with hsame | ⟨hparams, -⟩
  · exact hsame.params
  · exact hparams

/-- Settles O58: starting an instruction keeps the level, and of the moves only the two level
actions change it. -/
theorem onlyTheSetterWritesTheLevel : Obligations.OnlyTheSetterWritesTheLevel := by
  refine ⟨fun _ _ _ h => (exec_sameSettings h).level, fun s t h hlevel => ?_⟩
  rcases step_settings h with hsame | ⟨-, a, u, ha, hmove⟩
  · exact absurd hsame.level hlevel
  · refine ⟨u, ?_⟩
    cases a <;> simp only [Action.writesLevel, Bool.false_eq_true] at ha
    case setLevel v => exact .inl ⟨v, hmove⟩
    case levelWrite v => exact .inr ⟨v, hmove⟩

/-! ## Masked, no activation starts (20_memory.md R53) -/

theorem deliverEdge_frames_of_masked {s t : State} (hie : s.ie = false)
    (h : deliverEdge s = .next t) : t.frames = s.frames := by
  rcases deliverEdge_next h with rfl | ⟨-, -, rfl⟩ | ⟨-, hset, -⟩
  · rfl
  · rfl
  · rw [hie] at hset; cases hset

theorem buttonTurn_frames_of_masked {b : Bit} {s t : State} (hie : s.ie = false)
    (h : buttonTurn b s = .next t) : t.frames = s.frames := by
  obtain ⟨prev, rfl | ⟨-, -, rfl⟩ | ⟨-, hset, -⟩⟩ := buttonTurn_next h
  · rfl
  · rfl
  · simp [hie] at hset

/-- No action starts an activation: Ret ends one, and the others leave the frames alone. -/
theorem perform_frames_le {a : Action} {s t : State} (h : perform a s = .next t) :
    t.frames.length ≤ s.frames.length := by
  have hp := perform_next h
  cases a <;> simp only at hp
  case ret => subst hp; simp
  case pinWrite => obtain ⟨-, rfl⟩ := hp; exact le_rfl
  case sleepCpu => rcases hp with ⟨-, -, rfl⟩ | ⟨-, rfl⟩ <;> exact le_rfl
  case setLevel => rcases hp with ⟨-, -, rfl⟩ | ⟨-, rfl⟩ <;> exact le_rfl
  all_goals (subst hp; exact le_rfl)

@[simp] theorem receiveWord_frames (isCommand : Bool) (b : Byte) (s : State) :
    (receiveWord isCommand b s).frames = s.frames := by
  unfold receiveWord
  split <;> rfl

@[simp] theorem callInPlace_frames_length (acts : List Action) (s : State) :
    (callInPlace acts s).frames.length = s.frames.length := by
  unfold callInPlace
  split
  · rename_i hframes; rw [hframes]; rfl
  · rfl

theorem exec_frames_of_masked {i : Instr} {s t : State} (hie : s.ie = false)
    (h : exec i s = .next t) : t.frames.length = s.frames.length := by
  rcases exec_next h with ⟨acts, rfl | ⟨-, rfl⟩⟩ | ⟨isCommand, b, rfl⟩ | ⟨-, hedge⟩ | ⟨-, rfl⟩
  · rfl
  · rfl
  · rw [receiveWord_frames]
  · rw [deliverEdge_frames_of_masked hie hedge]
  · exact callInPlace_frames_length sleepActions s

/-- Settles O57: only activation entry adds a frame, and both ways to it need `ie`. -/
theorem maskedMeansNoActivation : Obligations.MaskedMeansNoActivation := by
  intro s t hie h
  obtain ⟨u, htaken, hu⟩ := step_next h
  have hmasked : u.ie = false := htaken.ie.trans hie
  rw [← htaken.frames_length]
  rcases hu with rfl | ⟨hset, -⟩ | ⟨b, hturn⟩ | ⟨a, -, hact⟩ | ⟨i, hop⟩
  · exact le_rfl
  · rw [hie] at hset; cases hset
  · rw [buttonTurn_frames_of_masked hmasked hturn]
  · exact perform_frames_le hact
  · exact (exec_frames_of_masked hmasked hop).le

/-! ## The handler and the display (10_state.md R23, 70_reset_and_hazards.md R153) -/

/-- Actions that write no display line and no driver state; SetLevel drives the LED alone (R103). -/
def Action.sparesDisplay : Action → Bool
  | .pinCfg _ | .pinWrite _ _ | .dispWrite _ => false
  | .btnCfg | .delay _ _ | .ieWrite _ | .smWrite _ | .seWrite _ | .sleepCpu | .levelWrite _
  | .pcieWrite _ | .setLevel _ | .ret => true

theorem drive_led_sameDisplay (v : Bit) (s : State) : SameDisplay s (s.drive .led v) :=
  ⟨rfl, rfl, rfl, rfl, rfl, rfl⟩

theorem perform_sameDisplay {a : Action} {s t : State} (ha : a.sparesDisplay = true)
    (h : perform a s = .next t) : SameDisplay s t := by
  have hp := perform_next h
  cases a <;> cases ha <;> simp only at hp
  case sleepCpu => rcases hp with ⟨-, -, rfl⟩ | ⟨-, rfl⟩ <;> exact .of_eq rfl rfl rfl
  case setLevel =>
    rcases hp with ⟨-, -, rfl⟩ | ⟨-, rfl⟩
    · exact (drive_led_sameDisplay false { s with level := 0 }).of_start_eq rfl rfl rfl
    · exact .of_eq rfl rfl rfl
  all_goals (subst hp; exact .of_eq rfl rfl rfl)

/-- Every action of the on path and the off path spares the display (45_power_interrupt.md R110,
R111). -/
theorem HandlerTail.sparesDisplay {p : Params} {acts : List Action} (h : HandlerTail p acts) :
    ∀ a ∈ acts, a.sparesDisplay = true := by
  have hon : ∀ a ∈ onPath p, a.sparesDisplay = true := by simp [onPath, Action.sparesDisplay]
  have hoff : ∀ a ∈ offPath p, a.sparesDisplay = true := by
    simp [offPath, sleepActions, Action.sparesDisplay]
  intro a ha
  obtain ⟨-, hsuffix | hsuffix⟩ := h
  · exact hon a (hsuffix.mem ha)
  · exact hoff a (hsuffix.mem ha)

/-- A device turn with an activation performs an action of its handler, or rests. -/
theorem ContextStep.sameDisplay_of_frame {s t : State} {turns : List Turn}
    (h : ContextStep s turns t) (htails : ∀ f ∈ s.frames, HandlerTail s.params f.seq)
    (hframe : s.frames ≠ []) : SameDisplay s t := by
  rcases h.cases with rfl | ⟨-, ⟨a, more, below, hframes, hact⟩ | ⟨hnone, -⟩⟩
  · exact .of_eq rfl rfl rfl
  · have htail : HandlerTail s.params (a :: more) := htails ⟨a :: more⟩ (by simp [hframes])
    have hspares := htail.sparesDisplay a List.mem_cons_self
    exact (perform_sameDisplay hspares hact).of_start_eq rfl rfl rfl
  · exact absurd hnone hframe

theorem step_sameDisplay_of_frame {s t : State} (hinv : s.Inv) (hframe : s.frames ≠ [])
    (h : step s = .next t) : SameDisplay s t := by
  rcases step_cases h with ⟨-, -, hlatched⟩ | ⟨-, turns, ⟨b, -, hturn⟩ | ⟨-, hctx⟩⟩
  · exact (enterActivation_same hlatched).2
  · exact (buttonTurn_same hturn).2.of_start_eq rfl rfl rfl
  · exact hctx.sameDisplay_of_frame hinv.tails hframe

/-- Settles O55: the main context does not run, and a handler's actions spare the display. -/
theorem handlerLeavesTheDisplayAlone : Obligations.HandlerLeavesTheDisplayAlone := by
  intro s t hinv hframe h
  obtain ⟨hsclk, hsdin, hdc, hrst, hrx, hdisp⟩ := step_sameDisplay_of_frame hinv hframe h
  exact ⟨hsclk, hsdin, hdc, hrst, hrx, hdisp⟩

end Sys2Proof.Machine

/-! ## A write to the level already held (20_memory.md R49) -/

namespace Sys2Proof.Machine

/-- Driving a pin to the level it holds leaves the pins as they are. -/
theorem Pins.drive_out_self (ps : Pins) (p : OPin) : ps.drive p (ps.get p).out = ps := by
  cases p <;> rfl

/-- Without a change of level there is no edge for the receiver to see: no rising SCLK, no change
of RST (R58, R59). -/
theorem rxAfterWrite_out_self (p : OPin) (s : State) :
    s.rxAfterWrite p (s.pins.get p).out = s.rx := by
  cases p with
  | sclk => simp [State.rxAfterWrite, Pins.get]
  | rst => simp [State.rxAfterWrite, Pins.get]
  | sdin => rfl
  | dc => rfl
  | led => rfl

theorem drive_out_self (p : OPin) (s : State) :
    s.drive p (s.pins.get p).out =
      { s with traceRev := .set p (s.pins.get p).out :: s.traceRev } := by
  rw [State.drive, Pins.drive_out_self, rxAfterWrite_out_self]

/-- Settles O54: the write is allowed, and driving the pin to its own level only appends the
event. -/
theorem sameLevelWriteOnlyTraces : Obligations.SameLevelWriteOnlyTraces := by
  intro s u p hmove hmode
  calc step s = perform (.pinWrite p (u.pins.get p).out) u := by rw [step_eq, hmove]; rfl
    _ = .next (u.drive p (u.pins.get p).out) := perform_pinWrite hmode
    _ = _ := by rw [drive_out_self]

/-! ## The glyph bytes in FONT (20_memory.md R42, 43_text_renderer.md R93) -/

/-- A character inside [0x20, 0x7F] is drawn as itself (R92). -/
theorem subst_of_inside {ch : Byte} (hlow : 0x20 ≤ ch.toNat) (hhigh : ch.toNat ≤ 0x7F) :
    subst ch = ch := if_pos ⟨hlow, hhigh⟩

theorem glyphAddr_val (ch : Byte) (j : Fin 5) :
    (glyphAddr ch j).val = ((subst ch).toNat - 0x20) * 5 + j.val := rfl

theorem glyphAddr_of_inside {ch : Byte} (j : Fin 5) (hlow : 0x20 ≤ ch.toNat)
    (hhigh : ch.toNat ≤ 0x7F) : (glyphAddr ch j).val = (ch.toNat - 0x20) * 5 + j.val := by
  rw [glyphAddr_val, subst_of_inside hlow hhigh]

theorem glyphByte_eq_font (p : Params) (ch : Byte) (j : Fin 5) :
    glyphByte p ch j = p.font[(glyphAddr ch j).val] := rfl

/-- Settles O29: the character is not substituted, so the model's address is the stated one, and it
is in bounds as an index of FONT. -/
theorem glyphBytesStandInTheFont : Obligations.GlyphBytesStandInTheFont := by
  intro p ch j hlow hhigh
  have haddr := glyphAddr_of_inside j hlow hhigh
  refine ⟨haddr ▸ (glyphAddr ch j).isLt, ?_⟩
  simp only [glyphByte_eq_font, haddr]

end Sys2Proof.Machine

/-! ## The request decoder (30_encoding.md R66 to R74) -/

namespace Sys2Proof

/-! ### Operand readers: what they accept -/

theorem operands1_eq_ok {f : Byte → Instr} {bs rest : List Byte} {i : Instr} :
    operands1 f bs = .ok i rest ↔ ∃ v, bs = v :: rest ∧ i = f v := by
  cases bs with
  | nil => simp [operands1]
  | cons v bs => simp [operands1, and_comm, eq_comm]

theorem operands2_eq_ok {f : Byte → Byte → Instr} {bs rest : List Byte} {i : Instr} :
    operands2 f bs = .ok i rest ↔ ∃ a b, bs = a :: b :: rest ∧ i = f a b := by
  rcases bs with _ | ⟨a, _ | ⟨b, bs⟩⟩
  · simp [operands2]
  · simp [operands2]
  · simp [operands2, and_comm, eq_comm]

/-- CHAR's four operands are there and the size is one of SIZES (R70 step 3). -/
theorem operandsChar_eq_ok {bs rest : List Byte} {i : Instr} :
    operandsChar bs = .ok i rest ↔ ∃ row col ch size,
      bs = row :: col :: ch :: size :: rest ∧ i = .char row col ch size ∧ sizeOk size = true := by
  rcases bs with _ | ⟨row, _ | ⟨col, _ | ⟨ch, _ | ⟨size, bs⟩⟩⟩⟩
  case cons.cons.cons.cons =>
    by_cases hsize : sizeOk size = true
    · simp only [operandsChar, if_pos hsize]
      constructor
      · rintro ⟨⟩; exact ⟨row, col, ch, size, rfl, rfl, hsize⟩
      · rintro ⟨_, _, _, _, ⟨⟩, rfl, _⟩; rfl
    · simp only [operandsChar, if_neg hsize]
      constructor
      · rintro ⟨⟩
      · rintro ⟨_, _, _, _, ⟨⟩, _, h⟩; exact absurd h hsize
  all_goals simp [operandsChar]

/-- STR with a terminated text is accepted or refused by its size (R70). -/
theorem operandsStr_append (row col size : Byte) {text : List Byte} (rest : List Byte)
    (htext : textOk text = true) :
    operandsStr (row :: col :: size :: (text ++ rest)) =
      if sizeOk size then .ok (.str row col size text) rest else .refuse (.size size) rest := by
  simp [operandsStr, takeText_append rest htext]

/-- A missing terminator is a truncation, whatever the size (R70 step 2). -/
theorem operandsStr_of_takeText_none (row col size : Byte) {bs : List Byte}
    (h : takeText bs = none) : operandsStr (row :: col :: size :: bs) = .refuse .truncated [] := by
  simp [operandsStr, h]

/-- STR's operands are cut short, or three bytes and a terminated text stand in front. -/
theorem operandsStr_cases (bs : List Byte) :
    operandsStr bs = .refuse .truncated [] ∨ ∃ row col size text rest,
      bs = row :: col :: size :: (text ++ rest) ∧ textOk text = true := by
  rcases bs with _ | ⟨row, _ | ⟨col, _ | ⟨size, tail⟩⟩⟩
  case cons.cons.cons =>
    cases htake : takeText tail with
    | none => exact .inl (operandsStr_of_takeText_none row col size htake)
    | some taken =>
      obtain ⟨rfl, htext⟩ := takeText_some htake
      exact .inr ⟨row, col, size, taken.1, taken.2, rfl, htext⟩
  all_goals exact .inl rfl

theorem operandsStr_eq_ok {bs rest : List Byte} {i : Instr} :
    operandsStr bs = .ok i rest ↔ ∃ row col size text,
      bs = row :: col :: size :: (text ++ rest) ∧ i = .str row col size text ∧
        sizeOk size = true ∧ textOk text = true := by
  constructor
  · intro h
    rcases operandsStr_cases bs with hcut | ⟨row, col, size, text, more, rfl, htext⟩
    · rw [hcut] at h; cases h
    · rw [operandsStr_append row col size more htext] at h
      split at h
      case isTrue hsize => cases h; exact ⟨row, col, size, text, rfl, rfl, hsize, htext⟩
      case isFalse => cases h
  · rintro ⟨row, col, size, text, rfl, rfl, hsize, htext⟩
    rw [operandsStr_append row col size rest htext, if_pos hsize]

/-! ### What the decoder accepts -/

/-- Each request's operands stand behind its opcode (R67). -/
theorem decodeOp_ok {op : Byte} {bs rest : List Byte} {i : Instr}
    (h : decodeOp op bs = .ok i rest) : op :: bs = encode i ++ rest ∧ i.wf = true := by
  unfold decodeOp at h
  split at h
  case h_1 | h_2 | h_3 | h_6 =>
    obtain ⟨v, rfl, rfl⟩ := operands1_eq_ok.1 h
    exact ⟨rfl, rfl⟩
  case h_4 =>
    obtain ⟨row, col, rfl, rfl⟩ := operands2_eq_ok.1 h
    exact ⟨rfl, rfl⟩
  case h_5 | h_7 | h_11 | h_12 => cases h; exact ⟨rfl, rfl⟩
  case h_8 =>
    obtain ⟨row, col, ch, size, rfl, rfl, hsize⟩ := operandsChar_eq_ok.1 h
    exact ⟨rfl, hsize⟩
  case h_9 =>
    obtain ⟨row, col, size, text, rfl, rfl, hsize, htext⟩ := operandsStr_eq_ok.1 h
    exact ⟨rfl, Bool.and_eq_true_iff.2 ⟨hsize, htext⟩⟩
  case h_10 =>
    obtain ⟨lo, hi, rfl, rfl⟩ := operands2_eq_ok.1 h
    obtain ⟨hlo, hhi⟩ := i16OfBytes_bytes lo hi
    exact ⟨by rw [encode, hlo, hhi]; rfl, rfl⟩
  case h_13 => cases h

/-- Settles O5: the operand readers take back the bytes that each request's encoding puts down; only
CHAR, STR and SETLVL need more than the table (sizes, the terminator, the two bytes). -/
theorem decodeReadsEveryEncodedRequest : Obligations.DecodeReadsEveryEncodedRequest := by
  intro i rest hreq hwf
  cases i
  case char row col ch size =>
    exact operandsChar_eq_ok.2 ⟨row, col, ch, size, rfl, rfl, hwf⟩
  case str row col size text =>
    obtain ⟨hsize, htext⟩ := Bool.and_eq_true_iff.1 hwf
    exact operandsStr_eq_ok.2 ⟨row, col, size, text, rfl, rfl, hsize, htext⟩
  case setlvl value =>
    exact congrArg (fun v => Decoded.ok (.setlvl v) rest) (i16OfBytes_split value)
  case txb | cmd | dat | setcur | clrall | clrrow | init | tick | loop => rfl
  all_goals cases hreq

/-- Settles O6: by the row of the opcode map that accepted the bytes. -/
theorem acceptedBytesAreTheEncoding : Obligations.AcceptedBytesAreTheEncoding := by
  intro bytes rest i h
  cases bytes with
  | nil => cases h
  | cons op bs =>
    obtain ⟨hbytes, hwf⟩ := decodeOp_ok h
    exact ⟨hbytes, Machine.decode_isRequest h, hwf⟩

/-! ### What the decoder refuses, and the bytes it leaves (R70, R71, log 26) -/

/-- A reserved opcode is refused after its own byte (R71). -/
theorem decodeOp_reserved {op : Byte} (bs : List Byte) (h : op = 0 ∨ 0x0D ≤ op.toNat) :
    decodeOp op bs = .refuse (.opcode op) bs := by
  unfold decodeOp
  split
  case h_13 => rfl
  all_goals exact absurd h (by decide)

theorem operands1_of_short (f : Byte → Instr) {bs : List Byte} (h : bs.length < 1) :
    operands1 f bs = .refuse .truncated [] := by
  cases bs with
  | nil => rfl
  | cons => simp at h

theorem operands2_of_short (f : Byte → Byte → Instr) {bs : List Byte} (h : bs.length < 2) :
    operands2 f bs = .refuse .truncated [] := by
  rcases bs with _ | ⟨_, _ | ⟨_, _⟩⟩
  · rfl
  · rfl
  · simp at h

theorem operandsChar_of_short {bs : List Byte} (h : bs.length < 4) :
    operandsChar bs = .refuse .truncated [] := by
  rcases bs with _ | ⟨_, _ | ⟨_, _ | ⟨_, _ | ⟨_, _⟩⟩⟩⟩
  case cons.cons.cons.cons => simp at h; omega
  all_goals rfl

/-- STR's operands cut short anywhere: inside the three fixed bytes, or inside the text. -/
theorem operandsStr_take (row col size : Byte) {text : List Byte} {n : Nat}
    (htext : textOk text = true) (hn : n < text.length + 3) :
    operandsStr ((row :: col :: size :: text).take n) = .refuse .truncated [] := by
  match n with
  | 0 | 1 | 2 => rfl
  | n + 3 =>
    exact operandsStr_of_takeText_none row col size (takeText_take htext (by omega))

/-- A request's encoding cut short ends inside its operands (R70 step 2); cut to nothing, it is log
27's. -/
theorem decode_take_encode {i : Instr} {n : Nat} (hreq : i.isRequest = true) (hwf : i.wf = true)
    (hn : n < (encode i).length) : decode ((encode i).take n) = .refuse .truncated [] := by
  cases n with
  | zero => rfl
  | succ n =>
    cases i
    case txb | cmd | dat | clrrow => exact operands1_of_short _ (by simp [encode] at hn ⊢; omega)
    case setcur | setlvl => exact operands2_of_short _ (by simp [encode] at hn ⊢; omega)
    case char => exact operandsChar_of_short (by simp [encode] at hn ⊢; omega)
    case str row col size text =>
      obtain ⟨-, htext⟩ := Bool.and_eq_true_iff.1 hwf
      exact operandsStr_take row col size htext (by simp [encode] at hn; omega)
    case clrall | init | tick | loop => simp [encode] at hn
    all_goals cases hreq

/-- The bytes the decoder's answer leaves unconsumed. -/
def Decoded.left : Decoded → List Byte
  | .ok _ rest => rest
  | .refuse _ rest => rest

theorem operands1_left_suffix (f : Byte → Instr) (bs : List Byte) :
    (operands1 f bs).left <:+ bs := by
  unfold operands1
  split
  · exact List.suffix_cons ..
  · exact List.nil_suffix

theorem operands2_left_suffix (f : Byte → Byte → Instr) (bs : List Byte) :
    (operands2 f bs).left <:+ bs := by
  unfold operands2
  split
  · exact List.suffix_append [_, _] _
  · exact List.nil_suffix

theorem operandsChar_left_suffix (bs : List Byte) : (operandsChar bs).left <:+ bs := by
  unfold operandsChar
  split
  · split <;> exact List.suffix_append [_, _, _, _] _
  · exact List.nil_suffix

theorem operandsStr_left_suffix (bs : List Byte) : (operandsStr bs).left <:+ bs := by
  rcases operandsStr_cases bs with hcut | ⟨row, col, size, text, rest, rfl, htext⟩
  · rw [hcut]; exact List.nil_suffix
  · rw [operandsStr_append row col size rest htext]
    split <;> exact List.suffix_append (row :: col :: size :: text) rest

theorem decodeOp_left_suffix (op : Byte) (bs : List Byte) : (decodeOp op bs).left <:+ bs := by
  unfold decodeOp
  split
  case h_1 | h_2 | h_3 | h_6 => exact operands1_left_suffix _ bs
  case h_4 | h_10 => exact operands2_left_suffix _ bs
  case h_8 => exact operandsChar_left_suffix bs
  case h_9 => exact operandsStr_left_suffix bs
  case h_5 | h_7 | h_11 | h_12 | h_13 => exact List.suffix_rfl

/-- The decoder consumes from the front. -/
theorem decode_left_suffix (bytes : List Byte) : (decode bytes).left <:+ bytes := by
  cases bytes with
  | nil => exact List.nil_suffix
  | cons op bs => exact (decodeOp_left_suffix op bs).trans (List.suffix_cons op bs)

namespace Machine

/-- Where a request starts and the decoder refuses its bytes, the step stops with that refusal and the
state with the bytes consumed (R70). -/
theorem step_refused {s : State} {r : Reject} {rest : List Byte} (hs : s.AtRequest)
    (hjobs : s.mainJobs = []) (hbytes : s.requests ≠ [])
    (hdec : decode s.requests = .refuse r rest) :
    step s = .refused (refusalOf r { s with requests := rest }) := by
  have hmove : mainMove s = .refuse (refusalOf r { s with requests := rest }) := by
    cases hr : s.requests with
    | nil => exact absurd hr hbytes
    | cons b bs =>
      rw [hr] at hdec
      simp [mainMove, requestMove, hs.noAction, hjobs, hr, hdec]
  rw [step_eq, nextMove_undisturbed hs.toUndisturbed, contextMove_main hs.awake hs.noFrame, hmove]
  rfl

end Machine

/-- Settles O9: reserved opcode, cut encoding, wrong size, each by the operand reader that refuses it;
the refusal's bytes are a suffix, and the step keeps them in the state. -/
theorem decoderRefusesByName : Obligations.DecoderRefusesByName := by
  have hbad : ∀ {size : Byte}, size ≠ 1 → size ≠ 2 → ¬ sizeOk size = true := fun h1 h2 h =>
    ((sizeOk_iff _).1 h).elim h1 h2
  refine ⟨fun op bs h => decodeOp_reserved bs h,
    fun i n hreq hwf hn => decode_take_encode hreq hwf hn, ?_, ?_, ?_, ?_⟩
  · intro row col ch size rest h1 h2
    exact if_neg (hbad h1 h2)
  · intro row col size text rest h1 h2 htext
    exact (operandsStr_append row col size rest htext).trans (if_neg (hbad h1 h2))
  · intro bytes rest r h
    have hleft := decode_left_suffix bytes
    rwa [h] at hleft
  · intro s r rest hs hjobs hbytes hdec
    rw [Machine.step_refused hs hjobs hbytes hdec]
    cases r <;> rfl

/-- Settles O10: the operand is `i16OfBytes lo hi`, whose value as a number is known; its sign bit is
set exactly when that number is at least 32768. -/
theorem setlvlOperandIsSignedLittleEndian : Obligations.SetlvlOperandIsSignedLittleEndian := by
  intro lo hi rest
  have hnat := i16OfBytes_toNat lo hi
  refine ⟨i16OfBytes lo hi, rfl, hnat, ?_⟩
  have hlo := lo.isLt
  rw [BitVec.toInt_eq_toNat_cond, hnat]
  split <;> split <;> omega

/-- Settles O8: each side is computed from the tables. -/
theorem sampleWordsDecode : Obligations.SampleWordsDecode :=
  ⟨rfl, rfl, rfl, rfl, rfl, rfl, rfl, rfl, rfl, rfl⟩

/-! ## Reserved opcodes (30_encoding.md R71) -/

/-- High bits in front of low bits: the high bits with zeros behind them, or the low bits. -/
theorem append_eq_or {m n : Nat} (high : BitVec m) (low : BitVec n) :
    high ++ low = (high ++ 0#n) ||| low.setWidth (m + n) := by
  ext i hi
  by_cases h : i < n
  · simp [BitVec.getElem_append, h]
  · simp [BitVec.getElem_append, h, BitVec.getLsbD_of_ge low i (Nat.le_of_not_lt h)]

theorem Machine.exec_reserved {i : Instr} {b : Byte} (hi : i.isReserved = true)
    (hb : reservedByte i = b) (s : Machine.State) :
    Machine.exec i s = .refused (.opcode b s) := by
  subst hb
  cases i <;> cases hi <;> rfl

/-- Settles O11: a reserved row refuses with its own byte, its fixed bits in front of its low bits. -/
theorem reservedOpcodesStop : Obligations.ReservedOpcodesStop := fun s =>
  ⟨Machine.exec_reserved rfl rfl s, Machine.exec_reserved rfl rfl s,
    fun low => Machine.exec_reserved (i := .reserved0E0F low) rfl (append_eq_or 0b0000111#7 low) s,
    fun low => Machine.exec_reserved (i := .reserved101F low) rfl (append_eq_or 0b0001#4 low) s,
    fun low => Machine.exec_reserved (i := .reserved203F low) rfl (append_eq_or 0b001#3 low) s,
    fun low => Machine.exec_reserved (i := .reserved407F low) rfl (append_eq_or 0b01#2 low) s,
    fun low => Machine.exec_reserved (i := .reserved80FF low) rfl (append_eq_or 0b1#1 low) s⟩

end Sys2Proof

/-! ## One byte on the wire (40_serial_transmitter.md R76) -/

namespace Sys2Proof.Machine

theorem startDisplay_ready {s : State} (i : Instr) (acts : List Action)
    (h : s.dispState = .ready) : startDisplay i acts s = .next (startMain acts s) := if_pos h

theorem startDisplay_notReady {s : State} (i : Instr) (acts : List Action)
    (h : s.dispState ≠ .ready) : startDisplay i acts s = .fault (.notReady i) := if_neg h

theorem transmitByte_plain (b : Byte) : ∀ a ∈ transmitByte b, a.isPlain = true :=
  fun a ha => wordActions_plain (false, b) a (List.mem_cons_of_mem _ ha)

theorem performAll_plain_mainSeq {as : List Action} {s t : State}
    (hplain : ∀ a ∈ as, a.isPlain = true) (h : performAll as s = .next t) :
    t.mainSeq = s.mainSeq := by
  induction as generalizing s with
  | nil => cases h; rfl
  | cons a as ih =>
    simp only [performAll] at h
    split at h
    · rename_i u hact
      obtain ⟨-, -, -, -, -, hseq, -⟩ := perform_plain (hplain a (by simp)) hact
      exact (ih (fun b hb => hplain b (by simp [hb])) h).trans hseq
    · cases h
    · cases h

/-- From where a request starts, the plain actions it expands into run to their end, one step
each. -/
theorem runs_startMain_plain {as : List Action} {s t : State} (hs : s.AtRequest)
    (hplain : ∀ a ∈ as, a.isPlain = true) (h : performAll as s = .next t) :
    runs as.length (startMain as s) = .next t := by
  have hstart : startMain as s = { s with mainSeq := as ++ [] } := by
    rw [startMain, hs.noAction]
  have hend : { t with mainSeq := [] } = t := by
    rw [← hs.noAction, ← performAll_plain_mainSeq hplain h]
  rw [hstart, runs_main_plain hplain hs.toUndisturbed hs.noFrame h, hend]

theorem afterByte_trace (b : Byte) (s : State) :
    (s.afterByte b).trace = s.trace ++ byteEvents b := by
  simp [State.trace]

/-- Settles O16: TXB's start puts down the 24 actions of its byte, which the idle clock lets run. -/
theorem txbTransmitsTheByte : Obligations.TxbTransmitsTheByte := by
  intro v s
  refine ⟨startDisplay_notReady _ _, fun hs hbus => ⟨⟨_, startDisplay_ready _ _ hbus.ready, ?_⟩,
    afterByte_trace v s⟩⟩
  exact runs_startMain_plain hs (transmitByte_plain v)
    (performAll_transmitByte v hbus.busIdle.toClockIdle)

/-! ## The wire projection (40_serial_transmitter.md R78) -/

/-- Each bit's clock pulse samples that bit under the standing select level, and leaves the clock
low. -/
theorem samples_bits (bits : List Bit) (sdin dc : Bit) (es : List Event) :
    samples false sdin dc
        ((bits.flatMap fun v => [.set .sdin v, .set .sclk true, .set .sclk false]) ++ es) =
      bits.map (·, dc) ++ samples false (bits.getLastD sdin) dc es := by
  induction bits generalizing sdin with
  | nil => rfl
  | cons v bits ih =>
    rw [List.getLastD_cons]
    exact congrArg ((v, dc) :: ·) (ih v)

theorem samples_byteEvents (b : Byte) (sdin dc : Bit) (es : List Event) :
    samples false sdin dc (byteEvents b ++ es) =
      (msbFirst b).map (·, dc) ++ samples false (b.getLsbD 0) dc es :=
  samples_bits (msbFirst b) sdin dc es

/-- The bits of a byte, bit 7 first, make the byte again. -/
theorem ofBoolListBE_msbFirst (b : Byte) : BitVec.ofBoolListBE (msbFirst b) = b := by
  apply BitVec.eq_of_getMsbD_eq
  intro i hi
  have hi : i < 8 := hi
  rw [BitVec.getMsbD_ofBoolListBE]
  interval_cases i <;> rfl

/-- The eight samples of a byte under one select level are grouped into its word. -/
theorem groupWords_msbFirst (b : Byte) (d : Bit) (rest : List (Bit × Bit)) :
    groupWords ((msbFirst b).map (·, d) ++ rest) = (d, b) :: groupWords rest :=
  congrArg (fun c => (d, c) :: groupWords rest) (ofBoolListBE_msbFirst b)

/-- Settles O20: word by word; a frame's select level holds for its eight samples, and the next frame
starts with the clock low again. -/
theorem projectionOfFramesIsTheWords : Obligations.ProjectionOfFramesIsTheWords := by
  intro ws
  induction ws with
  | nil => exact fun _ _ => rfl
  | cons w ws ih =>
    obtain ⟨d, b⟩ := w
    intro sdin dc
    calc wireWords sdin dc (((d, b) :: ws).flatMap wordEvents)
        = groupWords (samples false sdin d (byteEvents b ++ ws.flatMap wordEvents)) := rfl
      _ = (d, b) :: wireWords (b.getLsbD 0) d (ws.flatMap wordEvents) := by
        rw [samples_byteEvents, groupWords_msbFirst]; rfl
      _ = (d, b) :: ws := by rw [ih]

end Sys2Proof.Machine

/-! ## The display channel (41_display_channel.md R81 to R85) -/

namespace Sys2Proof.Machine

/-- A display request that expands into wire words starts and sends them, 25 actions a word. -/
theorem startDisplay_runs_words {s : State} (i : Instr) {acts : List Action} {ws : List WireWord}
    (hacts : acts = ws.flatMap wordActions) (hs : s.AtRequest) (hbus : s.BusReady) :
    ∃ t, startDisplay i acts s = .next t ∧ runs (25 * ws.length) t = .next (s.afterWords ws) := by
  subst hacts
  exact ⟨_, startDisplay_ready i _ hbus.ready, runs_words ws hs hbus.busIdle⟩

/-- A clear, the cursor (row, 0) and then `n` zero bytes, sends two words and one per byte. -/
theorem startDisplay_runs_clear {s : State} (i : Instr) (row : Byte) (n : Nat)
    (hs : s.AtRequest) (hbus : s.BusReady) :
    ∃ t, startDisplay i (setCursor s.params row 0 ++ zeroData s.params n) s = .next t ∧
      runs (25 * (n + 2)) t = .next (s.afterWords
        (cursorWords s.params row 0 ++ List.replicate n (dataWord s.params 0))) := by
  have h := startDisplay_runs_words i (setCursor_zeroData s.params row n) hs hbus
  rwa [List.length_append, List.length_replicate, Nat.add_comm] at h

/-- Settles O17: each expands into one wire word, DC at its select level. -/
theorem cmdAndDatSendOneWord : Obligations.CmdAndDatSendOneWord := by
  intro b s
  refine ⟨fun _ => ⟨rfl, rfl⟩,
    fun h => ⟨startDisplay_notReady _ _ h, startDisplay_notReady _ _ h⟩, fun hs hbus => ⟨?_, ?_⟩⟩
  · exact startDisplay_runs_words (.cmd b) (ws := [commandWord s.params b]) rfl hs hbus
  · exact startDisplay_runs_words (.dat b) (ws := [dataWord s.params b]) rfl hs hbus

/-- Settles O18: the cursor set expands into its two words, the row's byte taken mod 6. -/
theorem setcurSendsColumnThenRow : Obligations.SetcurSendsColumnThenRow := by
  intro row col s
  refine ⟨fun _ => rfl, startDisplay_notReady _ _, fun hs hbus => ?_⟩
  exact startDisplay_runs_words (.setcur row col) (setCursor_eq s.params row col) hs hbus

/-- Settles O19: both are a clear, of 504 bytes from (0, 0) and of 84 from (row, 0). -/
theorem clearsSendZeroBytes : Obligations.ClearsSendZeroBytes := by
  intro row s
  refine ⟨fun h => ⟨startDisplay_notReady _ _ h, startDisplay_notReady _ _ h⟩,
    fun hs hbus => ⟨?_, ?_⟩⟩
  · exact startDisplay_runs_clear .clrall 0 504 hs hbus
  · exact startDisplay_runs_clear (.clrrow row) row 84 hs hbus

end Sys2Proof.Machine

/-! ## Initialisation (42_display_init.md R87 to R90) -/

namespace Sys2Proof.Machine

/-- Init's step 3 runs: its command words, then READY (R90). -/
theorem performAll_initDisplay {s : State} (hbus : s.BusIdle) :
    performAll (initDisplay s.params) s =
      .next { s.afterWords ((initCommands s.params).map (commandWord s.params)) with
        dispState := .ready } := by
  rw [initDisplay, initDisplay_eq, performAll_append (performAll_words _ hbus)]
  rfl

/-- The three steps of init run in turn: step 1 leaves RST low for step 2, and the bus idle for
step 3. -/
theorem performAll_initActions (s : State) :
    performAll (initActions s.params) s = .next s.afterInit := by
  have hreset : performAll (initReset s.params) s.afterInitPins =
      .next s.afterInitPins.afterInitReset := performAll_initReset s.afterInitPins rfl
  have hbus : s.afterInitPins.afterInitReset.BusIdle := ⟨⟨rfl, rfl⟩, rfl⟩
  rw [initActions, List.append_assoc, performAll_append (performAll_initPins s),
    performAll_append hreset]
  exact performAll_initDisplay hbus

/-- Before the first init, INIT starts and its actions leave `afterInit`. -/
theorem exec_init_runs {s : State} (hs : s.AtRequest) (huninit : s.dispState = .uninit) :
    ∃ t, exec .init s = .next t ∧
      runs (14 + (3 + s.params.contrastBias.length) * 25) t = .next s.afterInit := by
  refine ⟨startMain (initActions s.params) s, if_pos huninit, ?_⟩
  rw [← initActions_length]
  exact runs_startMain_plain hs (initActions_plain s.params) (performAll_initActions s)

/-- Settles O21: INIT tests `disp_state`; from UNINIT it puts down the actions of the three steps,
which run to their end. -/
theorem initRunsItsThreeSteps : Obligations.InitRunsItsThreeSteps :=
  fun _ => ⟨fun h => if_neg h, exec_init_runs⟩

/-- `t` is `s` under the order `order` of init's step 1, with a trace of its own. -/
def State.OrderVariant (order : List LineSetup) (s t : State) : Prop :=
  ∃ events, t = { s with
    params := { s.params with initOrder := order }, traceRev := events }

namespace State.OrderVariant

variable {order : List LineSetup} {s t : State}

/-- Step 1 leaves the same pins and receiver in every order (R88). -/
theorem afterInitPins (h : OrderVariant order s t) :
    OrderVariant order s.afterInitPins t.afterInitPins := by
  obtain ⟨events, rfl⟩ := h
  exact ⟨_, rfl⟩

theorem afterInitReset (h : OrderVariant order s t) :
    OrderVariant order s.afterInitReset t.afterInitReset := by
  obtain ⟨events, rfl⟩ := h
  exact ⟨_, rfl⟩

theorem afterWord (w : WireWord) (h : OrderVariant order s t) :
    OrderVariant order (s.afterWord w) (t.afterWord w) := by
  obtain ⟨events, rfl⟩ := h
  exact ⟨_, rfl⟩

theorem afterWords (ws : List WireWord) (h : OrderVariant order s t) :
    OrderVariant order (s.afterWords ws) (t.afterWords ws) := by
  induction ws generalizing s t with
  | nil => exact h
  | cons w ws ih => exact ih (h.afterWord w)

theorem ready (h : OrderVariant order s t) :
    OrderVariant order { s with dispState := .ready } { t with dispState := .ready } := by
  obtain ⟨events, rfl⟩ := h
  exact ⟨_, rfl⟩

/-- In both variants step 3 sends the same command words, so init changes them alike. -/
theorem afterInit (h : OrderVariant order s t) :
    OrderVariant order s.afterInit t.afterInit := by
  have hend := (h.afterInitPins.afterInitReset.afterWords
    ((initCommands s.params).map (commandWord s.params))).ready
  obtain ⟨events, rfl⟩ := h
  exact hend

end State.OrderVariant

theorem afterWords_params (ws : List WireWord) (s : State) :
    (s.afterWords ws).params = s.params := by
  induction ws generalizing s with
  | nil => rfl
  | cons w ws ih => exact ih (s.afterWord w)

theorem afterInit_params (s : State) : s.afterInit.params = s.params :=
  afterWords_params _ s.afterInitPins.afterInitReset

/-- Settles O22: both runs end in their `afterInit`, and the order reaches only the trace. An order
that R88 does not admit runs as the canonical one (log 20). -/
theorem initOrderLeavesTheSameState : Obligations.InitOrderLeavesTheSameState := by
  intro s order hs huninit
  have hs' : { s with params := { s.params with initOrder := order } }.AtRequest :=
    ⟨⟨hs.noTurn, hs.noLatched, hs.awake⟩, hs.noFrame, hs.noAction⟩
  obtain ⟨t, hexec, hruns⟩ := exec_init_runs hs huninit
  obtain ⟨t', hexec', hruns'⟩ := exec_init_runs hs' huninit
  refine ⟨t, t', _, _, hexec, hexec', hruns, hruns', ?_⟩
  have hvariant : State.OrderVariant order s { s with
      params := { s.params with initOrder := order } } := ⟨s.traceRev, rfl⟩
  obtain ⟨events, heq⟩ := hvariant.afterInit
  rw [heq, ← afterInit_params s]

end Sys2Proof.Machine

/-! ## The text renderer (43_text_renderer.md) -/

namespace Sys2Proof.Machine

/-! ### The sizes (R95) -/

/-- Only 1 and 2 are sizes. -/
theorem sizeOk_ne_true {size : Byte} (h1 : size ≠ 1) (h2 : size ≠ 2) : ¬ sizeOk size = true :=
  fun h => ((sizeOk_iff size).1 h).elim h1 h2

theorem exec_char_refused {size : Byte} (row col ch : Byte) (s : State)
    (h : ¬ sizeOk size = true) : exec (.char row col ch size) s = .refused (.size size s) :=
  if_neg h

theorem exec_str_refused {size : Byte} (row col : Byte) (text : List Byte) (s : State)
    (h : ¬ sizeOk size = true) : exec (.str row col size text) s = .refused (.size size s) :=
  if_neg h

/-! ### CHAR (R97) -/

/-- At a size of SIZES, CHAR starts as the words of its character. -/
theorem exec_char_eq {size : Byte} (row col ch : Byte) (s : State) (hsize : size = 1 ∨ size = 2) :
    exec (.char row col ch size) s = startDisplay (.char row col ch size)
      ((charWords s.params row col ch size).flatMap wordActions) s := by
  rw [← renderChar_eq _ _ _ _ hsize]
  exact if_pos ((sizeOk_iff size).2 hsize)

theorem exec_char_runs {size : Byte} (row col ch : Byte) {s : State}
    (hsize : size = 1 ∨ size = 2) (hs : s.AtRequest) (hbus : s.BusReady) :
    ∃ t, exec (.char row col ch size) s = .next t ∧
      runs (25 * (charWords s.params row col ch size).length) t =
        .next (s.afterWords (charWords s.params row col ch size)) := by
  rw [exec_char_eq row col ch s hsize]
  exact startDisplay_runs_words _ rfl hs hbus

/-- Settles O24: the size is tested first, then READY, and what starts are the character's words. -/
theorem charSendsTheCell : Obligations.CharSendsTheCell := by
  intro row col ch size s
  refine ⟨fun hsize rest => if_pos ((sizeOk_iff size).2 hsize),
    fun h1 h2 => exec_char_refused row col ch s (sizeOk_ne_true h1 h2),
    fun hsize => ⟨fun hready => ?_, exec_char_runs row col ch hsize⟩⟩
  rw [exec_char_eq row col ch s hsize]
  exact startDisplay_notReady _ _ hready

/-! ### STR (R100) -/

/-- The text holds its terminator, or is long enough to reach the display's edge. -/
def TextReaches (col size : Byte) (text : List Byte) : Prop :=
  0 ∈ text ∨ 84 ≤ col.toNat + text.length * (6 * size.toNat)

/-- At a size of SIZES, STR starts with the actions its text is rendered to. -/
theorem exec_str_of_renderText {size : Byte} {row col : Byte} {text : List Byte} {s : State}
    {acts : List Action} (hsize : sizeOk size = true)
    (h : renderText s.params row size col.toNat 0 text = .ok acts) :
    exec (.str row col size text) s = startDisplay (.str row col size text) acts s := by
  simp only [exec, execStr, if_pos hsize, h]

theorem exec_str_notReady {size : Byte} (row col : Byte) (text : List Byte) {s : State}
    (hsize : sizeOk size = true) (hready : s.dispState ≠ .ready) :
    exec (.str row col size text) s = .fault (.notReady (.str row col size text)) := by
  cases h : renderText s.params row size col.toNat 0 text with
  | ok acts =>
    rw [exec_str_of_renderText hsize h]
    exact startDisplay_notReady _ _ hready
  | error index => simp only [exec, execStr, if_pos hsize, h, if_neg hready]

theorem exec_str_runs {size : Byte} (row : Byte) {col : Byte} {text : List Byte} {s : State}
    (hsize : size = 1 ∨ size = 2) (hs : s.AtRequest) (hbus : s.BusReady)
    (htext : TextReaches col size text) :
    ∃ t, exec (.str row col size text) s = .next t ∧
      runs (25 * (textWords s.params row col size text).length) t =
        .next (s.afterWords (textWords s.params row col size text)) := by
  rw [exec_str_of_renderText ((sizeOk_iff size).2 hsize)
    (renderText_ok s.params row hsize text col.toNat 0 htext)]
  exact startDisplay_runs_words _ rfl hs hbus

/-- Settles O25: the size is tested first; a read past the text's end never comes before the READY
fault; a text that reaches is rendered to its characters' words. -/
theorem strSendsTheCharacters : Obligations.StrSendsTheCharacters := by
  intro row col size text s
  exact ⟨fun h1 h2 => exec_str_refused row col text s (sizeOk_ne_true h1 h2),
    fun hsize => ⟨exec_str_notReady row col text ((sizeOk_iff size).2 hsize),
      exec_str_runs row hsize⟩⟩

/-! ### The columns of the cursor commands (R101) -/

/-- If the word is a SET_X command, its column is below 84. -/
def ColumnInside (p : Params) (w : WireWord) : Prop :=
  w.1 = p.dcCmdLevel → w.2.getLsbD 7 = true → w.2.toNat < 0x80 + 84

/-- A data word is no command (R80). -/
theorem dataWord_columnInside (p : Params) (b : Byte) : ColumnInside p (dataWord p b) :=
  fun hcmd => absurd hcmd (Bool.not_ne_self p.dcCmdLevel)

/-- SET_X's byte is 0x80 plus the column, where the column needs no eighth bit (30_encoding.md
R65). -/
theorem setXByte_toNat {col : Byte} (h : col.toNat < 84) :
    (setXByte col).toNat = 0x80 + col.toNat := by
  rw [setXByte, BitVec.toNat_or]
  exact (Nat.two_pow_add_eq_or_of_lt (i := 7) (by omega) 1).symm

/-- SET_Y's byte has bit 7 clear (R65). -/
theorem setYByte_getLsbD_seven (row : Byte) : (setYByte row).getLsbD 7 = false := by
  rw [setYByte_eq]
  have hrow : row.toNat % 6 < 6 := Nat.mod_lt _ (by decide)
  interval_cases row.toNat % 6 <;> rfl

theorem cursorWords_columnInside (p : Params) (row : Byte) {col : Byte} (hcol : col.toNat < 84) :
    ∀ w ∈ cursorWords p row col, ColumnInside p w := by
  intro w hw
  rcases List.mem_pair.1 hw with rfl | rfl
  · intro _ _
    calc (setXByte col).toNat = 0x80 + col.toNat := setXByte_toNat hcol
      _ < 0x80 + 84 := by omega
  · intro _ hbit
    rw [commandWord, ← setYByte_eq, setYByte_getLsbD_seven] at hbit
    cases hbit

theorem bandWords_columnInside (p : Params) (row : Byte) {col : Byte} (bytes : List Byte)
    (hcol : col.toNat < 84) : ∀ w ∈ bandWords p row col bytes, ColumnInside p w := by
  intro w hw
  rcases List.mem_append.1 hw with hcursor | hdata
  · exact cursorWords_columnInside p row hcol w hcursor
  · obtain ⟨b, -, rfl⟩ := List.mem_map.1 hdata
    exact dataWord_columnInside p b

/-- Each band sets the character's own column, and outside the grid there is no band (R97). -/
theorem charWords_columnInside (p : Params) (row col ch size : Byte) :
    ∀ w ∈ charWords p row col ch size, ColumnInside p w := by
  intro w hw
  unfold charWords at hw
  split at hw
  case isTrue => cases hw
  case isFalse hgrid =>
    have hcol : col.toNat < 84 := by omega
    split at hw
    · rcases List.mem_append.1 hw with hfirst | hsecond
      · exact bandWords_columnInside p row _ hcol w hfirst
      · exact bandWords_columnInside p (row + 1) _ hcol w hsecond
    · exact bandWords_columnInside p row _ hcol w hw

theorem textWords_columnInside (p : Params) (row col size : Byte) (text : List Byte) :
    ∀ w ∈ textWords p row col size text, ColumnInside p w := by
  intro w hw
  obtain ⟨c, -, hc⟩ := List.mem_flatMap.1 hw
  exact charWords_columnInside p row _ c.1 size w hc

/-- A rendered text is one that reaches: the others are read past their end (20_memory.md R44). -/
theorem textReaches_of_renderText_ok {p : Params} {row col size : Byte} {text : List Byte}
    {acts : List Action} (h : renderText p row size col.toNat 0 text = .ok acts) :
    TextReaches col size text := by
  by_contra hshort
  obtain ⟨hterm, hend⟩ := not_or.1 hshort
  rw [renderText_error p row size text col.toNat 0 hterm (Nat.lt_of_not_le hend)] at h
  cases h

theorem size_of_exec_char_next {row col ch size : Byte} {s t : State}
    (h : exec (.char row col ch size) s = .next t) : size = 1 ∨ size = 2 := by
  by_contra hsize
  rw [exec_char_refused row col ch s (mt (sizeOk_iff size).1 hsize)] at h
  cases h

/-- STR answers a next state only at a size of SIZES and for a text that reaches. -/
theorem operands_of_exec_str_next {row col size : Byte} {text : List Byte} {s t : State}
    (h : exec (.str row col size text) s = .next t) :
    (size = 1 ∨ size = 2) ∧ TextReaches col size text := by
  simp only [exec, execStr] at h
  split at h
  case isFalse => cases h
  case isTrue hsize =>
    refine ⟨(sizeOk_iff size).1 hsize, ?_⟩
    split at h
    case h_1 hok => exact textReaches_of_renderText_ok hok
    case h_2 => split at h <;> cases h

/-- Settles O27: both send words of characters, and every character's cursor column is inside the
grid. -/
theorem textColumnsStayInside : Obligations.TextColumnsStayInside := by
  rintro i s t hs hbus (⟨row, col, ch, size, rfl⟩ | ⟨row, col, size, text, rfl⟩) hexec
  · obtain ⟨t', hexec', hruns⟩ :=
      exec_char_runs row col ch (size_of_exec_char_next hexec) hs hbus
    cases hexec.symm.trans hexec'
    exact ⟨_, _, hruns, charWords_columnInside s.params row col ch size⟩
  · obtain ⟨hsize, htext⟩ := operands_of_exec_str_next hexec
    obtain ⟨t', hexec', hruns⟩ := exec_str_runs row hsize hs hbus htext
    cases hexec.symm.trans hexec'
    exact ⟨_, _, hruns, textWords_columnInside s.params row col size text⟩

/-! ### Substitution (R92) -/

theorem subst_of_outside {ch : Byte} (h : ch.toNat < 0x20 ∨ 0x7F < ch.toNat) :
    subst ch = 0x3F := by
  refine if_neg fun hin => ?_
  obtain ⟨hlow, hhigh⟩ := hin
  exact h.elim (Nat.not_lt.2 hlow) (Nat.not_lt.2 hhigh)

/-- The glyph is looked up by the substituted character alone (R93). -/
theorem glyphByte_congr (p : Params) {ch ch' : Byte} (h : subst ch = subst ch') (j : Fin 5) :
    glyphByte p ch j = glyphByte p ch' j := by
  have haddr : glyphAddr ch j = glyphAddr ch' j := Fin.ext (by simp only [glyphAddr_val, h])
  rw [glyphByte, haddr, glyphByte]

theorem cellBytes_congr (p : Params) {ch ch' : Byte} (h : subst ch = subst ch') (size : Byte)
    (r : Nat) : cellBytes p ch size r = cellBytes p ch' size r := by
  simp only [cellBytes, glyphByte_congr p h]

theorem charWords_congr (p : Params) (row col : Byte) {ch ch' : Byte} (h : subst ch = subst ch')
    (size : Byte) : charWords p row col ch size = charWords p row col ch' size := by
  simp only [charWords, cellBytes_congr p h]

/-- Of a character, a ready CHAR keeps only what it is substituted with. -/
theorem exec_char_congr (row col : Byte) {ch ch' : Byte} (size : Byte) {s : State}
    (h : subst ch = subst ch') (hready : s.dispState = .ready) :
    exec (.char row col ch size) s = exec (.char row col ch' size) s := by
  by_cases hsize : sizeOk size = true
  · have hsizes := (sizeOk_iff size).1 hsize
    rw [exec_char_eq row col ch s hsizes, exec_char_eq row col ch' s hsizes,
      startDisplay_ready _ _ hready, startDisplay_ready _ _ hready,
      charWords_congr s.params row col h]
  · rw [exec_char_refused row col ch s hsize, exec_char_refused row col ch' s hsize]

/-- Settles O28: an outside character and `?` are substituted with the same character. -/
theorem outsideCharactersAreQuestionMarks : Obligations.OutsideCharactersAreQuestionMarks := by
  refine ⟨fun _ => subst_of_inside, fun row col ch size s hout => ?_⟩
  have hsubst : subst ch = 0x3F := subst_of_outside hout
  exact ⟨hsubst, exec_char_congr row col size hsubst⟩

/-! ### The size-2 transform (R94) -/

theorem scale2_getLsbD (b : Byte) (r : Nat) {k : Nat} (hk : k < 8) :
    (scale2 b r).getLsbD k = b.getLsbD (4 * r + k / 2) := by
  rw [scale2, BitVec.getLsbD_ofBoolListLE]
  interval_cases k <;> rfl

/-- The expansion of a two-bit group, `x1 x0` to `x1 x1 x0 x0` (R94). -/
def doublePixels (g : BitVec 2) : BitVec 4 :=
  BitVec.ofBool (g.getLsbD 1) ++ BitVec.ofBool (g.getLsbD 1) ++
    BitVec.ofBool (g.getLsbD 0) ++ BitVec.ofBool (g.getLsbD 0)

theorem doublePixels_getLsbD (g : BitVec 2) {k : Nat} (hk : k < 4) :
    (doublePixels g).getLsbD k = g.getLsbD (k / 2) := by
  revert g
  interval_cases k <;> decide

/-- The transform as two doubled groups: pixels `4r` and `4r + 1` below, `4r + 2` and `4r + 3`
above. -/
theorem scale2_eq_doublePixels (b : Byte) (r : Nat) :
    scale2 b r = doublePixels (b.extractLsb' (4 * r + 2) 2) ++
      doublePixels (b.extractLsb' (4 * r) 2) := by
  apply BitVec.eq_of_getLsbD_eq
  intro k hk
  rw [scale2_getLsbD b r hk, BitVec.getLsbD_append]
  split
  case isTrue hlow =>
    rw [doublePixels_getLsbD _ hlow, BitVec.getLsbD_extractLsb']
    simp [show k / 2 < 2 by omega]
  case isFalse hhigh =>
    rw [doublePixels_getLsbD _ (by omega), BitVec.getLsbD_extractLsb']
    simp [show (k - 4) / 2 < 2 by omega, show 4 * r + 2 + (k - 4) / 2 = 4 * r + k / 2 by omega]

/-- Settles O30: the transform bit by bit, and as two doubled groups, whatever `r`. -/
theorem scaleTwoDoublesPixels : Obligations.ScaleTwoDoublesPixels :=
  fun b r _ => ⟨fun _ hk => scale2_getLsbD b r hk, scale2_eq_doublePixels b r⟩

end Sys2Proof.Machine

/-! ## Brightness (44_brightness.md) -/

namespace Sys2Proof.Machine

/-! ### The clamp (R102) -/

theorem clamp_of_nonpos {value : I16} (h : value.toInt ≤ 0) : clamp value = 0 := by
  unfold clamp
  split
  case isTrue => rfl
  case isFalse hneg =>
    have hzero : value = 0#16 := BitVec.eq_of_toInt_eq (by rw [BitVec.toInt_zero]; omega)
    rw [hzero]; rfl

theorem clamp_of_large {value : I16} (h : 255 < value.toInt) : clamp value = 255 := by
  rw [clamp, if_neg (by omega), if_pos h]

/-- Inside the range the clamp keeps the number: the low byte is all of it. -/
theorem clamp_of_inside {value : I16} (hlow : 0 ≤ value.toInt) (hhigh : value.toInt ≤ 255) :
    clamp value = BitVec.ofInt 8 value.toInt := by
  rw [clamp, if_neg (by omega), if_neg (by omega)]
  exact (BitVec.signExtend_eq_setWidth_of_le value (by decide)).symm

/-- Only the values at or below 0 clamp to 0. -/
theorem clamp_ne_zero {value : I16} (h : 0 < value.toInt) : clamp value ≠ 0 := by
  by_cases hhigh : value.toInt ≤ 255
  · rw [clamp_of_inside h.le hhigh]
    intro hzero
    have hnat := congrArg BitVec.toNat hzero
    rw [BitVec.toNat_ofInt, show (0 : Byte).toNat = 0 from rfl] at hnat
    omega
  · rw [clamp_of_large (by omega)]
    decide

/-! ### SETLVL (R103) -/

/-- From where a request starts, one action put down is the next step, whatever it answers. -/
theorem runs_one_startMain {s : State} (hs : s.AtRequest) (a : Action) :
    runs 1 (startMain [a] s) = perform a s := by
  rw [runs_one]
  exact step_main_action (s := startMain [a] s) ⟨hs.noTurn, hs.noLatched, hs.awake⟩ hs.noFrame rfl

/-- A value above 0 only writes the level. -/
theorem perform_setLevel_of_pos {value : I16} (s : State) (h : 0 < value.toInt) :
    perform (.setLevel value) s = .next { s with level := clamp value } :=
  if_neg (clamp_ne_zero h)

/-- At or below 0, the level is 0 and the LED is written low by the same action. -/
theorem perform_setLevel_of_nonpos {value : I16} (s : State) (h : value.toInt ≤ 0) :
    perform (.setLevel value) s =
      pinWrite .led false (.setLevel value) { s with level := 0 } :=
  if_pos (clamp_of_nonpos h)

/-- Driving the configured LED reaches no other pin and not the receiver. -/
theorem drive_led {s : State} (v : Bit) (hled : s.pins.led.mode = .out) :
    s.drive .led v = { s with
      pins := { s.pins with led := ⟨.out, v⟩ }, traceRev := .set .led v :: s.traceRev } := by
  rw [← hled]
  rfl

/-- Settles O31: SETLVL puts down one SetLevel action, which writes the clamped value; at 0 the same
action is also the write of the LED, with R24's test of the pin. -/
theorem setlvlClampsAndForcesLow : Obligations.SetlvlClampsAndForcesLow := by
  refine ⟨fun _ _ _ => rfl, fun value s hs => ⟨startMain [.setLevel value] s, rfl, ?_⟩⟩
  rw [runs_one_startMain hs]
  refine ⟨fun hpos hle => ?_, fun hlarge => ?_, fun hnonpos hled => ?_, fun hnonpos hled => ?_⟩
  · rw [perform_setLevel_of_pos s hpos, clamp_of_inside hpos.le hle]
  · rw [perform_setLevel_of_pos s (by omega), clamp_of_large hlarge]
  · rw [perform_setLevel_of_nonpos s hnonpos, ← drive_led (s := { s with level := 0 }) false hled]
    exact if_pos hled
  · have hunconf : s.pins.led.mode ≠ .out := by rw [hled]; decide
    rw [perform_setLevel_of_nonpos s hnonpos]
    exact if_neg hunconf

/-! ### TICK (R104) -/

/-- The state after a tick at the nonzero level `level`: the LED low and the tick's four events. -/
def State.afterTick (level : Byte) (s : State) : State :=
  { s with
    pins := { s.pins with led := ⟨.out, false⟩ }
    traceRev := [.wait .dwell ((255 - level.toNat) * s.params.tUnit), .set .led false,
      .wait .pulse s.params.tPulse, .set .led true] ++ s.traceRev }

theorem tickActions_length {level : Byte} (p : Params) (h : level ≠ 0) :
    (tickActions p level).length = 4 := by
  rw [tickActions, if_neg h]
  rfl

theorem performAll_writeLed (v : Bit) (as : List Action) {s : State}
    (hled : s.pins.led.mode = .out) :
    performAll (.pinWrite .led v :: as) s = performAll as (s.drive .led v) := by
  have hwrite : perform (.pinWrite .led v) s = .next (s.drive .led v) := perform_pinWrite hled
  simp only [performAll, hwrite]

/-- The pulse and the dwell run in turn; the second write finds the LED as configured as the first
did. -/
theorem performAll_tickActions {level : Byte} {s : State} (hlevel : level ≠ 0)
    (hled : s.pins.led.mode = .out) :
    performAll (tickActions s.params level) s = .next (s.afterTick level) := by
  let dwell : Action := .delay .dwell ((255 - level.toNat) * s.params.tUnit)
  let pulsed := (s.drive .led true).emit (.wait .pulse s.params.tPulse)
  calc performAll (tickActions s.params level) s
      = performAll [.pinWrite .led true, .delay .pulse s.params.tPulse, .pinWrite .led false, dwell]
          s := by rw [tickActions, if_neg hlevel]
    _ = performAll [.pinWrite .led false, dwell] pulsed := performAll_writeLed true _ hled
    _ = performAll [dwell] (pulsed.drive .led false) := performAll_writeLed false _ hled
    _ = .next (s.afterTick level) := by rw [State.afterTick, ← hled]; rfl

/-- A tick that has started at the level `level` runs by that level, whatever the state's own level
is. -/
theorem runs_tick {level : Byte} {s : State} (hs : s.AtRequest) (hlevel : level ≠ 0)
    (hled : s.pins.led.mode = .out) :
    runs 4 (startMain (tickActions s.params level) s) = .next (s.afterTick level) := by
  rw [← tickActions_length s.params hlevel]
  exact runs_startMain_plain hs (tickActions_plain s.params level)
    (performAll_tickActions hlevel hled)

theorem exec_tick (s : State) :
    exec .tick s = .next (startMain (tickActions s.params s.level) s) := rfl

/-- Settles O32: at level 0 the tick has no action, else the four of `runs_tick`. -/
theorem tickPulsesByTheLevel : Obligations.TickPulsesByTheLevel := by
  refine fun s hs => ⟨fun hzero => ?_, fun hlevel hled => ?_⟩
  · rw [exec_tick, hzero]
    rfl
  · exact ⟨_, exec_tick s, runs_tick hs hlevel hled⟩

/-- Settles O33: the actions of the start hold the level it read, so the tick runs by it from the
state with the new level. -/
theorem tickKeepsItsSnapshot : Obligations.TickKeepsItsSnapshot := by
  refine fun s hs hlevel hled => ⟨_, exec_tick s, fun level => ?_⟩
  have hchanged : { s with level := level }.AtRequest :=
    ⟨⟨hs.noTurn, hs.noLatched, hs.awake⟩, hs.noFrame, hs.noAction⟩
  exact runs_tick hchanged hlevel hled

end Sys2Proof.Machine

/-! ## The button edge as an event (45_power_interrupt.md R107, R108) -/

namespace Sys2Proof.Machine

/-- Without `pcint_en` the edge is ignored. -/
theorem exec_evEdge_of_disabled {s : State} (henabled : s.pcintEn = false) :
    exec .evEdge s = .next s := by
  show deliverEdge s = .next s
  simp [deliverEdge, henabled]

/-- Masked, the edge touches the latch at most. -/
theorem exec_evEdge_of_masked {s : State} (henabled : s.pcintEn = true) (hmasked : s.ie = false) :
    exec .evEdge s = .next (if s.params.edgeLatch then { s with pending := true } else s) := by
  show deliverEdge s = _
  cases hlatch : s.params.edgeLatch <;> simp [deliverEdge, henabled, hmasked, hlatch]

/-- Unmasked, the edge starts its activation. -/
theorem exec_evEdge_of_unmasked {s : State} (henabled : s.pcintEn = true) (hie : s.ie = true) :
    exec .evEdge s = enterActivation s := by
  show deliverEdge s = _
  simp [deliverEdge, henabled, hie]

/-- Settles O37: the three answers of an edge that starts no activation. -/
theorem maskedEdgeIsLostOrLatched : Obligations.MaskedEdgeIsLostOrLatched := by
  refine fun s => ⟨exec_evEdge_of_disabled, fun henabled hmasked => ?_⟩
  rw [exec_evEdge_of_masked henabled hmasked]
  exact ⟨fun hlost => by rw [hlost]; rfl, fun hlatched => by rw [hlatched]; rfl⟩

/-! ## SleepCpu, and the device asleep (45_power_interrupt.md R113) -/

theorem perform_sleepCpu_of_unarmed {s : State} (hse : s.se = false) :
    perform .sleepCpu s = .next { s with ie := true } := by
  simp [perform, sleepNow, hse]

theorem perform_sleepCpu_of_powerDown {s : State} (hse : s.se = true)
    (hmode : s.sleepMode = .powerDown) :
    perform .sleepCpu s =
      .next { s with ie := true, asleep := true, traceRev := .sleep :: s.traceRev } := by
  simp [perform, sleepNow, hse, hmode]

theorem perform_sleepCpu_of_idle {s : State} (hse : s.se = true) (hmode : s.sleepMode = .idle) :
    perform .sleepCpu s = .fault (.sleepMode .idle) := by
  simp [perform, sleepNow, hse, hmode]

/-- Asleep, no context runs (10_state.md R30). -/
theorem contextMove_asleep {s : State} (hasleep : s.asleep = true) : contextMove s = .rest s :=
  if_pos hasleep

/-- Settles O42: the frame's move is SleepCpu, by its three cases; asleep, a device turn rests. -/
theorem sleepCpuSleepsWhenArmed : Obligations.SleepCpuSleepsWhenArmed := by
  refine ⟨fun s more below hs hframes => ?_, fun s hasleep hlatched => ⟨fun hsched => ?_,
    fun more hsched => ?_⟩⟩
  · rw [step_frame_action hs hframes]
    exact ⟨fun hse => perform_sleepCpu_of_unarmed hse,
      fun hse hmode => perform_sleepCpu_of_powerDown hse hmode,
      fun hse hmode => perform_sleepCpu_of_idle hse hmode⟩
  · have hmove : nextMove s = .rest s := by
      simp [nextMove, hlatched, hsched, contextMove_asleep hasleep]
    rw [step_eq, hmove]
    rfl
  · have hmove : nextMove s = .rest { s with sched := more } :=
      (nextMove_device hlatched hsched).trans (contextMove_asleep hasleep)
    rw [step_eq, hmove]
    rfl

/-! ## A run of the head frame

The schedule holds either no turn or device turns for as long as the frame runs, so one rule serves
an undisturbed device and a schedule with edges before and after (log 1). -/

/-- The next `n` turns, as far as there are any, are the device's. -/
def DeviceTurns (n : Nat) (turns : List Turn) : Prop := ∀ turn ∈ turns.take n, turn = .device

theorem DeviceTurns.nil (n : Nat) : DeviceTurns n [] := fun _ h => by simp at h

theorem DeviceTurns.tail {n : Nat} {turns : List Turn} (h : DeviceTurns (n + 1) turns) :
    DeviceTurns n turns.tail := by
  cases turns with
  | nil => exact .nil n
  | cons _ turns => exact fun turn hmem => h turn (List.mem_cons_of_mem _ hmem)

theorem DeviceTurns.mono {m n : Nat} {turns : List Turn} (h : DeviceTurns n turns) (hmn : m ≤ n) :
    DeviceTurns m turns :=
  fun turn hmem => h turn (List.take_subset_take_left turns hmn hmem)

theorem DeviceTurns.drop (m : Nat) {n : Nat} {turns : List Turn} (h : DeviceTurns (n + m) turns) :
    DeviceTurns n (turns.drop m) := by
  induction m generalizing turns with
  | zero => exact h
  | succ m ih => rw [← List.drop_tail]; exact ih h.tail

theorem DeviceTurns.replicate (n : Nat) (turns : List Turn) :
    DeviceTurns n (List.replicate n Turn.device ++ turns) := by
  intro turn hmem
  rw [List.take_left' List.length_replicate] at hmem
  exact List.eq_of_mem_replicate hmem

/-- On the device's turn, scheduled or not, the head frame performs its next action. -/
theorem step_head_frame {s : State} {a : Action} {more : List Action} {below : List Frame}
    {n : Nat} {turns : List Turn} (hlatched : (s.pending && s.ie) = false)
    (hawake : s.asleep = false) (hturns : DeviceTurns (n + 1) turns) :
    step { s with sched := turns, frames := ⟨a :: more⟩ :: below } =
      perform a { s with sched := turns.tail, frames := ⟨more⟩ :: below } := by
  cases turns with
  | nil => exact step_frame_action ⟨rfl, hlatched, hawake⟩ rfl
  | cons turn turns =>
    obtain rfl : turn = .device := hturns turn (by simp)
    exact step_frame_turn hlatched hawake rfl rfl

/-- Apart from Ret and SleepCpu, an action neither reads nor writes the schedule and the frames. -/
theorem perform_with_context {a : Action} (ha : a.isMain = true) (turns : List Turn)
    (frames : List Frame) (s : State) :
    perform a { s with sched := turns, frames := frames } =
      mapNext (fun t => { t with sched := turns, frames := frames }) (perform a s) := by
  cases a <;> cases ha
  case pinWrite p v =>
    simp only [perform, pinWrite]
    split <;> rfl
  case setLevel value =>
    simp only [perform, setLevelNow, pinWrite]
    split
    · split <;> rfl
    · rfl
  all_goals rfl

/-- Apart from Ret and SleepCpu, an action leaves the latch alone and the device awake. -/
theorem perform_isMain_next {a : Action} (ha : a.isMain = true) {s t : State}
    (h : perform a s = .next t) : t.pending = s.pending ∧ t.asleep = s.asleep := by
  have hp := perform_next h
  cases a <;> cases ha <;> simp only at hp
  case pinWrite => obtain ⟨-, rfl⟩ := hp; exact ⟨rfl, rfl⟩
  case setLevel => rcases hp with ⟨-, -, rfl⟩ | ⟨-, rfl⟩ <;> exact ⟨rfl, rfl⟩
  all_goals (subst hp; exact ⟨rfl, rfl⟩)

/-- With nothing latched and only device turns to come, the head frame runs `acts` and then `a`, one
step each; `a` may be a Ret or a SleepCpu. -/
theorem runs_head_frame {acts more : List Action} {a : Action} {below : List Frame}
    {turns : List Turn} {s t : State} (hacts : ∀ b ∈ acts, b.isMain = true)
    (hpending : s.pending = false) (hawake : s.asleep = false)
    (hturns : DeviceTurns (acts.length + 1) turns) (h : performAll acts s = .next t) :
    runs (acts.length + 1) { s with sched := turns, frames := ⟨acts ++ a :: more⟩ :: below } =
      perform a { t with
        sched := turns.drop (acts.length + 1), frames := ⟨more⟩ :: below } := by
  induction acts generalizing s turns with
  | nil =>
    cases h
    rw [List.length_nil, runs_one, List.drop_one]
    exact step_head_frame (by rw [hpending]; rfl) hawake hturns
  | cons b acts ih =>
    have hb : b.isMain = true := hacts b (by simp)
    simp only [performAll] at h
    split at h
    case h_1 u hu =>
      have hstep : step { s with sched := turns, frames := ⟨b :: acts ++ a :: more⟩ :: below } =
          .next { u with sched := turns.tail, frames := ⟨acts ++ a :: more⟩ :: below } := by
        refine (step_head_frame (by rw [hpending]; rfl) hawake hturns).trans ?_
        rw [perform_with_context hb, hu]
        rfl
      obtain ⟨hp, hw⟩ := perform_isMain_next hb hu
      rw [List.length_cons, runs_succ hstep, ih (fun c hc => hacts c (by simp [hc]))
        (hp.trans hpending) (hw.trans hawake) hturns.tail h, List.drop_tail]
    all_goals cases h

/-! ## The handler's paths, run to their end (45_power_interrupt.md R110 to R112) -/

/-- The state after the on path and its Ret (R110). -/
def State.brightened (s : State) : State :=
  { s with level := 255, ie := true, traceRev := .wait .holdOn s.params.tHoldOn :: s.traceRev }

/-- The state in the off path's window, before its sleep sequence (R111). -/
def State.dimmed (s : State) : State :=
  { s with
    level := 0, ie := true
    pins := { s.pins with led := ⟨.out, false⟩ }
    traceRev := [.wait .holdOff s.params.tHoldOff, .set .led false] ++ s.traceRev }

/-- The state after the sleep sequence's SleepCpu, its frame halted above `below` (R112, R113). -/
def State.dozing (below : List Frame) (s : State) : State :=
  { s with
    ie := true, sleepMode := .powerDown, se := true, asleep := true
    traceRev := .sleep :: s.traceRev
    frames := ⟨afterSleep⟩ :: below }

section
variable {s : State} {below : List Frame} {turns : List Turn}

theorem perform_setLevel_zero (hled : s.pins.led.mode = .out) :
    perform (.setLevel 0) s = .next { s with
      level := 0, pins := { s.pins with led := ⟨.out, false⟩ }
      traceRev := .set .led false :: s.traceRev } := by
  rw [perform_setLevel_of_nonpos s (by decide),
    ← drive_led (s := { s with level := 0 }) false hled]
  exact if_pos hled

theorem runs_onPath (hpending : s.pending = false) (hawake : s.asleep = false)
    (hturns : DeviceTurns 4 turns) :
    runs 4 { s with sched := turns, frames := ⟨onPath s.params⟩ :: below } =
      .next { s.brightened with sched := turns.drop 4, frames := below } :=
  runs_head_frame (acts := [.setLevel 255, .ieWrite false, .delay .holdOn s.params.tHoldOn])
    (by simp [Action.isMain]) hpending hawake hturns rfl

theorem runs_offPath_window (hled : s.pins.led.mode = .out) (hpending : s.pending = false)
    (hawake : s.asleep = false) (hturns : DeviceTurns 4 turns) :
    runs 4 { s with sched := turns, frames := ⟨offPath s.params⟩ :: below } =
      .next { s.dimmed with
        sched := turns.drop 4, frames := ⟨sleepActions ++ [.ret]⟩ :: below } := by
  have hbody : performAll [.setLevel 0, .ieWrite false, .delay .holdOff s.params.tHoldOff] s =
      .next { s.dimmed with ie := false } := by
    rw [performAll, perform_setLevel_zero hled]
    rfl
  exact runs_head_frame (acts := [.setLevel 0, .ieWrite false, .delay .holdOff s.params.tHoldOff])
    (by simp [Action.isMain]) hpending hawake hturns hbody

theorem runs_sleepActions (hpending : s.pending = false) (hawake : s.asleep = false)
    (hturns : DeviceTurns 4 turns) :
    runs 4 { s with sched := turns, frames := ⟨sleepActions ++ [.ret]⟩ :: below } =
      .next { s.dozing below with sched := turns.drop 4 } :=
  runs_head_frame (acts := [.ieWrite false, .smWrite .powerDown, .seWrite true])
    (by simp [Action.isMain]) hpending hawake hturns rfl

theorem runs_offPath (hled : s.pins.led.mode = .out) (hpending : s.pending = false)
    (hawake : s.asleep = false) (hturns : DeviceTurns 8 turns) :
    runs 8 { s with sched := turns, frames := ⟨offPath s.params⟩ :: below } =
      .next { s.dimmed.dozing below with sched := turns.drop 8 } := by
  rw [runs_add (m := 4) (n := 4)
    (runs_offPath_window hled hpending hawake (hturns.mono (by decide)))]
  refine (runs_sleepActions (s := s.dimmed) hpending hawake (hturns.drop 4)).trans ?_
  rw [List.drop_drop]

/-- A woken frame disarms, masks and returns (R112, R114). -/
theorem runs_afterSleep (hpending : s.pending = false) (hawake : s.asleep = false)
    (hturns : DeviceTurns 3 turns) :
    runs 3 { s with sched := turns, frames := ⟨afterSleep⟩ :: below } =
      .next { s with se := false, ie := true, sched := turns.drop 3, frames := below } :=
  runs_head_frame (acts := [.seWrite false, .ieWrite false])
    (by simp [Action.isMain]) hpending hawake hturns rfl

end

/-! ## An activation from its entry (R114, 60_exceptions.md R125) -/

theorem woken_of_awake {s : State} (hawake : s.asleep = false) : s.woken = s :=
  if_neg (by simp [hawake])

theorem woken_of_asleep {s : State} (hasleep : s.asleep = true) :
    s.woken = { s with asleep := false, traceRev := .wake :: s.traceRev } :=
  if_pos hasleep

/-- Waking changes only `asleep` and the trace. -/
theorem woken_eq (s : State) :
    s.woken = { s with asleep := false, traceRev := s.woken.traceRev } := by
  cases hasleep : s.asleep
  · rw [woken_of_awake hasleep, ← hasleep]
  · rw [woken_of_asleep hasleep]

/-- Entry with room for one more frame. -/
theorem enterActivation_of_room {s : State} (hroom : s.frames.length + 1 ≤ s.params.nestLimit) :
    enterActivation s = .next { s.woken with
      ie := false, pending := false
      frames := ⟨handlerActions s.params s.level⟩ :: s.frames } := by
  rw [enterActivation, woken_eq s]
  exact if_neg (by simpa [State.depth] using hroom)

theorem handlerActions_of_lt {p : Params} {level : Byte} (h : level.toNat < 255) :
    handlerActions p level = onPath p :=
  if_pos h

theorem handlerActions_of_full {p : Params} {level : Byte} (h : level.toNat = 255) :
    handlerActions p level = offPath p :=
  if_neg (by simp [BitVec.lt_def, h])

/-- Below level 255, an entry brightens: the on path runs and returns to the frames below. -/
theorem activation_brightens {s : State} (hroom : s.frames.length + 1 ≤ s.params.nestLimit)
    (hlevel : s.level.toNat < 255) (hturns : DeviceTurns 4 s.sched) :
    ∃ t, enterActivation s = .next t ∧
      runs 4 t =
        .next { s.woken.brightened with pending := false, sched := s.sched.drop 4 } := by
  refine ⟨_, enterActivation_of_room hroom, ?_⟩
  rw [handlerActions_of_lt hlevel, woken_eq s]
  exact runs_onPath (s := { s with asleep := false, pending := false, ie := false, traceRev := _ })
    rfl rfl hturns

/-- At level 255, an entry darkens: the off path runs to its SleepCpu. -/
theorem activation_darkens {s : State} (hroom : s.frames.length + 1 ≤ s.params.nestLimit)
    (hlevel : s.level.toNat = 255) (hled : s.pins.led.mode = .out)
    (hturns : DeviceTurns 8 s.sched) :
    ∃ t, enterActivation s = .next t ∧
      runs 8 t = .next { s.woken.dimmed.dozing s.frames with
        pending := false, sched := s.sched.drop 8 } := by
  refine ⟨_, enterActivation_of_room hroom, ?_⟩
  rw [handlerActions_of_full hlevel, woken_eq s]
  exact runs_offPath (s := { s with asleep := false, pending := false, ie := false, traceRev := _ })
    hled rfl rfl hturns

/-- Settles O39: the edge enters, and below level 255 the entry brightens. -/
theorem onPathRaisesTheLevel : Obligations.OnPathRaisesTheLevel := by
  intro s henabled hie hsched hroom hlevel w
  have hw : w = { s with asleep := false, traceRev := w.traceRev } := woken_eq s
  obtain ⟨t, hentry, hrun⟩ := activation_brightens hroom hlevel (by rw [hsched]; exact .nil 4)
  refine ⟨t, (exec_evEdge_of_unmasked henabled hie).trans hentry, ?_⟩
  rw [hrun, woken_eq s, hw, hsched]
  rfl

/-- Settles O40: the edge enters, and at level 255 the entry darkens. -/
theorem offPathEndsAsleep : Obligations.OffPathEndsAsleep := by
  intro s henabled hie hsched hroom hlevel hled w
  have hw : w = { s with asleep := false, traceRev := w.traceRev } := woken_eq s
  obtain ⟨t, hentry, hrun⟩ :=
    activation_darkens hroom hlevel hled (by rw [hsched]; exact .nil 8)
  refine ⟨t, (exec_evEdge_of_unmasked henabled hie).trans hentry, ?_⟩
  rw [hrun, woken_eq s, hw, hsched]
  rfl

/-- Settles O45: the edge in the window enters at level 0 and brightens; its Ret is back in the off
path's frame, whose sleep sequence runs. -/
theorem windowEdgeSleepsBright : Obligations.WindowEdgeSleepsBright := by
  intro s below hs hie henabled hlevel hroom hframes
  obtain ⟨t, hentry, hrun⟩ := activation_brightens hroom (by rw [hlevel]; decide)
    (by rw [hs.noTurn]; exact .nil 4)
  refine ⟨t, (exec_evEdge_of_unmasked henabled hie).trans hentry, ?_⟩
  rw [woken_of_awake hs.awake, hs.noTurn] at hrun
  calc runs 8 t
      = runs 4 { s.brightened with
          pending := false, sched := [], frames := ⟨sleepActions ++ [.ret]⟩ :: below } := by
        have hwindow : s.frames = ⟨sleepActions ++ [.ret]⟩ :: below := hframes
        rw [runs_add (m := 4) (n := 4) hrun, ← hwindow]
        rfl
    _ = .next { s.brightened.dozing below with pending := false, sched := [] } :=
        runs_sleepActions (s := { s.brightened with pending := false }) rfl hs.awake (.nil 4)
    _ = _ := by
        rw [hs.noTurn, hie]
        rfl

/-! ## Presses and releases of the button (45_power_interrupt.md R107, R115) -/

/-- Under FALLING, a press of the released button will start an activation. -/
structure State.HearsPresses (s : State) : Prop where
  falling : s.params.edgeQualifier = .falling
  configured : s.btnMode = .inPullup
  enabled : s.pcintEn = true
  unmasked : s.ie = true
  noLatched : s.pending = false

/-- The configured button is driven to `b`, with `turns` still to come. -/
def State.buttonAt (b : Bit) (turns : List Turn) (s : State) : State :=
  { s with btnIn := b, btnPrev := b, sched := turns }

theorem woken_buttonAt (b : Bit) (turns : List Turn) (s : State) :
    (s.buttonAt b turns).woken = s.woken.buttonAt b turns := by
  cases hasleep : s.asleep
  · rw [woken_of_awake hasleep, woken_of_awake (s := s.buttonAt b turns) hasleep]
  · rw [woken_of_asleep hasleep, woken_of_asleep (s := s.buttonAt b turns) hasleep]
    rfl

section
variable {s : State} {turns : List Turn}

/-- Under FALLING, a change of the configured button from 1 to 0 is the edge event, and no other. -/
theorem step_button {b : Bit} (hs : s.HearsPresses) (hsched : s.sched = .button b :: turns) :
    step s = if s.btnPrev && !b then exec .evEdge (s.buttonAt b turns)
      else .next (s.buttonAt b turns) := by
  have hmove : nextMove s = .button b { s with sched := turns } := by
    simp [nextMove, hs.noLatched, hsched]
  have hlevel : buttonLevel b { s with sched := turns } = s.buttonAt b turns :=
    if_pos hs.configured
  have hqualifies : buttonQualifies b { s with sched := turns } = (s.btnPrev && !b) := by
    simp [buttonQualifies, edgeQualifies, hs.falling, hs.configured]
  rw [step_eq, hmove, runMove, buttonTurn, hlevel, hqualifies]
  rfl

theorem step_release (hs : s.HearsPresses) (hsched : s.sched = .button true :: turns) :
    step s = .next (s.buttonAt true turns) := by
  rw [step_button hs hsched, Bool.not_true, Bool.and_false]
  rfl

theorem step_press (hs : s.HearsPresses) (hreleased : s.btnPrev = true)
    (hsched : s.sched = .button false :: turns) :
    step s = enterActivation (s.buttonAt false turns) := by
  rw [step_button hs hsched, hreleased]
  exact exec_evEdge_of_unmasked hs.enabled hs.unmasked

/-- A press, then `n` steps of its activation. -/
theorem runs_press {n : Nat} {v : State} (hs : s.HearsPresses) (hreleased : s.btnPrev = true)
    (hsched : s.sched = .button false :: turns)
    (h : ∃ t, enterActivation (s.buttonAt false turns) = .next t ∧ runs n t = .next v) :
    runs (n + 1) s = .next v := by
  obtain ⟨t, hentry, hrun⟩ := h
  rw [runs_succ ((step_press hs hreleased hsched).trans hentry), hrun]

/-- A release and a press, then `n` steps of its activation. -/
theorem runs_release_press {n : Nat} {v : State} (hs : s.HearsPresses)
    (hsched : s.sched = .button true :: .button false :: turns)
    (h : ∃ t, enterActivation (s.buttonAt false turns) = .next t ∧ runs n t = .next v) :
    runs (n + 2) s = .next v := by
  rw [runs_succ (step_release hs hsched)]
  exact runs_press (s := s.buttonAt true (.button false :: turns))
    ⟨hs.falling, hs.configured, hs.enabled, hs.unmasked, hs.noLatched⟩ rfl rfl h

/-- The state once the activation of a press has run: the button held, nothing latched. -/
def State.afterPress (turns : List Turn) (s : State) : State :=
  { s.buttonAt false turns with pending := false }

theorem press_brightens (turns : List Turn) (hroom : s.frames.length + 1 ≤ s.params.nestLimit)
    (hlevel : s.level.toNat < 255) :
    ∃ t, enterActivation (s.buttonAt false (List.replicate 4 Turn.device ++ turns)) = .next t ∧
      runs 4 t = .next (s.woken.brightened.afterPress turns) := by
  obtain ⟨t, hentry, hrun⟩ := activation_brightens
    (s := s.buttonAt false (List.replicate 4 Turn.device ++ turns)) hroom hlevel
    (.replicate 4 turns)
  refine ⟨t, hentry, ?_⟩
  rw [hrun, woken_buttonAt]
  rfl

theorem press_darkens (turns : List Turn) (hawake : s.asleep = false)
    (hroom : s.frames.length + 1 ≤ s.params.nestLimit) (hlevel : s.level.toNat = 255)
    (hled : s.pins.led.mode = .out) :
    ∃ t, enterActivation (s.buttonAt false (List.replicate 8 Turn.device ++ turns)) = .next t ∧
      runs 8 t = .next ((s.dimmed.dozing s.frames).afterPress turns) := by
  obtain ⟨t, hentry, hrun⟩ := activation_darkens
    (s := s.buttonAt false (List.replicate 8 Turn.device ++ turns)) hroom hlevel hled
    (.replicate 8 turns)
  refine ⟨t, hentry, ?_⟩
  rw [hrun, woken_buttonAt, woken_of_awake hawake]
  rfl

end

/-- The turns of a release and of a press whose activation takes `n` steps. -/
def releaseThenPress (n : Nat) (turns : List Turn) : List Turn :=
  [.button true, .button false] ++ List.replicate n Turn.device ++ turns

/-- Press 1 brightens an awake device and press 2 darkens it, down to its SleepCpu. -/
theorem runs_two_presses {s : State} {turns : List Turn} (hs : s.HearsPresses)
    (hawake : s.asleep = false) (hreleased : s.btnPrev = true) (hled : s.pins.led.mode = .out)
    (hroom : s.frames.length + 1 ≤ s.params.nestLimit) (hlevel : s.level.toNat < 255)
    (hsched : s.sched =
      .button false :: (List.replicate 4 Turn.device ++ releaseThenPress 8 turns)) :
    runs 15 s = .next ((s.brightened.dimmed.dozing s.frames).afterPress turns) := by
  have hfirst := press_brightens (releaseThenPress 8 turns) hroom hlevel
  rw [woken_of_awake hawake] at hfirst
  have hsecond := press_darkens (s := s.brightened.afterPress (releaseThenPress 8 turns)) turns
    hawake hroom rfl hled
  calc runs 15 s
      = runs 10 (s.brightened.afterPress (releaseThenPress 8 turns)) :=
        runs_add (n := 10) (runs_press hs hreleased hsched hfirst)
    _ = .next ((s.brightened.dimmed.dozing s.frames).afterPress turns) :=
        runs_release_press (s := s.brightened.afterPress (releaseThenPress 8 turns))
          ⟨hs.falling, hs.configured, hs.enabled, rfl, rfl⟩ rfl hsecond

/-- The next press wakes the halted device and brightens it, and then the rest of the halted frame
runs. -/
theorem runs_waking_press {s : State} {below : List Frame} (turns : List Turn)
    (hs : s.HearsPresses) (hroom : below.length + 1 + 1 ≤ s.params.nestLimit)
    (hlevel : s.level.toNat < 255) :
    runs 9 ((s.dozing below).afterPress (releaseThenPress 7 turns)) = .next { s with
      level := 255, ie := true, asleep := false, pending := false
      btnIn := false, btnPrev := false
      sleepMode := .powerDown, se := false
      traceRev := [.wait .holdOn s.params.tHoldOn, .wake, .sleep] ++ s.traceRev
      frames := below, sched := turns } := by
  have hpress := press_brightens (s := (s.dozing below).afterPress (releaseThenPress 7 turns))
    (List.replicate 3 Turn.device ++ turns) hroom hlevel
  rw [woken_of_asleep rfl] at hpress
  have hwoken := runs_release_press (s := (s.dozing below).afterPress (releaseThenPress 7 turns))
    ⟨hs.falling, hs.configured, hs.enabled, rfl, rfl⟩ rfl hpress
  rw [runs_add (m := 6) (n := 3) hwoken]
  exact runs_afterSleep (s := { s with
      level := 255, ie := true, asleep := false, pending := false
      btnIn := false, btnPrev := false, sleepMode := .powerDown, se := true
      traceRev := [.wait .holdOn s.params.tHoldOn, .wake, .sleep] ++ s.traceRev })
    rfl rfl (.replicate 3 turns)

/-- Settles O44: the first two presses leave the device asleep, the third wakes it. -/
theorem twoPressCycleReturnsBright : Obligations.TwoPressCycleReturnsBright := by
  intro s rest hfalling hframes hawake hpending hie henabled hconfigured hreleased hled hlevel
    hlimit hsched
  have hroom : s.frames.length + 1 + 1 ≤ s.params.nestLimit := by rw [hframes]; exact hlimit
  have hasleep := runs_two_presses (turns := releaseThenPress 7 rest)
    ⟨hfalling, hconfigured, henabled, hie, hpending⟩ hawake hreleased hled
    (Nat.le_of_succ_le hroom) hlevel hsched
  have hwaking := runs_waking_press (s := s.brightened.dimmed) rest
    ⟨hfalling, hconfigured, henabled, rfl, hpending⟩ hroom (show (0 : Byte).toNat < 255 by decide)
  rw [runs_add (n := 9) hasleep, hwaking, hawake, hpending, hie]
  rfl

end Sys2Proof.Machine

/-! ## Exception entry and return (60_exceptions.md R125, R127) -/

namespace Sys2Proof.Machine

/-- Entry past NEST_LIMIT: the woken device faults with the depth it had. -/
theorem enterActivation_of_full {s : State} (hfull : s.params.nestLimit < s.frames.length + 1) :
    enterActivation s = .fault (.nestLimit s.frames.length s.woken) := by
  rw [enterActivation, woken_eq s]
  exact if_pos hfull

/-- A latched edge that can be taken is the next move, whatever the schedule and the contexts hold
(log 18). -/
theorem step_of_latched {s : State} (hpending : s.pending = true) (hie : s.ie = true) :
    step s = enterActivation s := by
  have hmove : nextMove s = .activate s := if_pos (by rw [hpending, hie]; rfl)
  rw [step_eq, hmove]
  rfl

/-- Settles O36: unmasked, a delivered and a latched edge are both `enterActivation`, which faults
or pushes the path of the level. -/
theorem edgeEntersTheHandler : Obligations.EdgeEntersTheHandler := by
  intro s hie w path
  have hpath : handlerActions s.params s.level = path := by
    by_cases hlevel : s.level.toNat < 255
    · exact (handlerActions_of_lt hlevel).trans (if_pos hlevel).symm
    · have hfull : s.level.toNat = 255 := by have := s.level.isLt; omega
      exact (handlerActions_of_full hfull).trans (if_neg hlevel).symm
  have bothWays {r : Result} (hentry : enterActivation s = r) :
      (s.pcintEn = true → exec .evEdge s = r) ∧ (s.pending = true → step s = r) :=
    ⟨fun henabled => (exec_evEdge_of_unmasked henabled hie).trans hentry,
      fun hpending => (step_of_latched hpending hie).trans hentry⟩
  refine ⟨fun hfull => bothWays (enterActivation_of_full hfull), fun hroom => bothWays ?_⟩
  rw [enterActivation_of_room hroom, hpath]
  rfl

/-- Settles O43: the frame's move is Ret, and popping the frame it is taken from leaves the frames
below. -/
theorem retPopsAndUnmasks : Obligations.RetPopsAndUnmasks := by
  intro s more below hs hframes
  rw [step_frame_action hs hframes]
  rfl

end Sys2Proof.Machine

/-! ## What a whole run keeps -/

namespace Sys2Proof.Machine

/-- What every step keeps holds at the end of every run. -/
theorem runs_keeps {P : State → Prop} (hstep : ∀ {s t : State}, P s → step s = .next t → P t)
    {n : Nat} {s u : State} (hs : P s) (h : runs n s = .next u) : P u := by
  induction n generalizing s with
  | zero => cases h; exact hs
  | succ n ih =>
    cases hfirst : step s with
    | next t => rw [runs_succ hfirst] at h; exact ih (hstep hs hfirst) h
    | fault r => rw [runs_succ_fault hfirst] at h; cases h
    | refused r => rw [runs_succ_refused hfirst] at h; cases h

/-- What the main context has still to run is the same: its actions, boot entries and request
bytes. -/
structure SameMain (s t : State) : Prop where
  seq : t.mainSeq = s.mainSeq
  jobs : t.mainJobs = s.mainJobs
  requests : t.requests = s.requests

/-- No action writes the main context's lists or adds an activation. -/
theorem perform_sameMain {a : Action} {s t : State} (h : perform a s = .next t) :
    SameMain s t ∧ t.frames ⊆ s.frames := by
  by_cases hplain : a.isPlain = true
  · obtain ⟨-, -, hframes, -, -, hseq, hjobs, hrequests, -⟩ := perform_plain hplain h
    exact ⟨⟨hseq, hjobs, hrequests⟩, hframes ▸ List.Subset.refl _⟩
  · have hp := perform_next h
    cases a <;> simp only [Action.isPlain, not_true_eq_false] at hplain <;> simp only at hp
    case ieWrite => subst hp; exact ⟨⟨rfl, rfl, rfl⟩, List.Subset.refl _⟩
    case sleepCpu =>
      rcases hp with ⟨-, -, rfl⟩ | ⟨-, rfl⟩ <;> exact ⟨⟨rfl, rfl, rfl⟩, List.Subset.refl _⟩
    case ret => subst hp; exact ⟨⟨rfl, rfl, rfl⟩, List.tail_subset _⟩

/-- From `s` to `t` an edge comes: the main context's lists stay, the bus makes no event, and at
most one activation begins, of the handler for the level of `s`. -/
structure EdgeStep (s t : State) : Prop extends SameMain s t where
  busEvents : busEvents t.trace = busEvents s.trace
  frames : t.frames = s.frames ∨ t.frames = ⟨handlerActions s.params s.level⟩ :: s.frames

theorem busEvents_append (es ds : List Event) :
    busEvents (es ++ ds) = busEvents es ++ busEvents ds := List.filter_append ..

theorem enterActivation_edgeStep {s t : State} (h : enterActivation s = .next t) :
    EdgeStep s t := by
  obtain ⟨-, rfl⟩ := enterActivation_next h
  unfold State.woken
  split
  · have hbus : busEvents (s.traceRev.reverse ++ [.wake]) = busEvents s.traceRev.reverse := by
      rw [busEvents_append]; exact List.append_nil _
    exact ⟨⟨rfl, rfl, rfl⟩, by simpa [State.trace] using hbus, .inr rfl⟩
  · exact ⟨⟨rfl, rfl, rfl⟩, rfl, .inr rfl⟩

theorem buttonTurn_edgeStep {b : Bit} {s t : State} (h : buttonTurn b s = .next t) :
    EdgeStep s t := by
  obtain ⟨prev, rfl | ⟨-, -, rfl⟩ | ⟨-, -, hentry⟩⟩ := buttonTurn_next h
  · exact ⟨⟨rfl, rfl, rfl⟩, rfl, .inl rfl⟩
  · exact ⟨⟨rfl, rfl, rfl⟩, rfl, .inl rfl⟩
  · obtain ⟨⟨hseq, hjobs, hrequests⟩, hbus, hframes⟩ := enterActivation_edgeStep hentry
    exact ⟨⟨hseq, hjobs, hrequests⟩, hbus, hframes⟩

end Sys2Proof.Machine

/-! ## The free-running loop (70_reset_and_hazards.md R140, R141) -/

namespace Sys2Proof.Machine

theorem exec_loop (s : State) :
    exec .loop s = .next
      (startMain (tickActions s.params s.level) { s with mainJobs := .op .loop :: s.mainJobs }) :=
  rfl

/-- Settles O34: LOOP is TICK started with one more entry on the boot list, which a tick leaves
alone. -/
theorem loopTicksAndLoops : Obligations.LoopTicksAndLoops := by
  refine fun s hs => ⟨fun hzero => ?_, fun hlevel hled => ?_⟩
  · rw [exec_loop, hzero]
    rfl
  · have hlooping : { s with mainJobs := .op .loop :: s.mainJobs }.AtRequest :=
      ⟨⟨hs.noTurn, hs.noLatched, hs.awake⟩, hs.noFrame, hs.noAction⟩
    exact ⟨_, exec_loop s, runs_tick hlooping hlevel hled⟩

/-- With LOOP next, a step leaves the whole boot list as it is: the only entry it can take is LOOP,
which puts itself back. -/
theorem step_mainJobs_of_loop {s t : State} {more : List Job}
    (hloop : s.mainJobs = .op .loop :: more) (h : step s = .next t) :
    t.mainJobs = .op .loop :: more := by
  rcases step_cases h with ⟨-, -, hlatched⟩ | ⟨-, turns, ⟨b, -, hturn⟩ | ⟨-, hctx⟩⟩
  · exact (enterActivation_edgeStep hlatched).jobs.trans hloop
  · exact (buttonTurn_edgeStep hturn).jobs.trans hloop
  rcases hctx.cases with rfl | ⟨-, ⟨_, _, _, -, hact⟩ | ⟨-, ⟨_, _, -, hact⟩ |
    ⟨-, ⟨_, _, hjobs, -⟩ | ⟨i, rest, hjobs, hop⟩ | ⟨_, _, hjobs, -⟩⟩⟩⟩
  · exact hloop
  · exact (perform_sameMain hact).1.jobs.trans hloop
  · exact (perform_sameMain hact).1.jobs.trans hloop
  · cases hloop.symm.trans hjobs
  · cases hloop.symm.trans hjobs; cases hop; rfl
  · cases hloop.symm.trans hjobs

/-- Settles O35: LOOP's start puts LOOP next, every step keeps it there, and a normal end has no boot
entry left. -/
theorem loopNeverEndsNormally : Obligations.LoopNeverEndsNormally := by
  intro s t u n hstart hrun
  have hloop : t.mainJobs = .op .loop :: s.mainJobs := by
    cases hstart
    rfl
  have hend : u.mainJobs = .op .loop :: s.mainJobs := runs_keeps step_mainJobs_of_loop hloop hrun
  simp [State.normalEnd, hend]

end Sys2Proof.Machine

/-! ## The bus under edges (70_reset_and_hazards.md R153, 20_memory.md R48) -/

namespace Sys2Proof.Machine

/-- The bus events a state has made, then those its main context has still to make. -/
def State.busRecord (s : State) : List Event :=
  busEvents s.trace ++ busEventsToCome s.mainSeq

/-- The main context has nothing left to start, and what is left of the activations spares the
display: the bus events to come are those of the main context's actions. -/
structure State.OnlyMainDrivesBus (s : State) : Prop where
  noJob : s.mainJobs = []
  noRequest : s.requests = []
  framesSpare : ∀ f ∈ s.frames, ∀ a ∈ f.seq, a.sparesDisplay = true

theorem State.Inv.onlyMainDrivesBus {s : State} (hinv : s.Inv) (hjobs : s.mainJobs = [])
    (hrequests : s.requests = []) : s.OnlyMainDrivesBus :=
  ⟨hjobs, hrequests, fun f hf => (hinv.tails f hf).sparesDisplay⟩

theorem busEventsToCome_cons (a : Action) (as : List Action) :
    busEventsToCome (a :: as) = busEventsToCome [a] ++ busEventsToCome as :=
  (congrArg busEvents (List.filterMap_append (l := [a]))).trans (busEvents_append _ _)

theorem busEventsToCome_cons_of_sparesDisplay {a : Action} (ha : a.sparesDisplay = true)
    (as : List Action) : busEventsToCome (a :: as) = busEventsToCome as := by
  rw [busEventsToCome_cons]
  cases a <;> cases ha <;> rfl

/-- An action makes the bus events it had to come; SetLevel's write is to the LED. -/
theorem perform_busEvents {a : Action} {s t : State} (h : perform a s = .next t) :
    busEvents t.trace = busEvents s.trace ++ busEventsToCome [a] := by
  have hp := perform_next h
  cases a <;> simp only at hp
  case pinWrite => obtain ⟨-, rfl⟩ := hp; simp [State.trace, busEvents_append, busEventsToCome]
  case sleepCpu =>
    rcases hp with ⟨-, -, rfl⟩ | ⟨-, rfl⟩ <;> simp [State.trace, busEvents, busEventsToCome]
  case setLevel =>
    rcases hp with ⟨-, -, rfl⟩ | ⟨-, rfl⟩ <;>
      simp [State.trace, busEvents, busEventsToCome, OPin.isBus]
  all_goals (subst hp; simp [State.trace, busEvents, busEventsToCome])

/-- An action performed ahead of the main context's list moves its bus events from those to come to
those made. -/
theorem perform_busRecord {a : Action} {s t : State} (h : perform a s = .next t)
    (hs : s.OnlyMainDrivesBus) :
    t.OnlyMainDrivesBus ∧ t.busRecord = busEvents s.trace ++ busEventsToCome (a :: s.mainSeq) := by
  obtain ⟨⟨hseq, hjobs, hrequests⟩, hframes⟩ := perform_sameMain h
  refine ⟨⟨hjobs.trans hs.noJob, hrequests.trans hs.noRequest,
    fun f hf => hs.framesSpare f (hframes hf)⟩, ?_⟩
  rw [State.busRecord, perform_busEvents h, hseq, busEventsToCome_cons a s.mainSeq, List.append_assoc]

theorem handlerActions_sparesDisplay (p : Params) (level : Byte) :
    ∀ a ∈ handlerActions p level, a.sparesDisplay = true := by
  unfold handlerActions
  split
  · exact HandlerTail.sparesDisplay ⟨by simp [onPath], .inl List.suffix_rfl⟩
  · exact HandlerTail.sparesDisplay ⟨by simp [offPath], .inr List.suffix_rfl⟩

theorem EdgeStep.busRecord {s t : State} (h : EdgeStep s t) (hs : s.OnlyMainDrivesBus) :
    t.OnlyMainDrivesBus ∧ t.busRecord = s.busRecord := by
  refine ⟨⟨h.jobs.trans hs.noJob, h.requests.trans hs.noRequest, ?_⟩, ?_⟩
  · rcases h.frames with hframes | hframes <;> rw [hframes]
    · exact hs.framesSpare
    · exact List.forall_mem_cons.2 ⟨handlerActions_sparesDisplay _ _, hs.framesSpare⟩
  · rw [State.busRecord, h.busEvents, h.seq, State.busRecord]

/-- A device turn performs an action of the head frame, which is none of the bus's, or the main
context's next action, or rests. -/
theorem ContextStep.busRecord {s t : State} {turns : List Turn} (h : ContextStep s turns t)
    (hs : s.OnlyMainDrivesBus) : t.OnlyMainDrivesBus ∧ t.busRecord = s.busRecord := by
  obtain ⟨hnoJob, hnoRequest, hspare⟩ := hs
  rcases h.cases with rfl | ⟨-, ⟨a, more, below, hframes, hact⟩ | ⟨-, ⟨a, more, hseq, hact⟩ |
    ⟨-, ⟨_, _, hjobs, -⟩ | ⟨_, _, hjobs, -⟩ | ⟨_, _, -, hrequests, -⟩⟩⟩⟩
  · exact ⟨⟨hnoJob, hnoRequest, hspare⟩, rfl⟩
  · rw [hframes, List.forall_mem_cons, List.forall_mem_cons] at hspare
    obtain ⟨⟨ha, hmore⟩, hbelow⟩ := hspare
    obtain ⟨ht, hrecord⟩ := perform_busRecord hact
      ⟨hnoJob, hnoRequest, List.forall_mem_cons.2 ⟨hmore, hbelow⟩⟩
    exact ⟨ht, by rw [hrecord, busEventsToCome_cons_of_sparesDisplay ha]; rfl⟩
  · obtain ⟨ht, hrecord⟩ := perform_busRecord hact ⟨hnoJob, hnoRequest, hspare⟩
    exact ⟨ht, by rw [hrecord, State.busRecord, hseq]; rfl⟩
  · cases hnoJob.symm.trans hjobs
  · cases hnoJob.symm.trans hjobs
  · exact absurd hnoRequest hrequests

theorem step_busRecord {s t : State} (hs : s.OnlyMainDrivesBus) (h : step s = .next t) :
    t.OnlyMainDrivesBus ∧ t.busRecord = s.busRecord := by
  rcases step_cases h with ⟨-, -, hlatched⟩ | ⟨-, turns, ⟨b, -, hturn⟩ | ⟨-, hctx⟩⟩
  · exact (enterActivation_edgeStep hlatched).busRecord hs
  · exact (buttonTurn_edgeStep hturn).busRecord ⟨hs.noJob, hs.noRequest, hs.framesSpare⟩
  · exact hctx.busRecord hs

/-- Settles O56: every step keeps the record of bus events made and to come, as long as only the main
context drives the bus, and the invariant's handler tails give that at the start. -/
theorem edgesNeverTearTheBus : Obligations.EdgesNeverTearTheBus := by
  intro s u n hinv hjobs hrequests hrun
  have hstep : ∀ {v w : State}, v.OnlyMainDrivesBus ∧ v.busRecord = s.busRecord →
      step v = .next w → w.OnlyMainDrivesBus ∧ w.busRecord = s.busRecord := by
    rintro v w ⟨hv, hrecord⟩ h
    rw [← hrecord]
    exact step_busRecord hv h
  have hstart := hinv.onlyMainDrivesBus hjobs hrequests
  exact (runs_keeps hstep ⟨hstart, rfl⟩ hrun).2

end Sys2Proof.Machine

/-! ## The machine invariant (60_exceptions.md R125 to R128) -/

namespace Sys2Proof.Machine

/-! ### The activations, the masking and sleep -/

/-- The part of the invariant that speaks of the activations. -/
structure ContextsOk (p : Params) (frames : List Frame) (ie asleep : Bool) : Prop where
  tails : ∀ f ∈ frames, HandlerTail p f.seq
  suspended : ∀ f ∈ frames.tail, f.seq ∈ openPoints
  masked : ie = true → ∀ f ∈ frames.head?, f.seq ∈ openPoints
  sleeping : asleep = true → ie = true ∧ ∃ below, frames = ⟨afterSleep⟩ :: below
  nesting : frames.length ≤ p.nestLimit

/-- A frame suspended where `ie` was set: a tail of the handler at an open point (R128). -/
def Frame.Suspended (p : Params) (f : Frame) : Prop := HandlerTail p f.seq ∧ f.seq ∈ openPoints

theorem contextsOk_nil (p : Params) (ie : Bool) : ContextsOk p [] ie false :=
  ⟨by simp, by simp, by simp, by simp, Nat.zero_le _⟩

/-- The head frame has its own conditions; the frames below it are suspended. -/
theorem contextsOk_cons {p : Params} {seq : List Action} {below : List Frame} {ie asleep : Bool} :
    ContextsOk p (⟨seq⟩ :: below) ie asleep ↔
      HandlerTail p seq ∧ (∀ f ∈ below, f.Suspended p) ∧ (ie = true → seq ∈ openPoints) ∧
      (asleep = true → ie = true ∧ seq = afterSleep) ∧ below.length + 1 ≤ p.nestLimit := by
  constructor
  · rintro ⟨htails, hsuspended, hmasked, hsleeping, hnesting⟩
    obtain ⟨hhead, hbelow⟩ := List.forall_mem_cons.1 htails
    refine ⟨hhead, fun f hf => ⟨hbelow f hf, hsuspended f hf⟩, fun hie => hmasked hie _ rfl,
      fun hasleep => ?_, hnesting⟩
    obtain ⟨hie, below', hframes⟩ := hsleeping hasleep
    cases hframes
    exact ⟨hie, rfl⟩
  · rintro ⟨hhead, hbelow, hmasked, hsleeping, hnesting⟩
    refine ⟨List.forall_mem_cons.2 ⟨hhead, fun f hf => (hbelow f hf).1⟩,
      fun f hf => (hbelow f hf).2, fun hie f hf => ?_, fun hasleep => ?_, hnesting⟩
    · cases hf; exact hmasked hie
    · obtain ⟨hie, rfl⟩ := hsleeping hasleep
      exact ⟨hie, below, rfl⟩

/-- Suspended frames may run on unmasked: after a Ret the next of them is the head. -/
theorem contextsOk_of_suspended {p : Params} {frames : List Frame}
    (hframes : ∀ f ∈ frames, f.Suspended p) (hlen : frames.length ≤ p.nestLimit) (ie : Bool) :
    ContextsOk p frames ie false := by
  cases frames with
  | nil => exact contextsOk_nil p ie
  | cons f below =>
    obtain ⟨⟨htail, hopen⟩, hbelow⟩ := List.forall_mem_cons.1 hframes
    exact contextsOk_cons.2 ⟨htail, hbelow, fun _ => hopen, by simp, hlen⟩

/-- With `ie` set, every frame is suspended, the head too. -/
theorem ContextsOk.all_suspended {p : Params} {frames : List Frame} {asleep : Bool}
    (h : ContextsOk p frames true asleep) : ∀ f ∈ frames, f.Suspended p := by
  cases frames with
  | nil => simp
  | cons f below =>
    obtain ⟨htail, hbelow, hmasked, -, -⟩ := contextsOk_cons.1 h
    exact List.forall_mem_cons.2 ⟨⟨htail, hmasked rfl⟩, hbelow⟩

theorem handlerActions_handlerTail (p : Params) (level : Byte) :
    HandlerTail p (handlerActions p level) := by
  unfold handlerActions
  split
  · exact ⟨by simp [onPath], .inl List.suffix_rfl⟩
  · exact ⟨by simp [offPath], .inr List.suffix_rfl⟩

/-- Entry masks, so the frame it pushes need stand at no open point (R125). -/
theorem ContextsOk.enter {p : Params} {frames : List Frame} {asleep : Bool}
    (h : ContextsOk p frames true asleep) (hroom : frames.length + 1 ≤ p.nestLimit)
    (level : Byte) : ContextsOk p (⟨handlerActions p level⟩ :: frames) false false :=
  contextsOk_cons.2
    ⟨handlerActions_handlerTail p level, h.all_suspended, by simp, by simp, hroom⟩

/-! ### An action of the head frame -/

/-- Ret ends the handler's actions; any other action leaves a tail of them. -/
theorem HandlerTail.of_cons {p : Params} {a : Action} {more : List Action}
    (h : HandlerTail p (a :: more)) (ha : a ≠ .ret) : HandlerTail p more := by
  obtain ⟨hret, -, -⟩ := h.places
  obtain ⟨-, hsuffix⟩ := h
  have hcons : more <:+ a :: more := List.suffix_cons a more
  exact ⟨fun hnil => ha (hret.2 hnil), hsuffix.imp hcons.trans hcons.trans⟩

/-- An open point is left by masking, or the next point is open too (log 14). -/
theorem mem_openPoints_of_cons {a : Action} {more : List Action} (h : a :: more ∈ openPoints)
    (ha : ∀ b, a ≠ .ieWrite b) : more ∈ openPoints := by
  simp only [openPoints, sleepActions, afterSleep, List.tail_cons, List.cons_append,
    List.mem_cons, List.cons.injEq, List.not_mem_nil, or_false] at h
  rcases h with ⟨rfl, -⟩ | ⟨-, rfl⟩ | ⟨rfl, -⟩
  · exact absurd rfl (ha false)
  · decide
  · exact absurd rfl (ha false)

/-- What the head frame's action leaves of the frames, the masking and sleep: Ret pops to a suspended
frame, SleepCpu and `IeWrite(1)` stop at their open points, and no other action unmasks. -/
theorem ContextsOk.perform {a : Action} {more : List Action} {below : List Frame} {s t : State}
    (h : ContextsOk s.params (⟨a :: more⟩ :: below) s.ie false) (hawake : s.asleep = false)
    (hframes : s.frames = ⟨more⟩ :: below) (hact : perform a s = .next t) :
    ContextsOk s.params t.frames t.ie t.asleep := by
  obtain ⟨htail, hbelow, hmasked, -, hlen⟩ := contextsOk_cons.1 h
  obtain ⟨-, hsleepCpu, hunmask⟩ := htail.places
  by_cases hret : a = .ret
  · subst hret
    obtain rfl : t = returnFromActivation s := perform_next hact
    rw [returnFromActivation_frames, hframes, returnFromActivation_asleep, hawake]
    exact contextsOk_of_suspended hbelow (Nat.le_of_succ_le hlen) _
  have hmore : HandlerTail s.params more := htail.of_cons hret
  by_cases hsleep : a = .sleepCpu
  · subst hsleep
    obtain rfl : more = afterSleep := hsleepCpu rfl
    rcases perform_next hact with ⟨-, -, rfl⟩ | ⟨-, rfl⟩ <;> simp only [hframes] <;>
      exact contextsOk_cons.2 ⟨hmore, hbelow, fun _ => by decide, by simp, hlen⟩
  by_cases hie : ∃ b, a = .ieWrite b
  · obtain ⟨b, rfl⟩ := hie
    obtain rfl : t = { s with ie := b } := perform_next hact
    simp only [hframes, hawake]
    refine contextsOk_cons.2 ⟨hmore, hbelow, fun hb => ?_, by simp, hlen⟩
    rw [hunmask (by rw [hb])]
    decide
  · have hnotIe : ∀ b, a ≠ .ieWrite b := fun b hb => hie ⟨b, hb⟩
    obtain ⟨hf, hi, hw⟩ := perform_contexts hact hret hsleep hnotIe
    rw [hf, hframes, hi, hw, hawake]
    exact contextsOk_cons.2 ⟨hmore, hbelow,
      fun hset => mem_openPoints_of_cons (hmasked hset) hnotIe, by simp, hlen⟩

/-! ### The invariant, part by part -/

theorem State.Inv.contexts {s : State} (h : s.Inv) :
    ContextsOk s.params s.frames s.ie s.asleep :=
  ⟨h.tails, h.suspended, h.masked, h.sleeping, h.nesting⟩

/-- The invariant of a state whose other parts are known. -/
theorem State.Inv.mk_contexts {s : State} (ram : s.rx.ram.wf = true)
    (held : s.pins.rst.out = false → s.rx.regs.Held)
    (latch : s.params.edgeLatch = false → s.pending = false)
    (contexts : ContextsOk s.params s.frames s.ie s.asleep)
    (mainActions : ∀ a ∈ s.mainSeq, a.isMain = true)
    (mainJobs : ∀ j ∈ s.mainJobs, j.isMain = true) : s.Inv :=
  ⟨ram, held, latch, contexts.tails, contexts.suspended, contexts.masked, contexts.sleeping,
    contexts.nesting, mainActions, mainJobs⟩

/-- Neither the turns nor the button's levels are in the invariant. -/
theorem State.Inv.of_button {s : State} (h : s.Inv) (turns : List Turn) (level prev : Bit) :
    { s with sched := turns, btnIn := level, btnPrev := prev }.Inv :=
  .mk_contexts h.ram h.held h.latch h.contexts h.mainActions h.mainJobs

theorem State.Inv.of_enterActivation {s t : State} (h : s.Inv) (hie : s.ie = true)
    (hentry : enterActivation s = .next t) : t.Inv := by
  obtain ⟨hroom, rfl⟩ := enterActivation_next hentry
  have hcontexts := h.contexts
  rw [hie] at hcontexts
  rw [woken_eq s]
  exact .mk_contexts h.ram h.held (fun _ => rfl) (hcontexts.enter hroom s.level) h.mainActions
    h.mainJobs

theorem State.Inv.of_buttonTurn {b : Bit} {s t : State} (h : s.Inv) (turns : List Turn)
    (hturn : buttonTurn b { s with sched := turns } = .next t) : t.Inv := by
  obtain ⟨prev, rfl | ⟨-, hlatch, rfl⟩ | ⟨-, hie, hentry⟩⟩ := buttonTurn_next hturn
  · exact h.of_button turns b prev
  · have hu := h.of_button turns b prev
    exact .mk_contexts hu.ram hu.held (fun hoff => by rw [hlatch] at hoff; cases hoff)
      hu.contexts hu.mainActions hu.mainJobs
  · exact (h.of_button turns b prev).of_enterActivation hie hentry

/-- An action of the head frame keeps the invariant. -/
theorem State.Inv.of_perform_frame {a : Action} {more : List Action} {below : List Frame}
    {s t : State} (h : s.Inv) (hawake : s.asleep = false)
    (hframes : s.frames = ⟨a :: more⟩ :: below) (turns : List Turn)
    (hact : perform a { s with sched := turns, frames := ⟨more⟩ :: below } = .next t) : t.Inv := by
  obtain ⟨hram, hheld, hpending, hparams, hseq, hjobs⟩ := perform_keeps hact h.ram h.held
  have hcontexts := h.contexts
  rw [hframes, hawake] at hcontexts
  have hafter := hcontexts.perform (s := { s with sched := turns, frames := ⟨more⟩ :: below })
    hawake rfl hact
  rw [← hparams] at hafter
  exact .mk_contexts hram hheld (by rw [hparams, hpending]; exact h.latch) hafter
    (hseq ▸ h.mainActions) (hjobs ▸ h.mainJobs)

/-- An action of the main context, which runs while there is no activation, keeps the invariant. -/
theorem State.Inv.of_perform_main {a : Action} {s t : State} (h : s.Inv) (ha : a.isMain = true)
    (hawake : s.asleep = false) (hframes : s.frames = []) (hact : perform a s = .next t) :
    t.Inv := by
  obtain ⟨hram, hheld, hpending, hparams, hseq, hjobs⟩ := perform_keeps hact h.ram h.held
  obtain ⟨-, hasleep⟩ := perform_isMain_next ha hact
  obtain ⟨-, hsubset⟩ := perform_sameMain hact
  have hnone : t.frames = [] := List.subset_nil.1 (hframes ▸ hsubset)
  refine .mk_contexts hram hheld (by rw [hparams, hpending]; exact h.latch) ?_
    (hseq ▸ h.mainActions) (hjobs ▸ h.mainJobs)
  rw [hnone, hasleep, hawake]
  exact contextsOk_nil _ _

/-- The main context's lists may change to others that hold main actions and main entries only. -/
theorem State.Inv.of_main {s : State} (h : s.Inv) (turns : List Turn) {acts : List Action}
    {jobs : List Job} (requests : List Byte) (hacts : ∀ a ∈ acts, a.isMain = true)
    (hjobs : ∀ j ∈ jobs, j.isMain = true) :
    { s with sched := turns, mainSeq := acts, mainJobs := jobs, requests := requests }.Inv :=
  .mk_contexts h.ram h.held h.latch h.contexts hacts hjobs

theorem State.Inv.of_startMain {s : State} (h : s.Inv) {acts : List Action}
    (hacts : ∀ a ∈ acts, a.isPlain = true) : (startMain acts s).Inv :=
  h.of_main s.sched s.requests
    (List.forall_mem_append.2 ⟨fun a ha => Action.isMain_of_isPlain (hacts a ha), h.mainActions⟩)
    h.mainJobs

/-- Starting a request keeps the invariant: its actions are main actions, and LOOP is a request. -/
theorem State.Inv.of_exec_request {i : Instr} {s t : State} (h : s.Inv)
    (hi : i.isRequest = true) (hexec : exec i s = .next t) : t.Inv := by
  obtain ⟨acts, hacts, rfl | ⟨rfl, rfl⟩⟩ := exec_request_plain hi hexec
  · exact h.of_startMain hacts
  · have hloop : { s with mainJobs := .op .loop :: s.mainJobs }.Inv :=
      h.of_main s.sched s.requests h.mainActions (List.forall_mem_cons.2 ⟨rfl, h.mainJobs⟩)
    exact hloop.of_startMain hacts

/-- A device turn keeps the invariant, whichever context it goes to. -/
theorem State.Inv.of_contextStep {s t : State} {turns : List Turn} (h : s.Inv)
    (hctx : ContextStep s turns t) : t.Inv := by
  rcases hctx.cases with rfl | ⟨hawake, ⟨a, more, below, hframes, hact⟩ | ⟨hframes,
    ⟨a, more, hseq, hact⟩ | ⟨hseq, ⟨a, more, hjobs, hact⟩ | ⟨i, more, hjobs, hop⟩ |
      ⟨i, rest, hjobs, -, hi, hop⟩⟩⟩⟩
  · exact h.of_main turns s.requests h.mainActions h.mainJobs
  · exact h.of_perform_frame hawake hframes turns hact
  · obtain ⟨ha, hmore⟩ := List.forall_mem_cons.1 (hseq ▸ h.mainActions)
    exact (h.of_main turns s.requests hmore h.mainJobs).of_perform_main ha hawake hframes hact
  · obtain ⟨ha, hmore⟩ := List.forall_mem_cons.1 (hjobs ▸ h.mainJobs)
    exact (h.of_main turns s.requests h.mainActions hmore).of_perform_main ha hawake hframes hact
  · obtain ⟨hi, hmore⟩ := List.forall_mem_cons.1 (hjobs ▸ h.mainJobs)
    exact (h.of_main turns s.requests h.mainActions hmore).of_exec_request hi hop
  · exact (h.of_main turns rest h.mainActions h.mainJobs).of_exec_request hi hop

/-- Settles O3: entry pushes above suspended frames, the head frame's action moves from one point of
the handler to the next, and the main context runs and starts main actions only. -/
theorem everyStepKeepsTheInvariant : Obligations.EveryStepKeepsTheInvariant := by
  intro s t h hstep
  rcases step_cases hstep with ⟨-, hie, hentry⟩ | ⟨-, turns, ⟨b, -, hturn⟩ | ⟨-, hctx⟩⟩
  · exact h.of_enterActivation hie hentry
  · exact h.of_buttonTurn turns hturn
  · exact h.of_contextStep hctx

/-- Settles O2: there is no activation, and of the start-up list the boot list takes requests only. -/
theorem resetMeetsTheInvariant : Obligations.ResetMeetsTheInvariant := by
  have hstartup : ∀ i : Instr, i.isStartup = true → i.isRequest = true := by
    intro i hi
    cases i
    case clrall | clrrow | setcur | cmd | dat | char | str => rfl
    all_goals cases hi
  have hjobs : ∀ j ∈ bootList Config.device, j.isMain = true := by
    intro j hj
    simp only [bootList, List.mem_append, List.mem_map, List.mem_filter] at hj
    rcases hj with (hj | ⟨i, ⟨-, hi⟩, rfl⟩) | hj
    · revert j; decide
    · exact hstartup i hi
    · revert j; decide
  exact .mk_contexts rfl (fun _ => powerOnRegs_held) (fun _ => rfl) (contextsOk_nil _ _)
    (by simp [State.reset]) hjobs

end Sys2Proof.Machine

/-! ## Steps of the boot list, of the button and of a latched edge -/

namespace Sys2Proof.Machine

/-- With no action left, the main context's move is its next boot entry (70_reset_and_hazards.md
R139). -/
theorem mainMove_op {s : State} {i : Instr} {more : List Job} (hseq : s.mainSeq = [])
    (hjobs : s.mainJobs = .op i :: more) : mainMove s = .op i { s with mainJobs := more } := by
  simp [mainMove, hseq, hjobs]

theorem mainMove_act {s : State} {a : Action} {more : List Job} (hseq : s.mainSeq = [])
    (hjobs : s.mainJobs = .act a :: more) : mainMove s = .act a { s with mainJobs := more } := by
  simp [mainMove, hseq, hjobs]

/-- Where a request starts, the next move is the main context's. -/
theorem State.AtRequest.nextMove_eq {s : State} (hs : s.AtRequest) : nextMove s = mainMove s :=
  (nextMove_undisturbed hs.toUndisturbed).trans (contextMove_main hs.awake hs.noFrame)

theorem State.AtRequest.step_op {s : State} {i : Instr} {more : List Job} (hs : s.AtRequest)
    (hjobs : s.mainJobs = .op i :: more) : step s = exec i { s with mainJobs := more } := by
  rw [step_eq, hs.nextMove_eq, mainMove_op hs.noAction hjobs]
  rfl

theorem State.AtRequest.step_act {s : State} {a : Action} {more : List Job} (hs : s.AtRequest)
    (hjobs : s.mainJobs = .act a :: more) : step s = perform a { s with mainJobs := more } := by
  rw [step_eq, hs.nextMove_eq, mainMove_act hs.noAction hjobs]
  rfl

/-- Settles O13: the main context's move is the boot list's next entry. -/
theorem stepRunsTheBootList : Obligations.StepRunsTheBootList :=
  fun _ _ hs => ⟨fun _ hjobs => hs.step_op hjobs, fun _ hjobs => hs.step_act hjobs⟩

/-- Settles O38: both are activation entry, which masks and clears the latch. -/
theorem latchedEdgeStartsWhenUnmasked : Obligations.LatchedEdgeStartsWhenUnmasked := by
  intro s hpending hie henabled
  rw [step_of_latched hpending hie]
  refine ⟨(exec_evEdge_of_unmasked henabled hie).symm, fun t hentry => ?_⟩
  obtain ⟨-, rfl⟩ := enterActivation_next hentry
  exact ⟨rfl, rfl⟩

/-- On a button turn with nothing latched, a step is that turn (R107, log 1). -/
theorem step_buttonTurn {s : State} {b : Bit} {more : List Turn}
    (hlatched : (s.pending && s.ie) = false) (hsched : s.sched = .button b :: more) :
    step s = buttonTurn b { s with sched := more } := by
  have hmove : nextMove s = .button b { s with sched := more } := by
    simp [nextMove, hlatched, hsched]
  rw [step_eq, hmove]
  rfl

theorem buttonTurn_of_unconf {s : State} (b : Bit) (hmode : s.btnMode = .unconf) :
    buttonTurn b s = .next { s with btnIn := b } := by
  simp [buttonTurn, buttonQualifies, buttonLevel, hmode]

theorem buttonTurn_of_inPullup {s : State} (b : Bit) (hmode : s.btnMode = .inPullup) :
    buttonTurn b s =
      if edgeQualifies s.params.edgeQualifier s.btnPrev b then
        exec .evEdge { s with btnIn := b, btnPrev := b }
      else .next { s with btnIn := b, btnPrev := b } := by
  simp only [buttonTurn, buttonQualifies, buttonLevel, hmode, if_true, decide_true, Bool.true_and]
  rfl

/-- Settles O15: by the button's configuration; the three qualifiers are the edge detector's test. -/
theorem qualifyingEdgeIsTheEdgeEvent : Obligations.QualifyingEdgeIsTheEdgeEvent := by
  intro s b more hlatched hsched
  rw [step_buttonTurn hlatched hsched]
  refine ⟨fun hmode => buttonTurn_of_unconf b hmode, fun hmode => ?_⟩
  intro t qualifies
  have htest : qualifies ↔ edgeQualifies s.params.edgeQualifier s.btnPrev b = true := by
    simp only [qualifies]
    cases s.params.edgeQualifier <;> simp [edgeQualifies]
  rw [htest, buttonTurn_of_inPullup (s := { s with sched := more }) b hmode]
  exact ⟨fun h => if_pos h, fun h => if_neg h⟩

/-- Settles O26: the renderer reads to the end of the text, and READY is the test that comes first. -/
theorem unterminatedTextFaults : Obligations.UnterminatedTextFaults := by
  intro row col size text s hready hsize hterm hend
  have hread := renderText_error s.params row size text col.toNat 0 hterm hend
  simp only [exec, execStr, if_pos ((sizeOk_iff size).2 hsize), hread, if_pos hready, Nat.zero_add]

end Sys2Proof.Machine

/-! ## The sleep sequence in either context (45_power_interrupt.md R112) -/

namespace Sys2Proof.Machine

/-- Actions called in place are the running context's next steps, whether that is a frame or the main
context (log 17). -/
theorem step_callInPlace {s : State} (hs : s.Undisturbed) (a : Action) (as : List Action) :
    step (callInPlace (a :: as) s) = perform a (callInPlace as s) := by
  unfold callInPlace
  split
  · exact step_frame_action ⟨hs.noTurn, hs.noLatched, hs.awake⟩ rfl
  case h_2 hframes => exact step_main_action ⟨hs.noTurn, hs.noLatched, hs.awake⟩ hframes rfl

/-- The sleep sequence's actions neither read nor write the running context's list. -/
theorem perform_callInPlace {a : Action} (ha : a ∈ sleepActions) (as : List Action) (s : State) :
    perform a (callInPlace as s) = mapNext (callInPlace as) (perform a s) := by
  obtain ⟨_, _, _, _, _, _, _, _, mode, armed, _, _, _, _, _, _, frames, _, _, _⟩ := s
  simp only [sleepActions, List.mem_cons, List.not_mem_nil, or_false] at ha
  rcases ha with rfl | rfl | rfl | rfl | rfl | rfl
  case inr.inr.inr.inl => cases frames <;> cases armed <;> cases mode <;> rfl
  all_goals cases frames <;> rfl

theorem step_sleepAction {s t : State} {a : Action} (hs : s.Undisturbed) (ha : a ∈ sleepActions)
    (as : List Action) (hact : perform a s = .next t) :
    step (callInPlace (a :: as) s) = .next (callInPlace as t) := by
  rw [step_callInPlace hs, perform_callInPlace ha, hact]
  rfl

/-- The state after the sleep sequence's SleepCpu, the running context's own list aside (R112,
R113). -/
def State.asleepArmed (s : State) : State :=
  { s with
    ie := true, sleepMode := .powerDown, se := true, asleep := true
    traceRev := .sleep :: s.traceRev }

/-- The sleep sequence, called in place and undisturbed, runs to its SleepCpu: its own mask keeps a
latched edge from coming between. -/
theorem runs_callInPlace_sleepActions {s : State} (hs : s.Undisturbed) :
    runs 4 (callInPlace sleepActions s) =
      .next (callInPlace [.seWrite false, .ieWrite false] s.asleepArmed) := by
  have hmasked {mode : SleepMode} {se : Bool} :
      { s with ie := false, sleepMode := mode, se := se }.Undisturbed :=
    ⟨hs.noTurn, Bool.and_false _, hs.awake⟩
  rw [sleepActions, runs_succ (step_sleepAction hs (by decide) _ rfl),
    runs_succ (step_sleepAction hmasked (by decide) _ rfl),
    runs_succ (step_sleepAction hmasked (by decide) _ rfl),
    runs_succ (step_sleepAction hmasked (by decide) _ rfl)]
  rfl

/-- Settles O41: SLEEPSEQ calls the sequence in place of the running context's own actions. -/
theorem sleepSequenceSleeps : Obligations.SleepSequenceSleeps := by
  intro s hs
  have hrun := runs_callInPlace_sleepActions hs
  refine ⟨fun f below hframes => ⟨_, rfl, ?_⟩, fun hframes => ⟨_, rfl, ?_⟩⟩
  · rw [hrun]; simp [callInPlace, hframes, State.asleepArmed]
  · rw [hrun]; simp [callInPlace, hframes, startMain, State.asleepArmed]

end Sys2Proof.Machine

/-! ## Samples and bytes at the receiver (20_memory.md R59) -/

namespace Sys2Proof.Machine

/-- The shift register after one more bit. -/
def shiftIn (shift : Byte) (v : Bit) : Byte := shift.extractLsb' 0 7 ++ BitVec.ofBool v

@[simp] theorem shiftIn_getElem (shift : Byte) (v : Bit) {k : Nat} (hk : k < 8) :
    (shiftIn shift v)[k] = if k = 0 then v else shift[k - 1] := by
  rw [← BitVec.getLsbD_eq_getElem, shiftIn, BitVec.getLsbD_append]
  by_cases h : k = 0
  · simp [h]
  · simp only [h, show ¬ k < 1 by omega, show k - 1 < 7 by omega, BitVec.getLsbD_extractLsb',
      decide_true, Bool.true_and, Nat.zero_add, if_false]
    exact BitVec.getLsbD_eq_getElem _

/-- Eight bits, bit 7 first, push out whatever the shift register held. -/
theorem foldl_shiftIn_msbFirst (b shift : Byte) : (msbFirst b).foldl shiftIn shift = b := by
  ext k hk
  interval_cases k <;> simp [msbFirst]

theorem Receiver.sample_of_lt {rx : Receiver} (c : Bool) (v : Bit)
    (h : rx.regs.count.val + 1 < 8) :
    rx.sample c v = { rx with regs := { rx.regs with
      shift := shiftIn rx.regs.shift v, count := ⟨rx.regs.count.val + 1, h⟩ } } :=
  dif_pos h

/-- The eighth sample completes the byte. -/
theorem Receiver.sample_eighth {rx : Receiver} (c : Bool) (v : Bit) (h : rx.regs.count = 7) :
    rx.sample c v = Receiver.take c (shiftIn rx.regs.shift v) { rx with regs := { rx.regs with
      shift := shiftIn rx.regs.shift v, count := 0 } } :=
  dif_neg (by rw [h]; decide)

/-- Samples that complete no byte are shifted in and counted. -/
theorem Receiver.foldl_sample (c : Bool) (bits : List Bit) {rx : Receiver}
    (h : rx.regs.count.val + bits.length < 8) :
    bits.foldl (fun r v => r.sample c v) rx = { rx with regs := { rx.regs with
      shift := bits.foldl shiftIn rx.regs.shift, count := ⟨rx.regs.count.val + bits.length, h⟩ } } := by
  induction bits generalizing rx with
  | nil => rfl
  | cons v bits ih =>
    rw [List.length_cons] at h
    rw [List.foldl_cons, sample_of_lt c v (by omega), ih (by dsimp only; omega)]
    simp only [List.foldl_cons, List.length_cons, Nat.add_assoc, Nat.add_comm 1]

/-- At a byte boundary, eight samples are the taking of their byte. -/
theorem Receiver.receiveByte_of_count_zero {rx : Receiver} (c : Bool) (b : Byte)
    (h : rx.regs.count = 0) :
    rx.receiveByte c b = Receiver.take c b { rx with regs := { rx.regs with shift := b } } := by
  have hshift := foldl_shiftIn_msbFirst b rx.regs.shift
  rw [msbFirst_snoc, List.foldl_append] at hshift
  have hseven := Receiver.foldl_sample c [b.getLsbD 7, b.getLsbD 6, b.getLsbD 5, b.getLsbD 4,
    b.getLsbD 3, b.getLsbD 2, b.getLsbD 1] (rx := rx) (by simp [h])
  rw [Receiver.receiveByte, msbFirst_snoc, List.foldl_append, hseven, List.foldl_cons,
    List.foldl_nil, Receiver.sample_eighth c _ (by simp [h])]
  simp only [List.foldl_cons, List.foldl_nil] at hshift ⊢
  rw [hshift, ← h]

/-- Settles O46: seven samples shift in, and the eighth completes the byte. -/
theorem eightSamplesMakeAByte : Obligations.EightSamplesMakeAByte :=
  fun c b _ h => Receiver.receiveByte_of_count_zero c b h

end Sys2Proof.Machine

/-! ## The receiver's commands and data (20_memory.md R60, R61) -/

namespace Sys2Proof.Machine

/-! ### Which pattern a command byte has -/

/-- A byte with bit 7 set has no other command's pattern. -/
theorem patterns_of_bit_seven : ∀ b : Byte, b.getLsbD 7 = true →
    b ≠ 0 ∧ b.extractLsb' 3 5 ≠ 0b00100#5 ∧ b.extractLsb' 3 5 ≠ 0b00010#5 ∧
      b.extractLsb' 2 6 ≠ 0b000001#6 ∧ b.extractLsb' 3 5 ≠ 0b01000#5 ∧ b &&& 0xFA ≠ 0x08 := by
  decide

theorem patterns_of_functionSet : ∀ b : Byte, b.extractLsb' 3 5 = 0b00100#5 → b ≠ 0 := by
  decide

theorem patterns_of_bias : ∀ b : Byte, b.extractLsb' 3 5 = 0b00010#5 →
    b ≠ 0 ∧ b.extractLsb' 3 5 ≠ 0b00100#5 ∧ b.extractLsb' 2 6 ≠ 0b000001#6 := by
  decide

theorem patterns_of_temperature : ∀ b : Byte, b.extractLsb' 2 6 = 0b000001#6 →
    b ≠ 0 ∧ b.extractLsb' 3 5 ≠ 0b00100#5 := by
  decide

theorem patterns_of_row : ∀ b : Byte, b.extractLsb' 3 5 = 0b01000#5 →
    b ≠ 0 ∧ b.extractLsb' 3 5 ≠ 0b00100#5 ∧ b &&& 0xFA ≠ 0x08 := by
  decide

theorem patterns_of_mode : ∀ b : Byte, b &&& 0xFA = 0x08 →
    b ≠ 0 ∧ b.extractLsb' 3 5 ≠ 0b00100#5 := by
  decide

/-- The four display-control bytes (R61). -/
theorem mode_pattern_iff : ∀ b : Byte,
    b &&& 0xFA = 0x08 ↔ b = 0x08 ∨ b = 0x09 ∨ b = 0x0C ∨ b = 0x0D := by
  decide

namespace Receiver

variable {rx : Receiver} {b : Byte}

theorem setX_of_lt {v : BitVec 7} (h : v.toNat < 84) :
    rx.setX v = { rx with regs := { rx.regs with x := ⟨v.toNat, h⟩ } } := dif_pos h

theorem setX_of_reserved {v : BitVec 7} (h : 84 ≤ v.toNat) : rx.setX v = rx.unknown :=
  dif_neg (Nat.not_lt.2 h)

theorem setY_of_lt {v : BitVec 3} (h : v.toNat < 6) :
    rx.setY v = { rx with regs := { rx.regs with y := ⟨v.toNat, h⟩ } } := dif_pos h

theorem setY_of_reserved {v : BitVec 3} (h : 6 ≤ v.toNat) : rx.setY v = rx.unknown :=
  dif_neg (Nat.not_lt.2 h)

/-! ### Both sets -/

theorem command_zero : rx.command 0 = rx := if_pos rfl

theorem command_functionSet (h : b.extractLsb' 3 5 = 0b00100#5) :
    rx.command b = { rx with regs := { rx.regs with
      powerDown := b.getLsbD 2, vertical := b.getLsbD 1, extended := b.getLsbD 0 } } := by
  rw [command, if_neg (patterns_of_functionSet b h), if_pos h]

theorem command_eq_extended (hext : rx.regs.extended = true) (hzero : b ≠ 0)
    (hset : b.extractLsb' 3 5 ≠ 0b00100#5) : rx.command b = rx.extendedCommand b := by
  rw [command, if_neg hzero, if_neg hset, if_pos hext]

theorem command_eq_normal (hnorm : rx.regs.extended = false) (hzero : b ≠ 0)
    (hset : b.extractLsb' 3 5 ≠ 0b00100#5) : rx.command b = rx.normalCommand b := by
  rw [command, if_neg hzero, if_neg hset, if_neg (by simp [hnorm])]

/-! ### The extended set -/

theorem command_vop (hext : rx.regs.extended = true) (h : b.getLsbD 7 = true) :
    rx.command b = { rx with regs := { rx.regs with vop := b.setWidth 7 } } := by
  obtain ⟨hzero, hset, hbias, htc, -, -⟩ := patterns_of_bit_seven b h
  rw [command_eq_extended hext hzero hset, extendedCommand, if_neg htc, if_neg hbias, if_pos h]

theorem command_bias (hext : rx.regs.extended = true) (h : b.extractLsb' 3 5 = 0b00010#5) :
    rx.command b = { rx with regs := { rx.regs with bias := b.setWidth 3 } } := by
  obtain ⟨hzero, hset, htc⟩ := patterns_of_bias b h
  rw [command_eq_extended hext hzero hset, extendedCommand, if_neg htc, if_pos h]

theorem command_temperature (hext : rx.regs.extended = true)
    (h : b.extractLsb' 2 6 = 0b000001#6) :
    rx.command b = { rx with regs := { rx.regs with tc := b.setWidth 2 } } := by
  obtain ⟨hzero, hset⟩ := patterns_of_temperature b h
  rw [command_eq_extended hext hzero hset, extendedCommand, if_pos h]

theorem command_extended_reserved (hext : rx.regs.extended = true) (hzero : b ≠ 0)
    (hset : b.extractLsb' 3 5 ≠ 0b00100#5) (hvop : b.getLsbD 7 = false)
    (hbias : b.extractLsb' 3 5 ≠ 0b00010#5) (htc : b.extractLsb' 2 6 ≠ 0b000001#6) :
    rx.command b = rx.unknown := by
  rw [command_eq_extended hext hzero hset, extendedCommand, if_neg htc, if_neg hbias,
    if_neg (Bool.eq_false_iff.1 hvop)]

/-! ### The normal set -/

theorem command_column (hnorm : rx.regs.extended = false) (h : b.getLsbD 7 = true) :
    rx.command b = rx.setX (b.setWidth 7) := by
  obtain ⟨hzero, hset, -, -, hrow, hmode⟩ := patterns_of_bit_seven b h
  rw [command_eq_normal hnorm hzero hset, normalCommand, if_neg hmode, if_neg hrow, if_pos h]

theorem command_row (hnorm : rx.regs.extended = false) (h : b.extractLsb' 3 5 = 0b01000#5) :
    rx.command b = rx.setY (b.setWidth 3) := by
  obtain ⟨hzero, hset, hmode⟩ := patterns_of_row b h
  rw [command_eq_normal hnorm hzero hset, normalCommand, if_neg hmode, if_pos h]

theorem command_mode (hnorm : rx.regs.extended = false) (h : b &&& 0xFA = 0x08) :
    rx.command b = { rx with regs := { rx.regs with
      mode := modeOfBits (b.getLsbD 2) (b.getLsbD 0) } } := by
  obtain ⟨hzero, hset⟩ := patterns_of_mode b h
  rw [command_eq_normal hnorm hzero hset, normalCommand, if_pos h]

/-- In the normal set a byte outside the table, or one with a reserved column or row, leaves the
receiver unknown (log 4). -/
theorem command_normal_reserved (hnorm : rx.regs.extended = false) (hzero : b ≠ 0)
    (hset : b.extractLsb' 3 5 ≠ 0b00100#5)
    (hcolumn : b.getLsbD 7 = true → 84 ≤ (b.setWidth 7).toNat)
    (hrow : b.extractLsb' 3 5 = 0b01000#5 → 6 ≤ (b.setWidth 3).toNat)
    (hmode : b &&& 0xFA ≠ 0x08) : rx.command b = rx.unknown := by
  by_cases h7 : b.getLsbD 7 = true
  · rw [command_column hnorm h7, setX_of_reserved (hcolumn h7)]
  by_cases hy : b.extractLsb' 3 5 = 0b01000#5
  · rw [command_row hnorm hy, setY_of_reserved (hrow hy)]
  · rw [command_eq_normal hnorm hzero hset, normalCommand, if_neg hmode, if_neg hy, if_neg h7]

end Receiver

/-! ### Wire words as what the receiver does -/

theorem receiveWord_of_low {s : State} (c : Bool) (b : Byte) (h : s.pins.rst.out = false) :
    receiveWord c b s = s := if_neg (by simp [h])

theorem receiveWord_of_high {s : State} (c : Bool) (b : Byte) (h : s.pins.rst.out = true) :
    receiveWord c b s = { s with rx := s.rx.take c b } := if_pos h

/-- With RST high a command word's effect is the receiver's. -/
theorem receiveWord_command {s : State} {b : Byte} {rx : Receiver}
    (h : s.pins.rst.out = true) (hrx : s.rx.command b = rx) :
    (.next (receiveWord true b s) : Result) = .next { s with rx := rx } := by
  rw [receiveWord_of_high true b h, ← hrx]
  rfl

theorem setX_byte : ∀ x : BitVec 7, (0x80 ||| x.setWidth 8 : Byte).getLsbD 7 = true ∧
    (0x80 ||| x.setWidth 8 : Byte).setWidth 7 = x := by
  decide

theorem setY_byte : ∀ y : BitVec 3, (0x40 ||| y.setWidth 8 : Byte).extractLsb' 3 5 = 0b01000#5 ∧
    (0x40 ||| y.setWidth 8 : Byte).extractLsb' 2 6 ≠ 0b000001#6 ∧
    (0x40 ||| y.setWidth 8 : Byte).getLsbD 7 = false ∧
    (0x40 ||| y.setWidth 8 : Byte).setWidth 3 = y := by
  decide

/-- In the extended set SET_Y's byte is reserved. -/
theorem Receiver.command_setY_extended {rx : Receiver} (hext : rx.regs.extended = true)
    (y : BitVec 3) : rx.command (0x40 ||| y.setWidth 8) = rx.unknown := by
  obtain ⟨hrow, htc, hvop, -⟩ := setY_byte y
  obtain ⟨hzero, hset, -⟩ := patterns_of_row _ hrow
  exact command_extended_reserved hext hzero hset hvop (by rw [hrow]; decide) htc

theorem Receiver.command_setX {rx : Receiver} (hnorm : rx.regs.extended = false) (x : BitVec 7) :
    rx.command (0x80 ||| x.setWidth 8) = rx.setX x := by
  obtain ⟨h7, hx⟩ := setX_byte x
  rw [command_column hnorm h7, hx]

theorem Receiver.command_setY {rx : Receiver} (hnorm : rx.regs.extended = false) (y : BitVec 3) :
    rx.command (0x40 ||| y.setWidth 8) = rx.setY y := by
  obtain ⟨hrow, -, -, hy⟩ := setY_byte y
  rw [command_row hnorm hrow, hy]

/-- Settles O47: SET_X's byte is a Vop byte in the extended set, SET_Y's a reserved one; in the normal
set they are the column and the row. -/
theorem cursorWordsMoveTheCursor : Obligations.CursorWordsMoveTheCursor := by
  intro s
  constructor
  · intro x
    obtain ⟨h7, hx⟩ := setX_byte x
    refine ⟨fun hlow => congrArg _ (receiveWord_of_low true _ hlow), fun hhigh hext => ?_,
      fun hhigh hnorm => ⟨fun hlt => ?_, fun hres => ?_⟩⟩
    · exact receiveWord_command hhigh (by rw [Receiver.command_vop hext h7, hx])
    · exact receiveWord_command hhigh
        ((Receiver.command_setX hnorm x).trans (Receiver.setX_of_lt hlt))
    · exact receiveWord_command hhigh
        ((Receiver.command_setX hnorm x).trans (Receiver.setX_of_reserved hres))
  · intro y
    refine ⟨fun hlow => congrArg _ (receiveWord_of_low true _ hlow), fun hhigh hext => ?_,
      fun hhigh hnorm => ⟨fun hlt => ?_, fun hres => ?_⟩⟩
    · exact receiveWord_command hhigh (Receiver.command_setY_extended hext y)
    · exact receiveWord_command hhigh
        ((Receiver.command_setY hnorm y).trans (Receiver.setY_of_lt hlt))
    · exact receiveWord_command hhigh
        ((Receiver.command_setY hnorm y).trans (Receiver.setY_of_reserved hres))

/-- Settles O48: 0x21 and 0x20 are function sets, 0x0C a display control of the normal set and of no
pattern in the extended one. -/
theorem modeWordsSetTheModes : Obligations.ModeWordsSetTheModes := by
  intro s
  have hheld (hlow : s.pins.rst.out = false) (b : Byte) :
      (.next (receiveWord true b s) : Result) = .next s :=
    congrArg _ (receiveWord_of_low true b hlow)
  refine ⟨fun hlow => ⟨hheld hlow _, hheld hlow _, hheld hlow _⟩, fun hhigh => ⟨?_, ?_,
    fun hnorm => ?_, fun hext => ?_⟩⟩
  · exact receiveWord_command hhigh (Receiver.command_functionSet (by decide))
  · exact receiveWord_command hhigh (Receiver.command_functionSet (by decide))
  · exact receiveWord_command hhigh (Receiver.command_mode hnorm (by decide))
  · exact receiveWord_command hhigh (Receiver.command_extended_reserved hext (by decide)
      (by decide) (by decide) (by decide) (by decide))

/-- The column of a byte with bit 7 set, and the row of a row byte, as numbers. -/
theorem column_toNat : ∀ b : Byte, b.getLsbD 7 = true → (b.setWidth 7).toNat = b.toNat - 128 := by
  decide

theorem row_toNat : ∀ b : Byte, b.extractLsb' 3 5 = 0b01000#5 →
    (b.setWidth 3).toNat = b.toNat - 64 := by
  decide

theorem Receiver.command_column_of_lt {rx : Receiver} {b : Byte}
    (hnorm : rx.regs.extended = false) (h7 : b.getLsbD 7 = true) (hlt : b.toNat - 128 < 84) :
    rx.command b = { rx with regs := { rx.regs with x := ⟨b.toNat - 128, hlt⟩ } } := by
  have hcol := column_toNat b h7
  rw [command_column hnorm h7, setX_of_lt (by rw [hcol]; exact hlt)]
  simp only [hcol]

theorem Receiver.command_row_of_lt {rx : Receiver} {b : Byte}
    (hnorm : rx.regs.extended = false) (hy : b.extractLsb' 3 5 = 0b01000#5)
    (hlt : b.toNat - 64 < 6) :
    rx.command b = { rx with regs := { rx.regs with y := ⟨b.toNat - 64, hlt⟩ } } := by
  have hrow := row_toNat b hy
  rw [command_row hnorm hy, setY_of_lt (by rw [hrow]; exact hlt)]
  simp only [hrow]

/-- Settles O49: pattern by pattern, in the set the receiver is in. -/
theorem contrastWordsSetVopBiasTc : Obligations.ContrastWordsSetVopBiasTc := by
  intro s b
  refine ⟨fun hlow => congrArg _ (receiveWord_of_low true b hlow), fun hhigh => ?_⟩
  have effect {rx : Receiver} (hrx : s.rx.command b = rx) :
      exec (.contrastBias b) s = .next { s with rx := rx } := receiveWord_command hhigh hrx
  refine ⟨fun hzero => effect (hzero ▸ Receiver.command_zero),
    fun hset => effect (Receiver.command_functionSet hset),
    fun hext => ⟨fun h7 => effect (Receiver.command_vop hext h7),
      fun hbias => effect (Receiver.command_bias hext hbias),
      fun htc => effect (Receiver.command_temperature hext htc),
      fun hzero hset hvop hbias htc =>
        effect (Receiver.command_extended_reserved hext hzero hset hvop hbias htc)⟩,
    fun hnorm => ⟨fun ⟨h7, hlt⟩ => effect (Receiver.command_column_of_lt hnorm h7 hlt),
      fun ⟨hy, hlt⟩ => effect (Receiver.command_row_of_lt hnorm hy hlt), ?_, ?_, ?_, ?_, ?_⟩⟩
  iterate 4
    · rintro rfl
      exact effect (Receiver.command_mode hnorm (by decide))
  · intro hzero hset hcolumn hrow hblank hallOn hnormal hinverse
    refine effect (Receiver.command_normal_reserved hnorm hzero hset
      (fun h7 => column_toNat b h7 ▸ hcolumn h7) (fun hy => row_toNat b hy ▸ hrow hy) ?_)
    rw [Ne, mode_pattern_iff]
    simp only [not_or]
    exact ⟨hblank, hallOn, hnormal, hinverse⟩

/-! ### DATA (R60) -/

theorem nextX_val (x : Fin 84) : (nextX x).val = (x.val + 1) % 84 := by
  unfold nextX
  split
  · exact (Nat.mod_eq_of_lt ‹_›).symm
  · have := x.isLt
    rw [show x.val + 1 = 84 by omega]
    rfl

theorem nextY_val (y : Fin 6) : (nextY y).val = (y.val + 1) % 6 := by
  unfold nextY
  split
  · exact (Nat.mod_eq_of_lt ‹_›).symm
  · have := y.isLt
    rw [show y.val + 1 = 6 by omega]
    rfl

/-- Horizontal addressing: one column on, carrying into the next row. -/
theorem advanceCursor_horizontal {r : RxRegs} (h : r.vertical = false) :
    (advanceCursor r).x.val = (r.x.val + 1) % 84 ∧
      (advanceCursor r).y.val = (r.y.val + (r.x.val + 1) / 84) % 6 := by
  have hx := r.x.isLt
  have hy := r.y.isLt
  rw [advanceCursor, if_neg (by simp [h])]
  split
  case isTrue hwrap => simp [hwrap, nextY_val]
  case isFalse =>
    refine ⟨nextX_val r.x, ?_⟩
    show r.y.val = _
    rw [Nat.div_eq_of_lt (by omega), Nat.add_zero, Nat.mod_eq_of_lt hy]

/-- Vertical addressing: one row on, carrying into the next column. -/
theorem advanceCursor_vertical {r : RxRegs} (h : r.vertical = true) :
    (advanceCursor r).y.val = (r.y.val + 1) % 6 ∧
      (advanceCursor r).x.val = (r.x.val + (r.y.val + 1) / 6) % 84 := by
  have hx := r.x.isLt
  have hy := r.y.isLt
  rw [advanceCursor, if_pos h]
  split
  case isTrue hwrap => simp [hwrap, nextX_val]
  case isFalse =>
    refine ⟨nextY_val r.y, ?_⟩
    show r.x.val = _
    rw [Nat.div_eq_of_lt (by omega), Nat.add_zero, Nat.mod_eq_of_lt hx]

/-- Advancing the cursor changes only the cursor. -/
theorem advanceCursor_frame (r : RxRegs) :
    { advanceCursor r with x := r.x, y := r.y } = r := by
  unfold advanceCursor
  repeat' split
  all_goals rfl

/-- Settles O50: the write is to the cursor's cell, and the advance is by the addressing mode. -/
theorem dataWordWritesTheCell : Obligations.DataWordWritesTheCell := by
  intro s b
  refine ⟨fun hlow => congrArg _ (receiveWord_of_low false b hlow), fun hhigh =>
    ⟨{ s with rx := s.rx.data b }, congrArg _ (receiveWord_of_high false b hhigh),
      Memory.read_write_same _ _ _, fun a ha => Memory.read_write_other _ _ ha,
      advanceCursor_horizontal, advanceCursor_vertical, ?_⟩⟩
  have hregs := advanceCursor_frame s.rx.regs
  simp only [Receiver.data, hregs]

/-! ## Wire words on the lines (30_encoding.md R64) -/

/-- Settles O7: the words by computation; a well-formed row's word decodes past the rows before
it. -/
theorem wireWordsRoundTrip : Obligations.WireWordsRoundTrip := by
  refine ⟨by decide, fun i hwire hwf => ?_⟩
  cases i
  case setX x => exact ⟨_, rfl, by revert x; decide⟩
  case setY y => exact ⟨_, rfl, by revert y; decide⟩
  case fsetExt | fsetNorm | dispNormal => exact ⟨_, rfl, by decide⟩
  case contrastBias b => exact ⟨_, rfl, by revert b; decide⟩
  case data p => exact ⟨_, rfl, by revert p; decide⟩
  all_goals cases hwire

/-- Settles O14: the eighth sample takes the byte under the select level on DC, which is what the wire
word's instruction does. -/
theorem eighthClockEdgeRunsTheWireWord : Obligations.EighthClockEdgeRunsTheWireWord := by
  intro s more hs hframes hseq hsclk hrst hcount b d
  have hd : d = if s.selectsCommand then 0 else 1 := by simp [d, State.selectsCommand]
  have hmode : (s.pins.get .sclk).mode = .out := by rw [Pins.get, hsclk]
  rw [step_main_action hs hframes hseq, perform_pinWrite (s := { s with mainSeq := more }) hmode,
    hd, exec_decodeWire]
  have hsample : s.rx.sample s.selectsCommand s.pins.sdin.out =
      Receiver.take s.selectsCommand b { s.rx with
        regs := { s.rx.regs with shift := b, count := 0 } } := Receiver.sample_eighth _ _ hcount
  refine congrArg _ (Eq.trans ?_ (receiveWord_of_high _ _ ?_).symm)
  case refine_2 => exact hrst
  simp only [← hsample]
  simp [State.drive, State.rxAfterWrite, Pins.drive, Pins.set, Pins.get, hsclk, hrst,
    State.selectsCommand]

end Sys2Proof.Machine

/-! ## Wire words at the receiver, RST high (20_memory.md R59, R64) -/

namespace Sys2Proof.Machine

/-- The receiver after wire words in turn, each a whole byte under its select level. -/
def Receiver.receiveWords (p : Params) (ws : List WireWord) (rx : Receiver) : Receiver :=
  ws.foldl (fun r w => r.receiveByte (w.1 == p.dcCmdLevel) w.2) rx

theorem Receiver.receiveWords_cons (p : Params) (w : WireWord) (ws : List WireWord)
    (rx : Receiver) : rx.receiveWords p (w :: ws) =
      (rx.receiveByte (w.1 == p.dcCmdLevel) w.2).receiveWords p ws :=
  List.foldl_cons ..

theorem Receiver.receiveWords_append (p : Params) (ws vs : List WireWord) (rx : Receiver) :
    rx.receiveWords p (ws ++ vs) = (rx.receiveWords p ws).receiveWords p vs :=
  List.foldl_append

theorem afterWord_rx (w : WireWord) {s : State} (hrst : s.pins.rst.out = true) :
    (s.afterWord w).rx = s.rx.receiveByte (w.1 == s.params.dcCmdLevel) w.2 := by
  unfold State.afterWord State.afterByte
  exact if_pos hrst

theorem afterWords_rx (ws : List WireWord) {s : State} (hrst : s.pins.rst.out = true) :
    (s.afterWords ws).rx = s.rx.receiveWords s.params ws := by
  induction ws generalizing s with
  | nil => rfl
  | cons w ws ih =>
    have hrst' : (s.afterWord w).pins.rst.out = true := hrst
    have hparams : (s.afterWord w).params = s.params := rfl
    rw [State.afterWords, List.foldl_cons, ← State.afterWords, ih hrst', afterWord_rx w hrst,
      hparams, Receiver.receiveWords_cons]

theorem receiveWords_commands (p : Params) (bs : List Byte) (rx : Receiver) :
    rx.receiveWords p (bs.map (commandWord p)) = bs.foldl (fun r b => r.receiveByte true b) rx := by
  simp [Receiver.receiveWords, List.foldl_map, commandWord]

theorem receiveWords_data (p : Params) (bs : List Byte) (rx : Receiver) :
    rx.receiveWords p (bs.map (dataWord p)) = bs.foldl (fun r b => r.receiveByte false b) rx := by
  simp [Receiver.receiveWords, List.foldl_map, dataWord]

/-! ### Cursor words, then data, in the normal set (R60, R61) -/

/-- At a byte boundary, in the normal set, with horizontal addressing. -/
structure Receiver.ReadyToDraw (rx : Receiver) : Prop where
  boundary : rx.regs.count = 0
  normal : rx.regs.extended = false
  horizontal : rx.regs.vertical = false

/-- The address of the cell at the cursor. -/
def RxRegs.cursor (r : RxRegs) : Nat := cellAddr r.y r.x

/-- At a byte boundary a command byte's samples are the command. -/
theorem Receiver.receiveByte_command {rx : Receiver} (h : rx.regs.count = 0) (b : Byte) :
    rx.receiveByte true b = { rx with regs := { rx.regs with shift := b } }.command b :=
  receiveByte_of_count_zero true b h

theorem Receiver.receiveByte_setX {rx : Receiver} (h : rx.ReadyToDraw) {x : BitVec 7}
    (hx : x.toNat < 84) : rx.receiveByte true (0x80 ||| x.setWidth 8) =
      { rx with regs := { rx.regs with
        shift := 0x80 ||| x.setWidth 8, x := ⟨x.toNat, hx⟩ } } := by
  rw [receiveByte_command h.boundary, command_setX, setX_of_lt hx]
  exact h.normal

theorem Receiver.receiveByte_setY {rx : Receiver} (h : rx.ReadyToDraw) {y : BitVec 3}
    (hy : y.toNat < 6) : rx.receiveByte true (0x40 ||| y.setWidth 8) =
      { rx with regs := { rx.regs with
        shift := 0x40 ||| y.setWidth 8, y := ⟨y.toNat, hy⟩ } } := by
  rw [receiveByte_command h.boundary, command_setY, setY_of_lt hy]
  exact h.normal

/-- SET_Y's byte as the encoding of a row. -/
theorem setY_byte_eq {row : Nat} (h : row < 6) :
    (0x40 ||| BitVec.ofNat 8 row : Byte) = 0x40 ||| (BitVec.ofNat 3 row).setWidth 8 := by
  interval_cases row <;> rfl

/-- The cursor words of `(row, 0)` put the cursor at the start of row `row mod 6` (R83). -/
theorem Receiver.receiveWords_cursor {rx : Receiver} (p : Params) (h : rx.ReadyToDraw)
    (row : Byte) : (rx.receiveWords p (cursorWords p row 0)).ReadyToDraw ∧
      (rx.receiveWords p (cursorWords p row 0)).regs.cursor = row.toNat % 6 * 84 ∧
      (rx.receiveWords p (cursorWords p row 0)).ram = rx.ram := by
  have hrow : row.toNat % 6 < 6 := Nat.mod_lt _ (by decide)
  have hy : (BitVec.ofNat 3 (row.toNat % 6)).toNat = row.toNat % 6 := by
    rw [BitVec.toNat_ofNat]; omega
  have hwords : cursorWords p row 0 = [0x80 ||| (0 : BitVec 7).setWidth 8,
      0x40 ||| (BitVec.ofNat 3 (row.toNat % 6)).setWidth 8].map (commandWord p) := by
    rw [← setY_byte_eq hrow]
    rfl
  rw [hwords, receiveWords_commands, List.foldl_cons, List.foldl_cons, List.foldl_nil,
    receiveByte_setX h (by decide),
    receiveByte_setY (by exact ⟨h.boundary, h.normal, h.horizontal⟩) (by rw [hy]; exact hrow)]
  exact ⟨⟨h.boundary, h.normal, h.horizontal⟩, by simp [RxRegs.cursor, cellAddr, hy], rfl⟩

/-- Horizontal addressing runs through the addresses in order, and round. -/
theorem advanceCursor_cursor {r : RxRegs} (h : r.vertical = false) :
    (advanceCursor r).cursor = (r.cursor + 1) % 504 := by
  obtain ⟨hx, hy⟩ := advanceCursor_horizontal h
  have := r.x.isLt
  have := r.y.isLt
  simp only [RxRegs.cursor, cellAddr, hx, hy]
  omega

theorem Receiver.receiveByte_data {rx : Receiver} (h : rx.ReadyToDraw) (b : Byte) :
    (rx.receiveByte false b).ReadyToDraw ∧
      (rx.receiveByte false b).regs.cursor = (rx.regs.cursor + 1) % 504 ∧
      (rx.receiveByte false b).ram = rx.ram.write rx.regs.cursor b := by
  rw [receiveByte_of_count_zero false b h.boundary]
  have hframe := advanceCursor_frame { rx.regs with shift := b }
  have hcursor : (advanceCursor { rx.regs with shift := b }).cursor = (rx.regs.cursor + 1) % 504 :=
    advanceCursor_cursor h.horizontal
  refine ⟨⟨?_, ?_, ?_⟩, hcursor, rfl⟩
  · exact (congrArg RxRegs.count hframe).trans h.boundary
  · exact (congrArg RxRegs.extended hframe).trans h.normal
  · exact (congrArg RxRegs.vertical hframe).trans h.horizontal

/-- Data bytes of one value fill the cells from the cursor on, up to the display's last cell. -/
theorem Receiver.foldl_data {rx : Receiver} (h : rx.ReadyToDraw) (b : Byte) (n : Nat)
    (hn : rx.regs.cursor + n ≤ 504) :
    let filled := (List.replicate n b).foldl (fun r v => r.receiveByte false v) rx
    filled.ReadyToDraw ∧ filled.regs.cursor = (rx.regs.cursor + n) % 504 ∧
      ∀ a, filled.ram.read a =
        if rx.regs.cursor ≤ a ∧ a < rx.regs.cursor + n then some b else rx.ram.read a := by
  induction n with
  | zero =>
    have hcell : rx.regs.cursor < 504 := cellAddr_lt _ _
    exact ⟨h, (Nat.mod_eq_of_lt hcell).symm, fun a => (if_neg (by omega)).symm⟩
  | succ n ih =>
    obtain ⟨hready, hcursor, hread⟩ := ih (by omega)
    rw [Nat.mod_eq_of_lt (by omega)] at hcursor
    rw [List.replicate_succ', List.foldl_append, List.foldl_cons, List.foldl_nil]
    obtain ⟨hready', hcursor', hram⟩ := receiveByte_data hready b
    refine ⟨hready', by rw [hcursor', hcursor, Nat.add_assoc], fun a => ?_⟩
    rw [hram, hcursor]
    by_cases ha : a = rx.regs.cursor + n
    · subst ha
      rw [Memory.read_write_same, if_pos (by omega)]
    · rw [Memory.read_write_other _ _ ha, hread]
      exact if_congr (by omega) rfl rfl

/-! ### The clears (41_display_channel.md R84, R85) -/

/-- A clear's words put the cursor at the start of row `row mod 6` and fill `n` cells with 0. -/
theorem afterWords_clear {s : State} (hrst : s.pins.rst.out = true) (h : s.rx.ReadyToDraw)
    (row : Byte) (n : Nat) (hn : row.toNat % 6 * 84 + n ≤ 504) :
    let u := s.afterWords (cursorWords s.params row 0 ++ List.replicate n (dataWord s.params 0))
    u.rx.regs.cursor = (row.toNat % 6 * 84 + n) % 504 ∧
      ∀ a, u.rx.ram.read a =
        if row.toNat % 6 * 84 ≤ a ∧ a < row.toNat % 6 * 84 + n then some 0
        else s.rx.ram.read a := by
  obtain ⟨hready, hcursor, hram⟩ := Receiver.receiveWords_cursor s.params h row
  obtain ⟨-, hend, hread⟩ := Receiver.foldl_data hready 0 n (by omega)
  have hrx : s.rx.receiveWords s.params
      (cursorWords s.params row 0 ++ List.replicate n (dataWord s.params 0)) =
        (List.replicate n (0 : Byte)).foldl (fun r v => r.receiveByte false v)
          (s.rx.receiveWords s.params (cursorWords s.params row 0)) := by
    rw [Receiver.receiveWords_append, ← List.map_replicate, receiveWords_data]
  intro u
  simp only [u, afterWords_rx _ hrst, hrx, hend, hread, hcursor, hram, and_self, implies_true]

/-- The cursor's address says its row and column. -/
theorem RxRegs.div_mod_of_cursor {r : RxRegs} {a : Nat} (h : r.cursor = a) :
    r.y.val = a / 84 ∧ r.x.val = a % 84 := by
  have := r.x.isLt
  rw [← h, RxRegs.cursor, cellAddr]
  omega

/-- Settles O51: the 504 zero bytes from (0, 0) fill every address and come round to it. -/
theorem clearAllBlanksTheDisplay : Obligations.ClearAllBlanksTheDisplay := by
  intro s hs hbus hrst hcount hnormal hhorizontal
  obtain ⟨t, hexec, hrun⟩ := startDisplay_runs_clear .clrall 0 504 hs hbus
  obtain ⟨hcursor, hread⟩ := afterWords_clear hrst ⟨hcount, hnormal, hhorizontal⟩ 0 504 (by decide)
  refine ⟨t, _, hexec, hrun, fun y x => ?_, ?_⟩
  · have := cellAddr_lt y x
    rw [hread, if_pos (by simpa using this)]
  · obtain ⟨hy, hx⟩ := RxRegs.div_mod_of_cursor hcursor
    exact ⟨Fin.ext hx, Fin.ext hy⟩

/-- Settles O52: the 84 zero bytes from (row mod 6, 0) fill the addresses of that row. -/
theorem clearRowBlanksItsRow : Obligations.ClearRowBlanksItsRow := by
  intro row s hs hbus hrst hcount hnormal hhorizontal
  obtain ⟨t, hexec, hrun⟩ := startDisplay_runs_clear (.clrrow row) row 84 hs hbus
  have hrow : row.toNat % 6 < 6 := Nat.mod_lt _ (by decide)
  obtain ⟨hcursor, hread⟩ :=
    afterWords_clear hrst ⟨hcount, hnormal, hhorizontal⟩ row 84 (by omega)
  refine ⟨t, _, hexec, hrun, fun y x => ?_, ?_⟩
  · have := x.isLt
    rw [hread]
    refine if_congr ?_ rfl rfl
    rw [cellAddr]
    omega
  · obtain ⟨hy, hx⟩ := RxRegs.div_mod_of_cursor hcursor
    exact ⟨Fin.ext (hx.trans (Nat.mod_eq_zero_of_dvd (by omega))), hy.trans (by omega)⟩

end Sys2Proof.Machine

/-! ## Init at the receiver (42_display_init.md R89, R90) -/

namespace Sys2Proof.Machine

/-- A contrast byte that the extended set knows: Vop, bias or temperature (R61, R90). -/
def KnownContrast (b : Byte) : Prop :=
  b.getLsbD 7 = true ∨ b.extractLsb' 3 5 = 0b00010#5 ∨ b.extractLsb' 2 6 = 0b000001#6

/-- Only the shift register and the three contrast registers differ. -/
def Receiver.ContrastOf (rx after : Receiver) : Prop :=
  ∃ shift vop bias tc, after =
    { rx with regs := { rx.regs with shift := shift, vop := vop, bias := bias, tc := tc } }

theorem Receiver.receiveByte_contrast {rx : Receiver} {b : Byte} (hcount : rx.regs.count = 0)
    (hext : rx.regs.extended = true) (hb : KnownContrast b) :
    rx.ContrastOf (rx.receiveByte true b) := by
  rw [receiveByte_command hcount]
  rcases hb with hvop | hbias | htc
  · rw [command_vop (by exact hext) hvop]; exact ⟨_, _, _, _, rfl⟩
  · rw [command_bias (by exact hext) hbias]; exact ⟨_, _, _, _, rfl⟩
  · rw [command_temperature (by exact hext) htc]; exact ⟨_, _, _, _, rfl⟩

theorem Receiver.foldl_contrast {rx : Receiver} {bs : List Byte} (hcount : rx.regs.count = 0)
    (hext : rx.regs.extended = true) (hbs : ∀ b ∈ bs, KnownContrast b) :
    rx.ContrastOf (bs.foldl (fun r b => r.receiveByte true b) rx) := by
  induction bs generalizing rx with
  | nil => exact ⟨_, _, _, _, rfl⟩
  | cons b bs ih =>
    obtain ⟨hb, hbs⟩ := List.forall_mem_cons.1 hbs
    obtain ⟨_, _, _, _, hfirst⟩ := receiveByte_contrast hcount hext hb
    obtain ⟨_, _, _, _, hrest⟩ := ih (rx := rx.receiveByte true b)
      (by rw [hfirst]; exact hcount) (by rw [hfirst]; exact hext) hbs
    exact ⟨_, _, _, _, by rw [List.foldl_cons, hrest, hfirst]⟩

/-- The function set of the extended instruction set, active and horizontal: 0x21. -/
theorem Receiver.receiveByte_fsetExt {rx : Receiver} (hcount : rx.regs.count = 0) :
    rx.receiveByte true 0x21 = { rx with regs := { rx.regs with
      shift := 0x21, powerDown := false, vertical := false, extended := true } } := by
  rw [receiveByte_command hcount, command_functionSet (by decide)]
  rfl

theorem Receiver.receiveByte_fsetNorm {rx : Receiver} (hcount : rx.regs.count = 0) :
    rx.receiveByte true 0x20 = { rx with regs := { rx.regs with
      shift := 0x20, powerDown := false, vertical := false, extended := false } } := by
  rw [receiveByte_command hcount, command_functionSet (by decide)]
  rfl

theorem Receiver.receiveByte_dispNormal {rx : Receiver} (hcount : rx.regs.count = 0)
    (hnorm : rx.regs.extended = false) :
    rx.receiveByte true 0x0C =
      { rx with regs := { rx.regs with shift := 0x0C, mode := .normal } } := by
  rw [receiveByte_command hcount, command_mode (by exact hnorm) (by decide)]
  rfl

/-- Step 3's command bytes: extended, the contrast, normal, NORMAL. -/
theorem Receiver.foldl_initCommands {p : Params} {rx : Receiver} (hcount : rx.regs.count = 0)
    (hcontrast : ∀ b ∈ p.contrastBias, KnownContrast b) :
    ∃ vop bias tc, (initCommands p).foldl (fun r b => r.receiveByte true b) rx =
      { rx with regs := { rx.regs with
        shift := 0x0C, powerDown := false, vertical := false, extended := false, mode := .normal
        vop := vop, bias := bias, tc := tc } } := by
  have hext := receiveByte_fsetExt hcount
  obtain ⟨_, vop, bias, tc, hfold⟩ := foldl_contrast (rx := rx.receiveByte true 0x21)
    (by rw [hext]; exact hcount) (by rw [hext]) hcontrast
  refine ⟨vop, bias, tc, ?_⟩
  simp only [initCommands, List.foldl_append, List.foldl_cons, List.foldl_nil]
  rw [hfold, hext, receiveByte_fsetNorm (by exact hcount),
    receiveByte_dispNormal (by exact hcount) rfl]

/-! ### The state after init, written out -/

/-- Wire words change only the bus pins, the trace and the receiver. -/
theorem afterWords_frame (ws : List WireWord) (s : State) :
    s.afterWords ws = { s with
      pins := (s.afterWords ws).pins
      traceRev := (s.afterWords ws).traceRev
      rx := (s.afterWords ws).rx } := by
  induction ws generalizing s with
  | nil => rfl
  | cons w ws ih => exact ih (s.afterWord w)

/-- After at least one wire word the clock is low, and SDIN and DC are as the last word left them. -/
theorem afterWords_pins (ws : List WireWord) (w : WireWord) (s : State) :
    (s.afterWords (ws ++ [w])).pins = { s.pins with
      sclk := { s.pins.sclk with out := false }
      sdin := { s.pins.sdin with out := w.2.getLsbD 0 }
      dc := { s.pins.dc with out := w.1 } } := by
  induction ws generalizing s with
  | nil => rfl
  | cons v ws ih => exact ih (s.afterWord v)

/-- The pins after init: the four lines configured, the clock low, the last command byte's bit 0 on
SDIN, the command level on DC, RST high. -/
def initializedPins (p : Params) (led : PinState) : Pins where
  sclk := ⟨.out, false⟩
  sdin := ⟨.out, false⟩
  dc := ⟨.out, p.dcCmdLevel⟩
  rst := ⟨.out, true⟩
  led := led

theorem afterInit_eq (s : State) : ∃ events, s.afterInit = { s with
    pins := initializedPins s.params s.pins.led
    traceRev := events
    rx := initReceiver s.params s.afterInitPins.rx
    dispState := .ready } := by
  let words := (initCommands s.params).map (commandWord s.params)
  let sent := s.afterInitPins.afterInitReset.afterWords words
  have hrx : sent.rx = initReceiver s.params s.afterInitPins.rx := by
    rw [afterWords_rx words rfl]
    exact receiveWords_commands _ _ _
  have hlast : words = ([0x21] ++ s.params.contrastBias ++ [0x20]).map (commandWord s.params) ++
      [commandWord s.params 0x0C] := by simp [words, initCommands]
  have hpins : sent.pins = initializedPins s.params s.pins.led := by
    simp only [sent]
    rw [hlast, afterWords_pins]
    simp [State.afterInitReset, State.afterInitPins, initializedPins, commandWord]
  refine ⟨sent.traceRev, ?_⟩
  rw [← hrx, ← hpins]
  exact congrArg (fun u : State => { u with dispState := .ready })
    (afterWords_frame words s.afterInitPins.afterInitReset)

/-- Held in reset or RST driven low: after init's step 1 the receiver is held. -/
theorem afterInitPins_rx {s : State} (h : s.pins.rst.out = true ∨ s.rx.regs.Held) :
    s.afterInitPins.rx.regs.Held ∧ s.afterInitPins.rx.ram = s.rx.ram := by
  cases hrst : s.pins.rst.out
  · have hrx : s.afterInitPins.rx = s.rx := if_neg (by simp [hrst])
    rw [hrx]
    exact ⟨h.resolve_left (by simp [hrst]), rfl⟩
  · have hrx : s.afterInitPins.rx = { s.rx with regs := heldRegs s.rx.regs } := if_pos hrst
    rw [hrx]
    exact ⟨⟨rfl, rfl, rfl, rfl, rfl, rfl, rfl, rfl, rfl, rfl⟩, rfl⟩

/-- Settles O23: the reset pulse is long enough to leave the receiver as step 1 held it, and step 3's
commands leave its cursor, its count and its RAM alone. -/
theorem initLeavesTheReceiverReady : Obligations.InitLeavesTheReceiverReady := by
  intro s hs huninit hheld hpulse hcontrast
  obtain ⟨t, hexec, hrun⟩ := exec_init_runs hs huninit
  obtain ⟨⟨hcount, hx, hy, -⟩, hram⟩ := afterInitPins_rx hheld
  obtain ⟨vop, bias, tc, hfold⟩ := Receiver.foldl_initCommands (p := s.params) hcount hcontrast
  obtain ⟨events, hinit⟩ := afterInit_eq s
  refine ⟨t, _, hexec, hrun, ?_⟩
  rw [hinit, initReceiver, if_neg (Nat.not_lt.2 hpulse), hfold]
  exact ⟨rfl, rfl, rfl, rfl, hx, hy, hcount, hram⟩

/-! ## The boot list (70_reset_and_hazards.md R139) -/

/-- The boot list after INIT, with no start-up request. -/
def jobsAfterInit : List Job :=
  [.act .btnCfg, .act (.pcieWrite true), .act (.ieWrite true), .op .loop]

theorem bootList_of_noStartup {p : Params} (h : p.startup.filter Instr.isStartup = []) :
    bootList p =
      .act (.pinCfg .led) :: .act (.pinWrite .led false) :: .op .init :: jobsAfterInit := by
  rw [bootList, h]
  rfl

/-- Power-on after the LED's set-up, with the boot entries from INIT on left. -/
def ledConfigured (p : Params) : State :=
  { powerOn p with
    pins := { (powerOn p).pins with led := ⟨.out, false⟩ }
    traceRev := [.set .led false, .cfg .led]
    mainJobs := .op .init :: jobsAfterInit }

theorem runs_ledSetup {p : Params} (h : p.startup.filter Instr.isStartup = []) :
    runs 2 (powerOn p) = .next (ledConfigured p) := by
  have hs : (powerOn p).AtRequest := ⟨⟨rfl, rfl, rfl⟩, rfl, rfl⟩
  have hconfig := hs.step_act (bootList_of_noStartup h)
  have hwrite := State.AtRequest.step_act (s := pinConfigure .led { powerOn p with
    mainJobs := .act (.pinWrite .led false) :: .op .init :: jobsAfterInit })
    ⟨⟨rfl, rfl, rfl⟩, rfl, rfl⟩ rfl
  rw [runs_succ hconfig, runs_one, hwrite]
  rfl

/-- `S_BOOTED` before the boot list's last entries: the display READY, the button not configured and
interrupts masked. -/
def displayReady (p : Params) (events : List Event) : State :=
  { sBooted p [] with
    btnMode := .unconf, pcintEn := false, ie := false
    traceRev := events, mainJobs := jobsAfterInit }

theorem runs_bootInit (p : Params) : ∃ t events, step (ledConfigured p) = .next t ∧
    runs (14 + (3 + p.contrastBias.length) * 25) t = .next (displayReady p events) := by
  obtain ⟨t, hexec, hrun⟩ := exec_init_runs
    (s := { ledConfigured p with mainJobs := jobsAfterInit }) ⟨⟨rfl, rfl, rfl⟩, rfl, rfl⟩ rfl
  obtain ⟨events, hinit⟩ := afterInit_eq { ledConfigured p with mainJobs := jobsAfterInit }
  have hrx : { ledConfigured p with mainJobs := jobsAfterInit }.afterInitPins.rx =
      powerOnReceiver := rfl
  rw [hinit, hrx] at hrun
  have hs : (ledConfigured p).AtRequest := ⟨⟨rfl, rfl, rfl⟩, rfl, rfl⟩
  refine ⟨t, events, (hs.step_op rfl).trans hexec, hrun.trans ?_⟩
  simp only [displayReady, sBooted, ledConfigured, initializedPins, powerOn, State.reset]

/-- The boot list's last entries before LOOP configure the button and unmask. -/
theorem runs_jobsAfterInit {s : State} (hs : s.AtRequest) (hjobs : s.mainJobs = jobsAfterInit) :
    runs 3 s = .next { s with
      btnMode := .inPullup, btnPrev := s.btnIn, pcintEn := true, ie := true
      traceRev := .cfgBtn :: s.traceRev, mainJobs := [.op .loop] } := by
  let configured := buttonConfigure { s with mainJobs := jobsAfterInit.tail }
  let enabled := { configured with pcintEn := true, mainJobs := jobsAfterInit.tail.tail }
  have hconfigured : configured.AtRequest :=
    ⟨⟨hs.noTurn, hs.noLatched, hs.awake⟩, hs.noFrame, hs.noAction⟩
  have henabled : enabled.AtRequest :=
    ⟨⟨hs.noTurn, hs.noLatched, hs.awake⟩, hs.noFrame, hs.noAction⟩
  have hbutton : step s = .next configured := hs.step_act hjobs
  have hpcie : step configured = .next enabled := hconfigured.step_act rfl
  rw [runs_succ hbutton, runs_succ hpcie, runs_one, henabled.step_act rfl]
  rfl

/-- Settles O4: the LED's set-up, INIT, and the entries that configure the button and unmask. -/
theorem bootListReachesBooted : Obligations.BootListReachesBooted := by
  intro p hstartup
  obtain ⟨t, events, hstart, hinit⟩ := runs_bootInit p
  have hend := runs_jobsAfterInit (s := displayReady p events) ⟨⟨rfl, rfl, rfl⟩, rfl, rfl⟩ rfl
  have hlen : 95 + 25 * p.contrastBias.length =
      2 + ((14 + (3 + p.contrastBias.length) * 25 + 3) + 1) := by omega
  rw [hlen, runs_add (runs_ledSetup hstartup), runs_succ hstart, runs_add hinit]
  exact ⟨_, hend, rfl, by simp only [displayReady, sBooted, State.reset]⟩

end Sys2Proof.Machine
